-- ==== Sys2Proof/Word.lean ====
section
/-! DEFINITION. Word: the widths of the block's elements (spec/10_state.md R32, R57 to R61; spec/20_memory.md R91). -/

namespace Sys2Proof

/-- One element of IBUF. -/
abbrev Byte := BitVec 8

/-- A numbered register, other than SF_CONST, and an element of COEF. -/
abbrev Word := BitVec 32

/-- SF_CONST and an element of WARM, RESBUF or OBUF. -/
abbrev Long := BitVec 64

end Sys2Proof
end

