-- ==== Sys2Proof/Syntax.lean ====
section
/-! DEFINITION. Syntax: the instructions, one constructor per row of spec/opcode_table.json
(spec/30_encoding.md R110, R137), with the operands of the row's encoding. -/

namespace Sys2Proof

/-- The stream elements PARSE_SUBFRAME reads at the cursor, and the command words the host writes to CMD. -/
inductive Instr where
  /-- SF_CONSTANT, header `0000000w` (R112, R155). -/
  | sfConstant (wflag : Bool)
  /-- SF_VERBATIM, header `0000001w` (R112, R156). -/
  | sfVerbatim (wflag : Bool)
  /-- SF_FIXED0, header `0001000w` (R112, R157). -/
  | sfFixed0 (wflag : Bool)
  /-- SF_FIXED1, header `0001001w` (R112, R158). -/
  | sfFixed1 (wflag : Bool)
  /-- SF_FIXED2, header `0001010w` (R112, R159). -/
  | sfFixed2 (wflag : Bool)
  /-- SF_FIXED3, header `0001011w` (R112, R160). -/
  | sfFixed3 (wflag : Bool)
  /-- SF_FIXED4, header `0001100w` (R112, R161). -/
  | sfFixed4 (wflag : Bool)
  /-- SF_LPC, header `01ooooow`, of order `ooooo + 1` (R112, R162). -/
  | sfLpc (orderLessOne : BitVec 5) (wflag : Bool)
  /-- RES_RICE4, residual header `00pppp` (R123, R181). -/
  | resRice4 (porder : BitVec 4)
  /-- RES_RICE5, residual header `01pppp` (R123, R182). -/
  | resRice5 (porder : BitVec 4)
  /-- PART_ESC4, partition header `1111` and the 5-bit width that follows it (R125, R189). -/
  | partEsc4 (width : BitVec 5)
  /-- PART_RICE4, partition header `kkkk`, k not 15 (R125, R186). -/
  | partRice4 (k : BitVec 4)
  /-- PART_ESC5, partition header `11111` and the 5-bit width that follows it (R125, R190). -/
  | partEsc5 (width : BitVec 5)
  /-- PART_RICE5, partition header `kkkkk`, k not 31 (R125, R186). -/
  | partRice5 (k : BitVec 5)
  /-- NOP, command word 0x00000000 (R131, R266). -/
  | cmdNop
  /-- PARSE_SUBFRAME, command word 0x00000001 (R131, R150). -/
  | cmdParseSubframe
  /-- RECONSTRUCT, command word 0x00000002 (R131, R210). -/
  | cmdReconstruct
  /-- VERIFY_CRC16, command word 0x00000003 (R131, R240). -/
  | cmdVerifyCrc16
  /-- SOFT_RESET, command word 0x0000000F (R131, R267). -/
  | cmdSoftReset
  deriving DecidableEq, Repr

/-- Where an instruction stands: what the machine expects when it decodes one. The same bits mean different elements
in different slots (R110). -/
inductive Slot where
  /-- a word written to CMD -/
  | command
  /-- a subframe header -/
  | header
  /-- a residual header -/
  | residual
  /-- a partition header of a RES_RICE4 residual -/
  | partition4
  /-- a partition header of a RES_RICE5 residual -/
  | partition5
  deriving DecidableEq, Repr

/-- The slot each instruction belongs to (R111, R122, R125, R130). -/
def Instr.slot : Instr → Slot
  | .sfConstant _ => .header
  | .sfVerbatim _ => .header
  | .sfFixed0 _ => .header
  | .sfFixed1 _ => .header
  | .sfFixed2 _ => .header
  | .sfFixed3 _ => .header
  | .sfFixed4 _ => .header
  | .sfLpc _ _ => .header
  | .resRice4 _ => .residual
  | .resRice5 _ => .residual
  | .partEsc4 _ => .partition4
  | .partRice4 _ => .partition4
  | .partEsc5 _ => .partition5
  | .partRice5 _ => .partition5
  | .cmdNop => .command
  | .cmdParseSubframe => .command
  | .cmdReconstruct => .command
  | .cmdVerifyCrc16 => .command
  | .cmdSoftReset => .command

end Sys2Proof
end

