-- ==== Sys2Proof/WellFormed.lean ====
section
/-! DEFINITION. WellFormed: which operands the encodings admit (spec/30_encoding.md R125; spec/41_residual_rice.md R192). -/

namespace Sys2Proof

/-- Every operand value is admitted, but for a Rice parameter equal to the escape value, which is the escape form's. -/
def Instr.wellFormed : Instr → Bool
  | .partRice4 k => k ≠ 15#4
  | .partRice5 k => k ≠ 31#5
  | .sfConstant _ => true
  | .sfVerbatim _ => true
  | .sfFixed0 _ => true
  | .sfFixed1 _ => true
  | .sfFixed2 _ => true
  | .sfFixed3 _ => true
  | .sfFixed4 _ => true
  | .sfLpc _ _ => true
  | .resRice4 _ => true
  | .resRice5 _ => true
  | .partEsc4 _ => true
  | .partEsc5 _ => true
  | .cmdNop => true
  | .cmdParseSubframe => true
  | .cmdReconstruct => true
  | .cmdVerifyCrc16 => true
  | .cmdSoftReset => true

end Sys2Proof
end

