-- ==== Sys2Proof/Decode.lean ====
section
/-! DEFINITION. Decode: bits in the order the block reads them, most significant first (spec/20_memory.md R81), to
instructions, and back. A decoder takes the list of the bits that are there and answers the instruction with the rest of
the list, or rejects by name. It looks at no bit beyond the one that settles its answer (spec/60_exceptions.md R304). -/

namespace Sys2Proof

/-! ## Bit fields -/

/-- The n low bits of v in the order read: the most significant first (spec/20_memory.md R82). -/
def natBits : Nat → Nat → List Bool
  | 0, _ => []
  | n + 1, v => v.testBit n :: natBits n v

/-- The loop of ReadBits (spec/20_memory.md R84) with the value read so far. No answer: the bits ran out. -/
def readBitsFrom : Nat → Nat → List Bool → Option (Nat × List Bool)
  | v, 0, bits => some (v, bits)
  | _, _ + 1, [] => none
  | v, n + 1, b :: bits => readBitsFrom (2 * v + b.toNat) n bits

/-- ReadBits(n) on the bits at hand (spec/20_memory.md R84). -/
def readBits (n : Nat) (bits : List Bool) : Option (Nat × List Bool) :=
  readBitsFrom 0 n bits

/-- ReadUnary() on the bits at hand (spec/20_memory.md R87). -/
def readUnary : List Bool → Option (Nat × List Bool)
  | [] => none
  | true :: bits => some (0, bits)
  | false :: bits =>
    match readUnary bits with
    | some (z, rest) => some (z + 1, rest)
    | none => none

/-- `sext_n(v)` (spec/00_scope.md R16). -/
def sext (n v : Nat) : Int :=
  if 2 ^ (n - 1) ≤ v then (v : Int) - 2 ^ n else v

/-! ## Decoding -/

/-- Why bits are no instruction. -/
inductive DecodeError where
  /-- the bits end inside the encoding -/
  | truncated
  /-- a subframe header that ends after a valid TYPE, before WFLAG: the form TYPE selects, with the flag clear -/
  | flagMissing (form : Instr)
  /-- PAD = 1 (spec/30_encoding.md R113) -/
  | subframePadding
  /-- a reserved TYPE or METHOD (spec/30_encoding.md R113, R123) -/
  | invalidCode
  /-- a reserved command word (spec/30_encoding.md R132) -/
  | invalidCommand
  deriving DecidableEq, Repr

/-- The TYPE map (spec/30_encoding.md R112). -/
def formOfType (t : Nat) (wflag : Bool) : Option Instr :=
  if t = 0 then some (.sfConstant wflag)
  else if t = 1 then some (.sfVerbatim wflag)
  else if t = 8 then some (.sfFixed0 wflag)
  else if t = 9 then some (.sfFixed1 wflag)
  else if t = 10 then some (.sfFixed2 wflag)
  else if t = 11 then some (.sfFixed3 wflag)
  else if t = 12 then some (.sfFixed4 wflag)
  else if 32 ≤ t ∧ t ≤ 63 then some (.sfLpc (BitVec.ofNat 5 (t - 32)) wflag)
  else none

/-- The predictor order a subframe header gives (spec/30_encoding.md R112). The other instructions have none. -/
def predictorOrder : Instr → Nat
  | .sfConstant _ => 0
  | .sfVerbatim _ => 0
  | .sfFixed0 _ => 0
  | .sfFixed1 _ => 1
  | .sfFixed2 _ => 2
  | .sfFixed3 _ => 3
  | .sfFixed4 _ => 4
  | .sfLpc o _ => o.toNat + 1
  | .resRice4 _ => 0
  | .resRice5 _ => 0
  | .partEsc4 _ => 0
  | .partRice4 _ => 0
  | .partEsc5 _ => 0
  | .partRice5 _ => 0
  | .cmdNop => 0
  | .cmdParseSubframe => 0
  | .cmdReconstruct => 0
  | .cmdVerifyCrc16 => 0
  | .cmdSoftReset => 0

/-- The subframe header, PAD TYPE WFLAG (spec/30_encoding.md R111), each field judged before the next is read. -/
def decodeHeader (bits : List Bool) : Except DecodeError (Instr × List Bool) :=
  match readBits 1 bits with
  | none => .error .truncated
  | some (pad, bits) =>
    if pad ≠ 0 then .error .subframePadding
    else
      match readBits 6 bits with
      | none => .error .truncated
      | some (t, bits) =>
        match formOfType t false with
        | none => .error .invalidCode
        | some form =>
          match readBits 1 bits with
          | none => .error (.flagMissing form)
          | some (w, bits) =>
            match formOfType t (w = 1) with
            | none => .error .invalidCode
            | some i => .ok (i, bits)

/-- The residual header, METHOD PORDER (spec/30_encoding.md R122, R123), METHOD judged before PORDER is read
(spec/41_residual_rice.md R183). -/
def decodeResidual (bits : List Bool) : Except DecodeError (Instr × List Bool) :=
  match readBits 2 bits with
  | none => .error .truncated
  | some (m, bits) =>
    if 2 ≤ m then .error .invalidCode
    else
      match readBits 4 bits with
      | none => .error .truncated
      | some (p, bits) =>
        .ok (if m = 0 then .resRice4 (BitVec.ofNat 4 p) else .resRice5 (BitVec.ofNat 4 p), bits)

/-- The partition header of a RES_RICE4 residual (spec/30_encoding.md R125). -/
def decodePartition4 (bits : List Bool) : Except DecodeError (Instr × List Bool) :=
  match readBits 4 bits with
  | none => .error .truncated
  | some (k, bits) =>
    if k = 15 then
      match readBits 5 bits with
      | none => .error .truncated
      | some (n, bits) => .ok (.partEsc4 (BitVec.ofNat 5 n), bits)
    else .ok (.partRice4 (BitVec.ofNat 4 k), bits)

/-- The partition header of a RES_RICE5 residual (spec/30_encoding.md R125). -/
def decodePartition5 (bits : List Bool) : Except DecodeError (Instr × List Bool) :=
  match readBits 5 bits with
  | none => .error .truncated
  | some (k, bits) =>
    if k = 31 then
      match readBits 5 bits with
      | none => .error .truncated
      | some (n, bits) => .ok (.partEsc5 (BitVec.ofNat 5 n), bits)
    else .ok (.partRice5 (BitVec.ofNat 5 k), bits)

/-- The OP map (spec/30_encoding.md R131); every other word is reserved (R132). -/
def commandOfWord (v : Nat) : Option Instr :=
  if v = 0 then some .cmdNop
  else if v = 1 then some .cmdParseSubframe
  else if v = 2 then some .cmdReconstruct
  else if v = 3 then some .cmdVerifyCrc16
  else if v = 15 then some .cmdSoftReset
  else none

/-- The 32-bit command word (spec/30_encoding.md R130 to R132). -/
def decodeCommand (bits : List Bool) : Except DecodeError (Instr × List Bool) :=
  match readBits 32 bits with
  | none => .error .truncated
  | some (v, bits) =>
    match commandOfWord v with
    | none => .error .invalidCommand
    | some i => .ok (i, bits)

/-- The decoder: what the bits at hand are in a slot. -/
def decode (slot : Slot) (bits : List Bool) : Except DecodeError (Instr × List Bool) :=
  match slot with
  | .command => decodeCommand bits
  | .header => decodeHeader bits
  | .residual => decodeResidual bits
  | .partition4 => decodePartition4 bits
  | .partition5 => decodePartition5 bits

/-! ## Encoding -/

/-- PAD = 0, TYPE, WFLAG (spec/30_encoding.md R111). -/
def headerBits (t : Nat) (wflag : Bool) : List Bool :=
  natBits 1 0 ++ natBits 6 t ++ natBits 1 wflag.toNat

/-- The words of an instruction, in the order read (spec/30_encoding.md R112, R122, R123, R125, R131). -/
def encode : Instr → List Bool
  | .sfConstant w => headerBits 0 w
  | .sfVerbatim w => headerBits 1 w
  | .sfFixed0 w => headerBits 8 w
  | .sfFixed1 w => headerBits 9 w
  | .sfFixed2 w => headerBits 10 w
  | .sfFixed3 w => headerBits 11 w
  | .sfFixed4 w => headerBits 12 w
  | .sfLpc o w => headerBits (32 + o.toNat) w
  | .resRice4 p => natBits 2 0 ++ natBits 4 p.toNat
  | .resRice5 p => natBits 2 1 ++ natBits 4 p.toNat
  | .partEsc4 n => natBits 4 15 ++ natBits 5 n.toNat
  | .partRice4 k => natBits 4 k.toNat
  | .partEsc5 n => natBits 5 31 ++ natBits 5 n.toNat
  | .partRice5 k => natBits 5 k.toNat
  | .cmdNop => natBits 32 0
  | .cmdParseSubframe => natBits 32 1
  | .cmdReconstruct => natBits 32 2
  | .cmdVerifyCrc16 => natBits 32 3
  | .cmdSoftReset => natBits 32 15

/-! ## Bodies: the encodings of the fields that follow a header, by the same tables -/

/-- A unary run: z 0 bits and a 1 bit (spec/30_encoding.md R111, R126). -/
def unaryBits (z : Nat) : List Bool := List.replicate z false ++ [true]

/-- The wasted-bits count of a header: absent with WFLAG = 0, a unary run of z with WFLAG = 1 (spec/30_encoding.md R114). -/
def wastedBits (wflag : Bool) (z : Nat) : List Bool := if wflag then unaryBits z else []

/-- An n-bit two's-complement field (spec/20_memory.md R86). -/
def signedBits (n : Nat) (v : Int) : List Bool := natBits n (v % 2 ^ n).toNat

/-- The folded value of a residual: the zig-zag map the other way (spec/30_encoding.md R127). -/
def foldResidual (v : Int) : Nat := if 0 ≤ v then (2 * v).toNat else (-2 * v - 1).toNat

/-- A Rice codeword with parameter k (spec/30_encoding.md R126). -/
def riceBits (k : Nat) (v : Int) : List Bool :=
  unaryBits (foldResidual v / 2 ^ k) ++ natBits k (foldResidual v % 2 ^ k)

/-! ## The opcode table's words -/

/-- The instruction a decoder's answer holds, if it holds one. -/
def decoded? : Except DecodeError (Instr × List Bool) → Option Instr
  | .ok (i, _) => some i
  | .error _ => none

/-- The slot of a table word of nbits bits: 32 a command, 6 a residual header, 4 or 5 a partition header. A word of one
byte is a subframe header where the TYPE map knows it. The table's escape rows, right-aligned in a byte, are no subframe
header, and are taken as what they are. Log entry 19. -/
def tableSlot (nbits w : Nat) : Slot :=
  if nbits = 32 then .command
  else if nbits = 6 then .residual
  else if nbits = 5 then .partition5
  else if nbits = 4 then .partition4
  else if w = 0x0F then .partition4
  else if w = 0x1F then .partition5
  else .header

/-- The bits of a table word in its slot, in the order read, followed by operand bits of zeros. -/
def tableBits (nbits w : Nat) : List Bool :=
  match tableSlot nbits w with
  | .command => natBits 32 w
  | .header => natBits 8 w
  | .residual => natBits 6 w ++ natBits 10 0
  | .partition4 => natBits 4 w ++ natBits 12 0
  | .partition5 => natBits 5 w ++ natBits 11 0

/-- What the decoder reads from a word of spec/opcode_table.json. -/
def decodeTableWord (nbits w : Nat) : Option Instr :=
  decoded? (decode (tableSlot nbits w) (tableBits nbits w))

end Sys2Proof
end

