-- ==== Sys2Proof/Config.lean ====
section
/-! DEFINITION. Config: the block's parameters (spec/00_scope.md R9 to R12) and the free values, which
nothing in Lean can evaluate. The parameters the spec leaves OPEN, and the
point on which two of its rules differ, are opaque: a claim holds for each of their values. -/

namespace Sys2Proof

/-- The spec's own name for the block (spec/00_scope.md R2). -/
def Config.identity : String := "BSIF-FLAC-RLC-1"

/-- `P_IBUF_BYTES` less one. OPEN in the spec (R9); the bound of the type is R9's. Log entry 3. -/
opaque Config.ibufBytesLessOne : Fin 4294967295

/-- `P_IBUF_BYTES`, 1 to 2^32 - 1 (R9). -/
def Config.ibufBytes : Nat := Config.ibufBytesLessOne.val + 1

/-- `P_WASTED_BIAS` as a bit. OPEN in the spec (R12). Log entry 4. -/
opaque Config.wastedBiasBit : Bool

/-- `P_WASTED_BIAS`, 0 or 1 (R12). -/
def Config.wastedBias : Nat := Config.wastedBiasBit.toNat

/-- `P_MAX_BLOCK` (R10): the largest block size, and the depth of RESBUF and OBUF. -/
def Config.maxBlock : Nat := 65536

/-- `P_MAX_SAMPLESIZE` (R11). -/
def Config.maxSampleSize : Nat := 33

/-- The elements that can hold any value: those of a fault (spec/60_exceptions.md R306) and the value a host read
returns while BUSY (spec/44_host_commands.md R272). -/
inductive FreeSlot where
  | cursor
  | register (number : Nat)
  | warm (i : Nat)
  | coef (i : Nat)
  | resbuf (i : Nat)
  | obuf (i : Nat)
  | hostRead
  deriving DecidableEq, Repr

/-- The free values: draw number and element to value, of which a reader takes its width's low bits. No body, so no
claim can know one. Log entry 5. -/
opaque Config.free : Nat → FreeSlot → BitVec 64

end Sys2Proof
end

