-- ==== Sys2Proof/Machine/State.lean ====
section
/-! DEFINITION. State: everything the spec gives the block (spec/10_state.md R30), the model's own fields beside it, the
reasons a step can stop, and the state after reset (spec/70_reset_and_hazards.md R340). -/

namespace Sys2Proof.Machine

/-- A buffer: its written elements, by index (spec/10_state.md R64). An index with no cell is an element that nothing
has written, and has no value. -/
abbrev Memory (α : Type) := List (Nat × α)

/-- The canonical form of a buffer: indices strictly rising. No cell is redundant, since an absent one has no value. -/
abbrev Memory.wf {α : Type} (m : Memory α) : Prop := m.Pairwise (fun a b => a.1 < b.1)

/-- STATUS.STATE (spec/10_state.md R39, R40). -/
inductive BlockState where
  | idle
  | busy
  | done
  | fault
  deriving DecidableEq, Repr

/-- The operation PENDING names (spec/10_state.md R62; spec/44_host_commands.md R269). -/
inductive Op where
  | parse
  | reconstruct
  | verify
  deriving DecidableEq, Repr

/-- The subframe kinds (spec/10_state.md R46), without "none". -/
inductive Kind where
  | constant
  | verbatim
  | fixed
  | lpc
  deriving DecidableEq, Repr

/-- The errors of spec/60_exceptions.md R300. The first and the third are never raised (R301). -/
inductive ErrorCode where
  | invalidMagic
  | truncatedStream
  | frameSync
  | invalidCode
  | invalidCoefficientPrecision
  | partitionAlignment
  | subframePadding
  | invalidOrder
  | invalidWidth
  | invalidShift
  | residualCount
  | residualOverflow
  | arithmeticOverflow
  | invalidConfig
  | noSubframe
  | invalidCommand
  deriving DecidableEq, Repr

/-- The spaces of the host's buffer reads (spec/44_host_commands.md R264). -/
inductive BufName where
  | ibuf
  | warm
  | coef
  | resbuf
  | obuf
  deriving DecidableEq, Repr

/-- The host's actions (spec/44_host_commands.md R260). -/
inductive HostAction where
  | writeReg (r : Nat) (v : Word)
  | readReg (r : Nat)
  | writeIbuf (i : Nat) (b : Byte)
  | readBuf (x : BufName) (i : Nat)
  | reset
  deriving DecidableEq, Repr

/-- What a host read returns: one element, of the width of its space (spec/20_memory.md R91). -/
inductive ReadValue where
  | byte (v : Byte)
  | word (v : Word)
  | long (v : Long)
  deriving DecidableEq, Repr

/-- Who moves next while STATE = BUSY, where the engine's own whole step (spec/44_host_commands.md R269) is not what
comes: a host action, or one stream element of the running command. The model's own, log entry 1. -/
inductive Turn where
  | host
  | element
  deriving DecidableEq, Repr

/-- What PARSE_SUBFRAME has read of a subframe's header and LPC parameters, to be written at Commit
(spec/40_subframe.md R150, R166). Transient (spec/10_state.md R63). -/
structure Subframe where
  typ : BitVec 6
  wflag : Bool
  kind : Kind
  order : Nat
  wasted : Nat
  width : Nat
  blocksize : Nat
  prec : Nat
  shift : Nat
  deriving DecidableEq, Repr

/-- Where DecodeResidual stands: the method, the partition order, the partition about to be read (`part`) and the next
RESBUF index (`idx`) (spec/41_residual_rice.md R180). Transient (spec/10_state.md R63). -/
structure Residual where
  method : BitVec 1
  porder : BitVec 4
  part : Nat
  idx : Nat
  deriving DecidableEq, Repr

/-- The stream element a running PARSE_SUBFRAME reads next. -/
inductive ParsePhase where
  | header
  | residual (f : Subframe)
  | partition (f : Subframe) (r : Residual)
  deriving DecidableEq, Repr

/-- A running PARSE_SUBFRAME past its entry checks: the cursor it began at, and its next element. -/
structure ParseRun where
  entryByte : Word
  entryBit : BitVec 3
  phase : ParsePhase
  deriving DecidableEq, Repr

/-- The machine. Down to `refused` the spec's state, each field with the rule that gives it; then the model's own. -/
structure State where
  /-- STATUS.STATE (R40) -/
  blockState : BlockState
  /-- STATUS.SF_VALID (R42) -/
  sfValid : Bool
  /-- STATUS.CRC_VALID (R43) -/
  crcValid : Bool
  /-- STATUS.CRC_OK (R43) -/
  crcOk : Bool
  /-- STATUS.ERRCODE (R41) -/
  errcode : BitVec 8
  /-- IBUF_LEN (R34) -/
  ibufLen : Word
  /-- CUR_BYTE (R33) -/
  curByte : Word
  /-- CUR_BIT bits [2:0] (R33, R56) -/
  curBit : BitVec 3
  /-- BLOCKSIZE (R35) -/
  blocksize : Word
  /-- SAMPLESIZE (R36) -/
  samplesize : Word
  /-- CRC_START (R37) -/
  crcStart : Word
  /-- CRC_END (R37) -/
  crcEnd : Word
  /-- CRC_CALC bits [15:0] (R38) -/
  crcCalc : BitVec 16
  /-- CRC_EXPECT bits [15:0] (R38) -/
  crcExpect : BitVec 16
  /-- SF_TYPE bits [6:0] (R45) -/
  sfType : BitVec 7
  /-- SF_KIND (R46) -/
  sfKind : Word
  /-- SF_ORDER (R47) -/
  sfOrder : Word
  /-- SF_WASTED (R48) -/
  sfWasted : Word
  /-- SF_WIDTH (R49) -/
  sfWidth : Word
  /-- SF_BLOCKSIZE (R50) -/
  sfBlocksize : Word
  /-- LPC_PREC (R51) -/
  lpcPrec : Word
  /-- LPC_SHIFT (R52) -/
  lpcShift : Word
  /-- RES_METHOD (R53) -/
  resMethod : Word
  /-- RES_PORDER (R53) -/
  resPorder : Word
  /-- SF_CONST (R54) -/
  sfConst : Long
  /-- WARM (R57) -/
  warm : Vector Long 32
  /-- COEF (R58) -/
  coef : Vector Word 32
  /-- IBUF and its written-cell marks (R61, R62, R64) -/
  ibuf : Memory Byte
  /-- RESBUF and its written-cell marks (R59, R62, R64) -/
  resbuf : Memory Long
  /-- OBUF and its written-cell marks (R60, R62, R64) -/
  obuf : Memory Long
  /-- PENDING (R62); no value where the spec calls it undefined. Log entry 11. -/
  pending : Option Op
  /-- REFUSED (R62) -/
  refused : Bool
  /-- the model's own: where the engine stands inside a PARSE_SUBFRAME. Log entry 1. -/
  parse : Option ParseRun
  /-- the model's own: the host program's remaining actions. Log entry 2. -/
  host : List HostAction
  /-- the model's own: who moves next while BUSY. Log entry 1. -/
  turns : List Turn
  /-- the model's own: what the host's last read returned. Log entry 23. -/
  readData : Option ReadValue
  /-- the model's own: how many draws of free values were made. Log entry 5. -/
  draws : Nat
  deriving DecidableEq, Repr

/-- The reasons a step stops. -/
inductive Fault where
  /-- `UnwrittenRead` of spec/10_state.md R64: the engine or the host read an element that nothing has written. The
  spec gives the run no meaning from there. Safe. -/
  | unwrittenRead (x : BufName)
  /-- The engine's step with PENDING undefined: BUSY with no operation, which no run reaches. Safe. Log entry 16. -/
  | pendingUndefined
  /-- RECONSTRUCT of a held subframe whose registers no successful PARSE_SUBFRAME leaves (spec/42_reconstruct.md R210
  gives no case for it), which no run reaches. Safe. Log entry 15. -/
  | heldSubframeMalformed
  /-- A PARSE_SUBFRAME of more elements than its partition order allows (spec/44_host_commands.md R270), which cannot
  happen. Safe. Log entry 18. -/
  | engineOverrun
  deriving DecidableEq, Repr

/-- The reasons an instruction has no meaning. -/
inductive Refusal where
  /-- exec: an instruction that has no meaning yet. No arm answers it now. Safe. -/
  | notModelled (mnemonic : String)
  /-- The meaning of a stream element, executed where the engine does not stand at such an element (spec/30_encoding.md
  R110: the element exists only inside a PARSE_SUBFRAME). No step executes one there. Safe. Log entry 17. -/
  | elementOutOfPlace
  deriving DecidableEq, Repr

/-- The state after reset (spec/70_reset_and_hazards.md R340, R341). The model's own fields are empty (log entry 29), and
REFUSED, which reset leaves, is clear (log entry 10). -/
def State.reset : State where
  blockState := .idle
  sfValid := false
  crcValid := false
  crcOk := false
  errcode := 0
  ibufLen := 0
  curByte := 0
  curBit := 0
  blocksize := 0
  samplesize := 0
  crcStart := 0
  crcEnd := 0
  crcCalc := 0
  crcExpect := 0
  sfType := 0
  sfKind := 0
  sfOrder := 0
  sfWasted := 0
  sfWidth := 0
  sfBlocksize := 0
  lpcPrec := 0
  lpcShift := 0
  resMethod := 0
  resPorder := 0
  sfConst := 0
  warm := Vector.replicate 32 0
  coef := Vector.replicate 32 0
  ibuf := []
  resbuf := []
  obuf := []
  pending := none
  refused := false
  parse := none
  host := []
  turns := []
  readData := none
  draws := 0

end Sys2Proof.Machine
end

