-- ==== Sys2Proof/Machine/Flags.lean ====
section
/-! DEFINITION. Flags: the STATUS word and its fields, the error codes, and the flag computations (spec/10_state.md R39 to
R43, R65; spec/60_exceptions.md R300). -/

namespace Sys2Proof.Machine

/-- The STATE field's value (spec/10_state.md R39). -/
def stateCode : BlockState → BitVec 2
  | .idle => 0
  | .busy => 1
  | .done => 2
  | .fault => 3

/-- ERRCODE's value for an error (spec/60_exceptions.md R300). -/
def errorByte : ErrorCode → BitVec 8
  | .invalidMagic => 0x01
  | .truncatedStream => 0x02
  | .frameSync => 0x03
  | .invalidCode => 0x04
  | .invalidCoefficientPrecision => 0x05
  | .partitionAlignment => 0x06
  | .subframePadding => 0x10
  | .invalidOrder => 0x11
  | .invalidWidth => 0x12
  | .invalidShift => 0x13
  | .residualCount => 0x14
  | .residualOverflow => 0x15
  | .arithmeticOverflow => 0x16
  | .invalidConfig => 0x20
  | .noSubframe => 0x21
  | .invalidCommand => 0x22

/-- STATUS as the host reads it (spec/10_state.md R39). -/
def statusWord (s : State) : Word :=
  0#16 ++ s.errcode ++ 0#3 ++ BitVec.ofBool s.crcOk ++ BitVec.ofBool s.crcValid ++ BitVec.ofBool s.sfValid
    ++ stateCode s.blockState

/-- CRC_OK after a successful VERIFY_CRC16 (spec/10_state.md R43). -/
def crcOkFlag (computed expected : BitVec 16) : Bool := computed == expected

/-- SF_KIND's value for a kind (spec/10_state.md R46). -/
def kindCode : Kind → Word
  | .constant => 1
  | .verbatim => 2
  | .fixed => 3
  | .lpc => 4

/-- The kind SF_KIND's value names, if it names one (spec/10_state.md R46). -/
def kindOf (v : Word) : Option Kind :=
  if v = 1 then some .constant
  else if v = 2 then some .verbatim
  else if v = 3 then some .fixed
  else if v = 4 then some .lpc
  else none

end Sys2Proof.Machine
end

