-- ==== Sys2Proof/Machine/Ops.lean ====
section
/-! DEFINITION. Ops: the operations over buffers, registers and the cursor, taking a fault (spec/60_exceptions.md R305,
R306) and leaving it (spec/44_host_commands.md R267). -/

namespace Sys2Proof.Machine

/-! ## Buffers -/

/-- The element at an index; none where nothing has written it (spec/10_state.md R64). -/
def Memory.read {α : Type} (m : Memory α) (i : Nat) : Option α :=
  match m with
  | [] => none
  | (a, v) :: rest => if a = i then some v else Memory.read rest i

/-- Consecutive elements given indices from `i` on. -/
def cellsFrom {α : Type} (i : Nat) : List α → Memory α
  | [] => []
  | v :: vs => (i, v) :: cellsFrom (i + 1) vs

/-- Writes consecutive elements from index `i` on, and marks them written (spec/10_state.md R64). -/
def Memory.writeRun {α : Type} (m : Memory α) (i : Nat) (vs : List α) : Memory α :=
  m.filter (fun c => c.1 < i) ++ cellsFrom i vs ++ m.filter (fun c => i + vs.length ≤ c.1)

/-- Writes one element. -/
def Memory.write {α : Type} (m : Memory α) (i : Nat) (v : α) : Memory α :=
  m.writeRun i [v]

/-- The written elements from index `i` up to the first unwritten one. -/
def Memory.runFrom {α : Type} (m : Memory α) (i : Nat) : List α :=
  match m with
  | [] => []
  | (a, v) :: rest =>
    if a < i then Memory.runFrom rest i else if a = i then v :: Memory.runFrom rest (i + 1) else []

/-- The elements from index `i` on, n of them, or fewer where an unwritten one comes first. -/
def Memory.slice {α : Type} (m : Memory α) (i n : Nat) : List α :=
  (m.runFrom i).take n

/-- A register file of signed elements from the values of its first entries, 0 beyond (spec/10_state.md R57, R58). -/
def fileOf (w : Nat) (vs : List Int) : Vector (BitVec w) 32 :=
  ⟨⟨(List.range 32).map (fun i => BitVec.ofInt w (vs.getD i 0))⟩, by simp⟩

/-- A register file's first k elements as signed values. -/
def fileTake {w : Nat} (f : Vector (BitVec w) 32) (k : Nat) : List Int :=
  (f.toList.take k).map BitVec.toInt

/-! ## The bit cursor -/

/-- The cursor's bit address (spec/20_memory.md R83). -/
def bitAddress (curByte : Word) (curBit : BitVec 3) : Nat := 8 * curByte.toNat + curBit.toNat

/-- The cursor at a bit address. -/
def setCursor (s : State) (a : Nat) : State :=
  { s with curByte := BitVec.ofNat 32 (a / 8), curBit := BitVec.ofNat 3 (a % 8) }

/-- The cursor n bits on (spec/20_memory.md R83). -/
def advance (s : State) (n : Nat) : State :=
  setCursor s (bitAddress s.curByte s.curBit + n)

/-- How many bytes lie from the cursor's byte to the end of the buffer's valid part (spec/10_state.md R34). -/
def bytesAhead (s : State) : Nat := s.ibufLen.toNat - s.curByte.toNat

/-- The bytes from the cursor's byte on that the engine can read: to IBUF_LEN, or to the first unwritten one. -/
def bytesAtCursor (s : State) : List Byte := s.ibuf.slice s.curByte.toNat (bytesAhead s)

/-- The bits the engine can read from the cursor on, in the order read: bit 7 of a byte first, the bits already
consumed of the first byte left out (spec/20_memory.md R81; spec/10_state.md R33). -/
def streamBits (s : State) : List Bool :=
  ((bytesAtCursor s).flatMap (fun b => natBits 8 b.toNat)).drop s.curBit.toNat

/-- Why the bits at the cursor end: at IBUF_LEN (spec/20_memory.md R84), or at a byte that nothing has written
(spec/10_state.md R64). -/
inductive StreamEnd where
  | bufferEnd
  | unwrittenByte
  deriving DecidableEq, Repr

/-- Which of the two ends the bits at the cursor. -/
def streamEnd (s : State) : StreamEnd :=
  if (bytesAtCursor s).length < bytesAhead s then .unwrittenByte else .bufferEnd

/-! ## Registers, as the host sees them -/

/-- A host read of a register (spec/10_state.md R32, R38, R44, R45, R55, R56; spec/44_host_commands.md R262). -/
def readReg (s : State) (r : Nat) : ReadValue :=
  match r with
  | 1 => .word (statusWord s)
  | 2 => .word s.ibufLen
  | 3 => .word s.curByte
  | 4 => .word (s.curBit.setWidth 32)
  | 5 => .word s.blocksize
  | 6 => .word s.samplesize
  | 7 => .word s.crcStart
  | 8 => .word s.crcEnd
  | 9 => .word (s.crcCalc.setWidth 32)
  | 10 => .word (s.crcExpect.setWidth 32)
  | 11 => .word (s.sfType.setWidth 32)
  | 12 => .word s.sfKind
  | 13 => .word s.sfOrder
  | 14 => .word s.sfWasted
  | 15 => .word s.sfWidth
  | 16 => .word s.sfBlocksize
  | 17 => .word s.lpcPrec
  | 18 => .word s.lpcShift
  | 19 => .word s.resMethod
  | 20 => .word s.resPorder
  | 21 => .long s.sfConst
  | _ => .word 0

/-- A host write of a register other than CMD: RW registers store the value, CUR_BIT its bits [2:0]; the rest ignore it
(spec/10_state.md R55, R56; spec/44_host_commands.md R261). -/
def writeReg (s : State) (r : Nat) (v : Word) : State :=
  match r with
  | 2 => { s with ibufLen := v }
  | 3 => { s with curByte := v }
  | 4 => { s with curBit := v.setWidth 3 }
  | 5 => { s with blocksize := v }
  | 6 => { s with samplesize := v }
  | 7 => { s with crcStart := v }
  | 8 => { s with crcEnd := v }
  | _ => s

/-- The depth of a host-readable space (spec/20_memory.md R80). -/
def bufDepth : BufName → Nat
  | .ibuf => Config.ibufBytes
  | .warm => 32
  | .coef => 32
  | .resbuf => Config.maxBlock
  | .obuf => Config.maxBlock

/-- An element of a host-readable space; none where nothing has written it (spec/44_host_commands.md R264). -/
def readElement (s : State) : BufName → Nat → Option ReadValue
  | .ibuf, i => (s.ibuf.read i).map .byte
  | .warm, i => some (.long (s.warm.getD i 0))
  | .coef, i => some (.word (s.coef.getD i 0))
  | .resbuf, i => (s.resbuf.read i).map .long
  | .obuf, i => (s.obuf.read i).map .long

/-- The host did something the model gives no meaning: REFUSED is set, and the action does nothing else
(spec/10_state.md R62; spec/44_host_commands.md R271). Log entry 9. -/
def refuse (s : State) : State := { s with refused := true }

/-! ## Faults -/

/-- Fault entry (spec/60_exceptions.md R305). The running command ends here. -/
def faultEntry (e : ErrorCode) (s : State) : State :=
  { s with
    blockState := .fault
    errcode := errorByte e
    sfValid := false
    crcValid := false
    crcOk := false
    pending := none
    parse := none }

/-- SOFT_RESET, the return from a fault (spec/44_host_commands.md R267; spec/60_exceptions.md R308). It keeps every other
register (R267; spec/70_reset_and_hazards.md R343), SF_KIND among them: DEDUCED, log entry 12. -/
def softReset (s : State) : State :=
  { s with
    blockState := .idle
    errcode := 0
    sfValid := false
    crcValid := false
    crcOk := false }

/-- A free value of a 32-bit register. -/
def freeRegister (d r : Nat) : Word := (Config.free d (.register r)).setWidth 32

/-- A register file of free values. -/
def freeFile (w d : Nat) (slot : Nat → FreeSlot) : Vector (BitVec w) 32 :=
  ⟨⟨(List.range 32).map (fun i => (Config.free d (slot i)).setWidth w)⟩, by simp⟩

/-- n free values for the first elements of a buffer. -/
def freeRun (d : Nat) (slot : Nat → FreeSlot) (n : Nat) : List Long :=
  (List.range n).map (fun i => Config.free d (slot i))

/-- The bit address a PARSE_SUBFRAME began at. -/
def entryAddress (s : State) : Nat :=
  match s.parse with
  | some p => bitAddress p.entryByte p.entryBit
  | none => bitAddress s.curByte s.curBit

/-- A free bit address between the entry cursor and the end of IBUF (spec/60_exceptions.md R306); the entry cursor where
it lies past the end already. Log entry 6. -/
def freeCursor (s : State) : Nat :=
  entryAddress s + (Config.free s.draws .cursor).toNat % (8 * s.ibufLen.toNat - entryAddress s + 1)

/-- A fault of PARSE_SUBFRAME: fault entry, and free values in the elements of spec/60_exceptions.md R306. Log entries 5
and 6. -/
def parseFault (e : ErrorCode) (s : State) : State :=
  faultEntry e
    { setCursor s (freeCursor s) with
      sfType := (Config.free s.draws (.register 11)).setWidth 7
      sfKind := freeRegister s.draws 12
      sfOrder := freeRegister s.draws 13
      sfWasted := freeRegister s.draws 14
      sfWidth := freeRegister s.draws 15
      sfBlocksize := freeRegister s.draws 16
      lpcPrec := freeRegister s.draws 17
      lpcShift := freeRegister s.draws 18
      resMethod := freeRegister s.draws 19
      resPorder := freeRegister s.draws 20
      sfConst := Config.free s.draws (.register 21)
      warm := freeFile 64 s.draws .warm
      coef := freeFile 32 s.draws .coef
      resbuf := s.resbuf.writeRun 0 (freeRun s.draws .resbuf (min s.blocksize.toNat Config.maxBlock))
      draws := s.draws + 1 }

/-- A fault of RECONSTRUCT: fault entry, and free values in OBUF[0] to OBUF[SF_BLOCKSIZE - 1] (spec/60_exceptions.md
R306). Log entries 5 and 7. -/
def reconstructFault (e : ErrorCode) (s : State) : State :=
  faultEntry e
    { s with
      obuf := s.obuf.writeRun 0 (freeRun s.draws .obuf (min s.sfBlocksize.toNat Config.maxBlock))
      draws := s.draws + 1 }

/-- A fault of VERIFY_CRC16: fault entry, and free values in CRC_CALC and CRC_EXPECT (spec/60_exceptions.md R306).
Log entries 5 and 7. -/
def verifyFault (e : ErrorCode) (s : State) : State :=
  faultEntry e
    { s with
      crcCalc := (Config.free s.draws (.register 9)).setWidth 16
      crcExpect := (Config.free s.draws (.register 10)).setWidth 16
      draws := s.draws + 1 }

/-- The end of a command without error (spec/44_host_commands.md R269). PENDING is undefined from here (spec/10_state.md
R62). -/
def finish (s : State) : State :=
  { s with blockState := .done, pending := none, parse := none }

/-- Reset, the host action (spec/70_reset_and_hazards.md R340 to R342): REFUSED is left, and so are the model's own
fields that belong to the host (log entry 22). -/
def hardReset (s : State) : State :=
  { State.reset with
    refused := s.refused
    host := s.host
    turns := s.turns
    readData := s.readData
    draws := s.draws }

end Sys2Proof.Machine
end

