-- ==== Sys2Proof/Machine/Operands.lean ====
section
/-! DEFINITION. Operands: every form in which the engine reads a field of the stream (spec/20_memory.md R84 to R88;
spec/41_residual_rice.md R187, R188), and running one stream element. A field reader takes the bits at hand and answers
the field's value with the rest, or stops. -/

namespace Sys2Proof.Machine

/-- Why a field reader stops: the bits ran out, or an error is raised. -/
inductive Stop where
  | short
  | raise (e : ErrorCode)
  deriving DecidableEq, Repr

/-- What a field reader answers. -/
abbrev Reading (α : Type) := Except Stop (α × List Bool)

/-- ReadBits(n) (spec/20_memory.md R84). -/
def bitsField (n : Nat) (bits : List Bool) : Reading Nat :=
  match readBits n bits with
  | some r => .ok r
  | none => .error .short

/-- ReadSigned(n) (spec/20_memory.md R86). -/
def signedField (n : Nat) (bits : List Bool) : Reading Int :=
  if n = 0 then .ok (0, bits)
  else
    match bitsField n bits with
    | .ok (v, rest) => .ok (sext n v, rest)
    | .error stop => .error stop

/-- ReadUnary() (spec/20_memory.md R87). -/
def unaryField (bits : List Bool) : Reading Nat :=
  match readUnary bits with
  | some r => .ok r
  | none => .error .short

/-- n fields one after another. -/
def readMany {α : Type} (field : List Bool → Reading α) : Nat → List Bool → Reading (List α)
  | 0, bits => .ok ([], bits)
  | n + 1, bits =>
    match field bits with
    | .error stop => .error stop
    | .ok (v, rest) =>
      match readMany field n rest with
      | .error stop => .error stop
      | .ok (vs, rest) => .ok (v :: vs, rest)

/-- ReadWasted after WFLAG (spec/40_subframe.md R153; spec/30_encoding.md R114). -/
def wastedField (bias : Nat) (wflag : Bool) (bits : List Bool) : Reading Nat :=
  if wflag then
    match unaryField bits with
    | .ok (z, rest) => .ok (z + bias, rest)
    | .error stop => .error stop
  else .ok (0, bits)

/-- ZigZag(u) (spec/41_residual_rice.md R188). -/
def zigZag (u : Nat) : Int :=
  if u % 2 = 0 then (u / 2 : Nat) else -((u / 2 : Nat) : Int) - 1

/-- RiceCodeword(k) (spec/41_residual_rice.md R187): the overflow is judged after the whole codeword. -/
def riceField (k : Nat) (bits : List Bool) : Reading Int :=
  match unaryField bits with
  | .error stop => .error stop
  | .ok (q, rest) =>
    match bitsField k rest with
    | .error stop => .error stop
    | .ok (r, rest) =>
      if q * 2 ^ k + r < 2 ^ 32 then .ok (zigZag (q * 2 ^ k + r), rest)
      else .error (.raise .residualOverflow)

/-- A big-endian value of whole bytes, the first most significant (spec/20_memory.md R82, R88). -/
def bigEndian : List Byte → Nat
  | [] => 0
  | b :: bs => b.toNat * 256 ^ bs.length + bigEndian bs

/-- What stops a step when the bits at the cursor run out: TruncatedStreamError at IBUF_LEN (spec/20_memory.md R84), the
model fault UnwrittenRead at an unwritten byte (spec/10_state.md R64). -/
def streamExhausted (s : State) : Host.Outcome State Fault Refusal :=
  match streamEnd s with
  | .bufferEnd => .next (parseFault .truncatedStream s)
  | .unwrittenByte => .fault (.unwrittenRead .ibuf)

/-- The end of a stream element whose reader stopped. -/
def elementStopped (stop : Stop) (s : State) : Host.Outcome State Fault Refusal :=
  match stop with
  | .short => streamExhausted s
  | .raise e => .next (parseFault e s)

/-- Reads an element's fields at the cursor, moves the cursor past them and applies the element's effect. -/
def runElementWith {α : Type} (s : State) (read : List Bool → Reading α) (effect : α → State → State) :
    Host.Outcome State Fault Refusal :=
  match read (streamBits s) with
  | .ok (v, rest) => .next (effect v (advance s ((streamBits s).length - rest.length)))
  | .error stop => elementStopped stop s

end Sys2Proof.Machine
end

