-- ==== Sys2Proof/Machine/Crc.lean ====
section
/-! DEFINITION. Crc: CRC-16 and VERIFY_CRC16 (spec/43_crc16.md R240 to R247). -/

namespace Sys2Proof.Machine

/-- One bit of Crc16Byte's loop (spec/43_crc16.md R241). -/
def crcShift (crc : BitVec 16) : BitVec 16 :=
  if crc.msb then (crc <<< 1) ^^^ 0x8005#16 else crc <<< 1

/-- n turns of that loop. -/
def crcShifts : Nat → BitVec 16 → BitVec 16
  | 0, crc => crc
  | n + 1, crc => crcShifts n (crcShift crc)

/-- Crc16Byte(crc, b) (spec/43_crc16.md R241). -/
def crcByte (crc : BitVec 16) (b : Byte) : BitVec 16 :=
  crcShifts 8 (crc ^^^ (b.setWidth 16 <<< 8))

/-- CRC-16 of a span, from the initial value 0 and with no final exclusive-or (spec/43_crc16.md R242). -/
def crc16 (bytes : List Byte) : BitVec 16 :=
  bytes.foldl crcByte 0

/-- VERIFY_CRC16 past its IBUF_LEN check (spec/43_crc16.md R240). -/
def verifySpan (s : State) : Host.Outcome State Fault Refusal :=
  if s.crcEnd.toNat < s.crcStart.toNat then .next (verifyFault .invalidConfig s)
  else if s.ibufLen.toNat < s.crcEnd.toNat + 2 then .next (verifyFault .truncatedStream s)
  else if (s.ibuf.slice s.crcStart.toNat (s.crcEnd.toNat - s.crcStart.toNat + 2)).length
      < s.crcEnd.toNat - s.crcStart.toNat + 2 then .fault (.unwrittenRead .ibuf)
  else
    .next (finish
      { s with
        crcCalc := crc16 (s.ibuf.slice s.crcStart.toNat (s.crcEnd.toNat - s.crcStart.toNat))
        crcExpect := BitVec.ofNat 16 (bigEndian (s.ibuf.slice s.crcEnd.toNat 2))
        crcOk := crcOkFlag (crc16 (s.ibuf.slice s.crcStart.toNat (s.crcEnd.toNat - s.crcStart.toNat)))
          (BitVec.ofNat 16 (bigEndian (s.ibuf.slice s.crcEnd.toNat 2)))
        crcValid := true })

/-- VERIFY_CRC16 to its end (spec/43_crc16.md R240). -/
def runVerify (s : State) : Host.Outcome State Fault Refusal :=
  if Config.ibufBytes < s.ibufLen.toNat then .next (verifyFault .invalidConfig s) else verifySpan s

end Sys2Proof.Machine
end

