-- ==== Sys2Proof/Machine/Subframe.lean ====
section
/-! DEFINITION. Subframe: the subframe forms of PARSE_SUBFRAME (spec/40_subframe.md R151 to R166). The meaning of a form
runs with the cursor past its 8-bit header. A form with a residual leaves the engine at the residual header. -/

namespace Sys2Proof.Machine

/-- Commit (spec/40_subframe.md R166) and the end of the command (R150). -/
def commit (f : Subframe) (method porder : Nat) (sample : Int) (s : State) : State :=
  finish
    { s with
      sfType := BitVec.ofBool f.wflag ++ f.typ
      sfKind := kindCode f.kind
      sfOrder := BitVec.ofNat 32 f.order
      sfWasted := BitVec.ofNat 32 f.wasted
      sfWidth := BitVec.ofNat 32 f.width
      sfBlocksize := BitVec.ofNat 32 f.blocksize
      lpcPrec := BitVec.ofNat 32 f.prec
      lpcShift := BitVec.ofNat 32 f.shift
      resMethod := BitVec.ofNat 32 method
      resPorder := BitVec.ofNat 32 porder
      sfConst := BitVec.ofInt 64 sample
      sfValid := true }

/-- The engine stands at a subframe header. -/
def atHeader (s : State) : Bool :=
  match s.parse with
  | some ⟨_, _, .header⟩ => true
  | _ => false

/-- The engine goes on to another element of the running command. -/
def moveTo (phase : ParsePhase) (s : State) : State :=
  { s with parse := s.parse.map (fun p => { p with phase := phase }) }

/-- The part every form shares: the order against the block size (spec/40_subframe.md R152), ReadWasted (R153) and
EffectiveWidth (R154). It answers the wasted bits and the width. -/
def readHead (s : State) (order : Nat) (wflag : Bool) (bits : List Bool) : Reading (Nat × Nat) :=
  if s.blocksize.toNat < order then .error (.raise .invalidOrder)
  else
    match wastedField Config.wastedBias wflag bits with
    | .error stop => .error stop
    | .ok (w, rest) =>
      if s.samplesize.toNat < w + 1 then .error (.raise .invalidWidth)
      else .ok ((w, s.samplesize.toNat - w), rest)

/-- The header values of a form, to be committed. -/
def headOf (s : State) (typ : BitVec 6) (wflag : Bool) (kind : Kind) (order : Nat) (head : Nat × Nat) : Subframe where
  typ := typ
  wflag := wflag
  kind := kind
  order := order
  wasted := head.1
  width := head.2
  blocksize := s.blocksize.toNat
  prec := 0
  shift := 0

/-- `WARM[0..31] <- 0; COEF[0..31] <- 0` (spec/40_subframe.md R150) and then a form's warm-up samples and coefficients. -/
def loadFiles (warm coef : List Int) (s : State) : State :=
  { s with warm := fileOf 64 warm, coef := fileOf 32 coef }

/-- The CONSTANT body (spec/40_subframe.md R155). -/
def readConstant (s : State) (wflag : Bool) (bits : List Bool) : Reading (Subframe × Int) :=
  match readHead s 0 wflag bits with
  | .error stop => .error stop
  | .ok (head, rest) =>
    match signedField head.2 rest with
    | .error stop => .error stop
    | .ok (c, rest) => .ok ((headOf s 0 wflag .constant 0 head, c), rest)

/-- SF_CONSTANT (spec/40_subframe.md R155). -/
def execSfConstant (wflag : Bool) (s : State) : Host.Outcome State Fault Refusal :=
  if atHeader s then
    runElementWith s (readConstant s wflag) (fun v t => commit v.1 0 0 v.2 (loadFiles [] [] t))
  else .refused .elementOutOfPlace

/-- The VERBATIM body (spec/40_subframe.md R156). -/
def readVerbatim (s : State) (wflag : Bool) (bits : List Bool) : Reading (Subframe × List Int) :=
  match readHead s 0 wflag bits with
  | .error stop => .error stop
  | .ok (head, rest) =>
    match readMany (signedField head.2) s.blocksize.toNat rest with
    | .error stop => .error stop
    | .ok (vs, rest) => .ok ((headOf s 1 wflag .verbatim 0 head, vs), rest)

/-- RESBUF elements from index `i` on. -/
def storeResiduals (i : Nat) (vs : List Int) (s : State) : State :=
  { s with resbuf := s.resbuf.writeRun i (vs.map (BitVec.ofInt 64)) }

/-- SF_VERBATIM (spec/40_subframe.md R156). -/
def execSfVerbatim (wflag : Bool) (s : State) : Host.Outcome State Fault Refusal :=
  if atHeader s then
    runElementWith s (readVerbatim s wflag)
      (fun v t => commit v.1 0 0 0 (storeResiduals 0 v.2 (loadFiles [] [] t)))
  else .refused .elementOutOfPlace

/-- The FIXED body up to the residual (spec/40_subframe.md R157 to R161). -/
def readFixed (s : State) (order : Nat) (wflag : Bool) (bits : List Bool) : Reading (Subframe × List Int) :=
  match readHead s order wflag bits with
  | .error stop => .error stop
  | .ok (head, rest) =>
    match readMany (signedField head.2) order rest with
    | .error stop => .error stop
    | .ok (vs, rest) => .ok ((headOf s (BitVec.ofNat 6 (8 + order)) wflag .fixed order head, vs), rest)

/-- A FIXED form of an order: the warm-up samples, and on to the residual (spec/40_subframe.md R157 to R161). -/
def fixedForm (order : Nat) (wflag : Bool) (s : State) : Host.Outcome State Fault Refusal :=
  if atHeader s then
    runElementWith s (readFixed s order wflag) (fun v t => moveTo (.residual v.1) (loadFiles v.2 [] t))
  else .refused .elementOutOfPlace

/-- SF_FIXED0 (spec/40_subframe.md R157). -/
def execSfFixed0 (wflag : Bool) (s : State) : Host.Outcome State Fault Refusal := fixedForm 0 wflag s

/-- SF_FIXED1 (spec/40_subframe.md R158). -/
def execSfFixed1 (wflag : Bool) (s : State) : Host.Outcome State Fault Refusal := fixedForm 1 wflag s

/-- SF_FIXED2 (spec/40_subframe.md R159). -/
def execSfFixed2 (wflag : Bool) (s : State) : Host.Outcome State Fault Refusal := fixedForm 2 wflag s

/-- SF_FIXED3 (spec/40_subframe.md R160). -/
def execSfFixed3 (wflag : Bool) (s : State) : Host.Outcome State Fault Refusal := fixedForm 3 wflag s

/-- SF_FIXED4 (spec/40_subframe.md R161). -/
def execSfFixed4 (wflag : Bool) (s : State) : Host.Outcome State Fault Refusal := fixedForm 4 wflag s

/-- ReadPrecision (spec/40_subframe.md R163). -/
def precisionField (bits : List Bool) : Reading Nat :=
  match bitsField 4 bits with
  | .error stop => .error stop
  | .ok (p, rest) => if p = 15 then .error (.raise .invalidCoefficientPrecision) else .ok (p + 1, rest)

/-- ReadShift (spec/40_subframe.md R164). -/
def shiftField (bits : List Bool) : Reading Nat :=
  match signedField 5 bits with
  | .error stop => .error stop
  | .ok (sh, rest) => if sh < 0 then .error (.raise .invalidShift) else .ok (sh.toNat, rest)

/-- What the LPC body holds before the residual. -/
structure LpcBody where
  head : Subframe
  warm : List Int
  coef : List Int
  deriving DecidableEq, Repr

/-- The LPC body up to the residual (spec/40_subframe.md R162 to R165). -/
def readLpc (s : State) (order : Nat) (wflag : Bool) (bits : List Bool) : Reading LpcBody :=
  match readHead s order wflag bits with
  | .error stop => .error stop
  | .ok (head, rest) =>
    match readMany (signedField head.2) order rest with
    | .error stop => .error stop
    | .ok (warm, rest) =>
      match precisionField rest with
      | .error stop => .error stop
      | .ok (prec, rest) =>
        match shiftField rest with
        | .error stop => .error stop
        | .ok (shift, rest) =>
          match readMany (signedField prec) order rest with
          | .error stop => .error stop
          | .ok (coef, rest) =>
            .ok (⟨{ headOf s (BitVec.ofNat 6 (31 + order)) wflag .lpc order head with prec := prec, shift := shift },
              warm, coef⟩, rest)

/-- SF_LPC (spec/40_subframe.md R162). -/
def execSfLpc (orderLessOne : BitVec 5) (wflag : Bool) (s : State) : Host.Outcome State Fault Refusal :=
  if atHeader s then
    runElementWith s (readLpc s (orderLessOne.toNat + 1) wflag)
      (fun v t => moveTo (.residual v.head) (loadFiles v.warm v.coef t))
  else .refused .elementOutOfPlace

end Sys2Proof.Machine
end

