-- ==== Sys2Proof/Machine/Rice.lean ====
section
/-! DEFINITION. Rice: the residual headers and the partition forms (spec/41_residual_rice.md R180 to R192). A residual
header's meaning leaves the engine at the first partition header; a partition's leaves it at the next, or commits the
subframe after the last. -/

namespace Sys2Proof.Machine

/-- The residuals of one partition, but for the first's (spec/41_residual_rice.md R185). -/
def perPartition (f : Subframe) (porder : BitVec 4) : Nat := f.blocksize / 2 ^ porder.toNat

/-- DecodeResidual from its header to the first partition (spec/41_residual_rice.md R180, R184, R185). -/
def residualForm (method : BitVec 1) (porder : BitVec 4) (s : State) : Host.Outcome State Fault Refusal :=
  match s.parse with
  | some ⟨_, _, .residual f⟩ =>
    if f.blocksize % 2 ^ porder.toNat ≠ 0 then .next (parseFault .partitionAlignment s)
    else if perPartition f porder < f.order then .next (parseFault .residualCount s)
    else .next (moveTo (.partition f ⟨method, porder, 0, 0⟩) s)
  | _ => .refused .elementOutOfPlace

/-- RES_RICE4 (spec/41_residual_rice.md R181). -/
def execResRice4 (porder : BitVec 4) (s : State) : Host.Outcome State Fault Refusal := residualForm 0 porder s

/-- RES_RICE5 (spec/41_residual_rice.md R182). -/
def execResRice5 (porder : BitVec 4) (s : State) : Host.Outcome State Fault Refusal := residualForm 1 porder s

/-- The residual count of the partition the engine stands at (spec/41_residual_rice.md R185). -/
def partitionCount (f : Subframe) (r : Residual) : Nat :=
  if r.part = 0 then perPartition f r.porder - f.order else perPartition f r.porder

/-- After a partition's residuals: store them, and go on to the next partition, or commit (spec/41_residual_rice.md R180;
spec/40_subframe.md R166). -/
def closePartition (f : Subframe) (r : Residual) (vs : List Int) (s : State) : State :=
  if r.part + 1 < 2 ^ r.porder.toNat then
    moveTo (.partition f { r with part := r.part + 1, idx := r.idx + vs.length }) (storeResiduals r.idx vs s)
  else commit f r.method.toNat r.porder.toNat 0 (storeResiduals r.idx vs s)

/-- A partition of a method, whose residuals a field reader reads one by one (spec/41_residual_rice.md R186, R189). -/
def partitionForm (method : BitVec 1) (field : List Bool → Reading Int) (s : State) :
    Host.Outcome State Fault Refusal :=
  match s.parse with
  | some ⟨_, _, .partition f r⟩ =>
    if r.method = method then runElementWith s (readMany field (partitionCount f r)) (closePartition f r)
    else .refused .elementOutOfPlace
  | _ => .refused .elementOutOfPlace

/-- PART_RICE4 (spec/41_residual_rice.md R186). -/
def execPartRice4 (k : BitVec 4) (s : State) : Host.Outcome State Fault Refusal :=
  partitionForm 0 (riceField k.toNat) s

/-- PART_RICE5 (spec/41_residual_rice.md R186). -/
def execPartRice5 (k : BitVec 5) (s : State) : Host.Outcome State Fault Refusal :=
  partitionForm 1 (riceField k.toNat) s

/-- PART_ESC4 (spec/41_residual_rice.md R189). -/
def execPartEsc4 (width : BitVec 5) (s : State) : Host.Outcome State Fault Refusal :=
  partitionForm 0 (signedField width.toNat) s

/-- PART_ESC5 (spec/41_residual_rice.md R190). -/
def execPartEsc5 (width : BitVec 5) (s : State) : Host.Outcome State Fault Refusal :=
  partitionForm 1 (signedField width.toNat) s

end Sys2Proof.Machine
end

