-- ==== Sys2Proof/Machine/Parse.lean ====
section
/-! DEFINITION. Parse: fetching the stream element at the cursor and running PARSE_SUBFRAME (spec/40_subframe.md R150). -/

namespace Sys2Proof.Machine

/-- The slot of the element a running PARSE_SUBFRAME reads next. -/
def slotAt : ParsePhase → Slot
  | .header => .header
  | .residual _ => .residual
  | .partition _ r => if r.method = 0 then .partition4 else .partition5

/-- The meaning of a decoded stream element. A command word is none. -/
def execElement (i : Instr) (s : State) : Host.Outcome State Fault Refusal :=
  match i with
  | .sfConstant w => execSfConstant w s
  | .sfVerbatim w => execSfVerbatim w s
  | .sfFixed0 w => execSfFixed0 w s
  | .sfFixed1 w => execSfFixed1 w s
  | .sfFixed2 w => execSfFixed2 w s
  | .sfFixed3 w => execSfFixed3 w s
  | .sfFixed4 w => execSfFixed4 w s
  | .sfLpc o w => execSfLpc o w s
  | .resRice4 p => execResRice4 p s
  | .resRice5 p => execResRice5 p s
  | .partEsc4 n => execPartEsc4 n s
  | .partRice4 k => execPartRice4 k s
  | .partEsc5 n => execPartEsc5 n s
  | .partRice5 k => execPartRice5 k s
  | .cmdNop => .refused .elementOutOfPlace
  | .cmdParseSubframe => .refused .elementOutOfPlace
  | .cmdReconstruct => .refused .elementOutOfPlace
  | .cmdVerifyCrc16 => .refused .elementOutOfPlace
  | .cmdSoftReset => .refused .elementOutOfPlace

/-- A stream element that does not decode: the error of its first bad field, in stream order (spec/60_exceptions.md R304).
The order is judged before WFLAG is read (spec/40_subframe.md R152), so it is judged for a header that ends there. -/
def elementRejected (e : DecodeError) (s : State) : Host.Outcome State Fault Refusal :=
  match e with
  | .truncated => streamExhausted s
  | .flagMissing form =>
    if s.blocksize.toNat < predictorOrder form then .next (parseFault .invalidOrder s) else streamExhausted s
  | .subframePadding => .next (parseFault .subframePadding s)
  | .invalidCode => .next (parseFault .invalidCode s)
  | .invalidCommand => .refused .elementOutOfPlace

/-- Fetches the element at the cursor, moves the cursor past its header and runs it. -/
def fetchElement (p : ParseRun) (s : State) : Host.Outcome State Fault Refusal :=
  match decode (slotAt p.phase) (streamBits s) with
  | .ok (i, rest) => execElement i (advance s ((streamBits s).length - rest.length))
  | .error e => elementRejected e s

/-- The entry checks of PARSE_SUBFRAME, all of which raise InvalidConfigError (spec/40_subframe.md R150; the order of
spec/60_exceptions.md R304 makes no difference to the code). -/
def parseConfigLegal (s : State) : Bool :=
  s.ibufLen.toNat ≤ Config.ibufBytes
    && (1 ≤ s.blocksize.toNat && s.blocksize.toNat ≤ Config.maxBlock)
    && (1 ≤ s.samplesize.toNat && s.samplesize.toNat ≤ Config.maxSampleSize)
    && s.curByte.toNat ≤ s.ibufLen.toNat

/-- Past the entry checks: SF_VALID is 0, and the engine stands at a subframe header (spec/40_subframe.md R150). -/
def startParse (s : State) : State :=
  { s with sfValid := false, parse := some ⟨s.curByte, s.curBit, .header⟩ }

/-- One piece of a running PARSE_SUBFRAME: its entry, or one stream element. -/
def parsePiece (s : State) : Host.Outcome State Fault Refusal :=
  match s.parse with
  | none => if parseConfigLegal s then .next (startParse s) else .next (parseFault .invalidConfig s)
  | some p => fetchElement p s

/-- Pieces of PARSE_SUBFRAME, at most n, until the command ends. -/
def runPieces (n : Nat) (s : State) : Host.Outcome State Fault Refusal :=
  match n with
  | 0 => .fault .engineOverrun
  | n + 1 =>
    match parsePiece s with
    | .next t => if t.blockState = .busy then runPieces n t else .next t
    | .fault r => .fault r
    | .refused r => .refused r

/-- The most pieces a PARSE_SUBFRAME has: the entry, two headers and 2^15 partitions (spec/44_host_commands.md R270). -/
def maxPieces : Nat := 32771

/-- PARSE_SUBFRAME to its end (spec/40_subframe.md R150; spec/44_host_commands.md R269). -/
def runParse (s : State) : Host.Outcome State Fault Refusal := runPieces maxPieces s

end Sys2Proof.Machine
end

