-- ==== Sys2Proof/Machine/Reconstruct.lean ====
section
/-! DEFINITION. Reconstruct: the predictors and RECONSTRUCT (spec/42_reconstruct.md R210 to R224). -/

namespace Sys2Proof.Machine

/-- The values `check64` passes (spec/00_scope.md R20). -/
def fits64 (v : Int) : Bool := -2 ^ 63 ≤ v ∧ v < 2 ^ 63

/-- The fixed coefficient sets, the most recent sample's first (spec/42_reconstruct.md R213). -/
def fixedCoefficients (order : Nat) : List Int :=
  match order with
  | 0 => []
  | 1 => [1]
  | 2 => [2, -1]
  | 3 => [3, -3, 1]
  | _ => [4, -6, 4, -1]

/-- The predictor's sum, over the samples so far, newest first (spec/42_reconstruct.md R219, R220). -/
def predict (coefs history : List Int) : Int :=
  (List.zipWith (· * ·) coefs history).sum

/-- The next sample from its residual, or none where `acc` or the sample leaves 64 bits (spec/42_reconstruct.md R219,
R221). -/
def nextSample (coefs : List Int) (shift : Nat) (history : List Int) (r : Int) : Option Int :=
  if fits64 (predict coefs history) && fits64 (predict coefs history / 2 ^ shift + r) then
    some (predict coefs history / 2 ^ shift + r)
  else none

/-- The samples after the warm-up, newest first, on top of the history (spec/42_reconstruct.md R219). -/
def predictAll (coefs : List Int) (shift : Nat) : List Int → List Int → Option (List Int)
  | history, [] => some history
  | history, r :: rs =>
    match nextSample coefs shift history r with
    | some v => predictAll coefs shift (v :: history) rs
    | none => none

/-- Why the samples are not there. -/
inductive SampleStop where
  | overflow
  | unwritten
  deriving DecidableEq, Repr

/-- The samples of a predicted subframe: warm-up, then one for each residual. An unwritten residual stops the command
where it is read, so an overflow before it comes first, that of its own sample's `acc` too (spec/42_reconstruct.md R219;
spec/60_exceptions.md R304; spec/10_state.md R64). -/
def predicted (coefs : List Int) (shift : Nat) (warm residuals : List Int) (count : Nat) :
    Except SampleStop (List Int) :=
  match predictAll coefs shift warm.reverse residuals with
  | none => .error .overflow
  | some newestFirst =>
    if count ≤ residuals.length then .ok newestFirst.reverse
    else if fits64 (predict coefs newestFirst) then .error .unwritten
    else .error .overflow

/-- RESBUF's first n elements as signed values, or the written ones of them before the first unwritten one. -/
def residualsHeld (s : State) (n : Nat) : List Int :=
  (s.resbuf.slice 0 n).map BitVec.toInt

/-- The unshifted samples `s[0..B-1]` (spec/42_reconstruct.md R211, R212, R214 to R219). -/
def unshifted (s : State) (kind : Kind) : Except SampleStop (List Int) :=
  match kind with
  | .constant => .ok (List.replicate s.sfBlocksize.toNat s.sfConst.toInt)
  | .verbatim =>
    if (residualsHeld s s.sfBlocksize.toNat).length < s.sfBlocksize.toNat then .error .unwritten
    else .ok (residualsHeld s s.sfBlocksize.toNat)
  | .fixed =>
    predicted (fixedCoefficients s.sfOrder.toNat) 0 (fileTake s.warm s.sfOrder.toNat)
      (residualsHeld s (s.sfBlocksize.toNat - s.sfOrder.toNat)) (s.sfBlocksize.toNat - s.sfOrder.toNat)
  | .lpc =>
    predicted (fileTake s.coef s.sfOrder.toNat) s.lpcShift.toNat (fileTake s.warm s.sfOrder.toNat)
      (residualsHeld s (s.sfBlocksize.toNat - s.sfOrder.toNat)) (s.sfBlocksize.toNat - s.sfOrder.toNat)

/-- The wasted-bits restore of every sample, or none where one leaves 64 bits (spec/42_reconstruct.md R222). -/
def restoreWasted (wasted : Nat) (samples : List Int) : Option (List Int) :=
  if samples.all (fun v => fits64 (v * 2 ^ wasted)) then some (samples.map (fun v => v * 2 ^ wasted)) else none

/-- The kind of the held subframe, where its order and block size name elements that exist (spec/10_state.md R46, R47,
R50, R57, R58, R60). Log entry 15. -/
def heldKind (s : State) : Option Kind :=
  match kindOf s.sfKind with
  | none => none
  | some kind =>
    if s.sfBlocksize.toNat ≤ Config.maxBlock
      && (match kind with
          | .constant => true
          | .verbatim => true
          | .fixed => s.sfOrder.toNat ≤ 4 && s.sfOrder.toNat ≤ s.sfBlocksize.toNat
          | .lpc => s.sfOrder.toNat ≤ 32 && s.sfOrder.toNat ≤ s.sfBlocksize.toNat)
    then some kind else none

/-- RECONSTRUCT to its end (spec/42_reconstruct.md R210). -/
def runReconstruct (s : State) : Host.Outcome State Fault Refusal :=
  if !s.sfValid then .next (reconstructFault .noSubframe s)
  else
    match heldKind s with
    | none => .fault .heldSubframeMalformed
    | some kind =>
      match unshifted s kind with
      | .error .unwritten => .fault (.unwrittenRead .resbuf)
      | .error .overflow => .next (reconstructFault .arithmeticOverflow s)
      | .ok samples =>
        match restoreWasted s.sfWasted.toNat samples with
        | none => .next (reconstructFault .arithmeticOverflow s)
        | some out => .next (finish { s with obuf := s.obuf.writeRun 0 (out.map (BitVec.ofInt 64)) })

end Sys2Proof.Machine
end

