-- ==== Sys2Proof/Machine/Command.lean ====
section
/-! DEFINITION. Command: the command words (spec/44_host_commands.md R265 to R269). PARSE_SUBFRAME, RECONSTRUCT and
VERIFY_CRC16 take two steps of the machine, and their meaning has the two parts: the host's CMD write accepts the
command, and, with the command accepted, the engine runs it to its end. Log entry 27. -/

namespace Sys2Proof.Machine

/-- A command word written while BUSY has no meaning; otherwise its effect (spec/44_host_commands.md R261, R271). -/
def whenNotBusy (s : State) (effect : State) : Host.Outcome State Fault Refusal :=
  if s.blockState = .busy then .next (refuse s) else .next effect

/-- Command acceptance of an engine command: in FAULT no effect, otherwise PENDING and BUSY (spec/44_host_commands.md
R265; spec/60_exceptions.md R308). -/
def acceptCommand (op : Op) (s : State) : State :=
  if s.blockState = .fault then s else { s with pending := some op, blockState := .busy }

/-- NOP (spec/44_host_commands.md R266). -/
def execCmdNop (s : State) : Host.Outcome State Fault Refusal := whenNotBusy s s

/-- SOFT_RESET (spec/44_host_commands.md R267). -/
def execCmdSoftReset (s : State) : Host.Outcome State Fault Refusal := whenNotBusy s (softReset s)

/-- PARSE_SUBFRAME (spec/40_subframe.md R150): the engine's run where it is the accepted command, else its acceptance. -/
def execCmdParseSubframe (s : State) : Host.Outcome State Fault Refusal :=
  if s.blockState = .busy ∧ s.pending = some .parse then runParse s else whenNotBusy s (acceptCommand .parse s)

/-- RECONSTRUCT (spec/42_reconstruct.md R210): the engine's run where it is the accepted command, else its acceptance. -/
def execCmdReconstruct (s : State) : Host.Outcome State Fault Refusal :=
  if s.blockState = .busy ∧ s.pending = some .reconstruct then runReconstruct s
  else whenNotBusy s (acceptCommand .reconstruct s)

/-- VERIFY_CRC16 (spec/43_crc16.md R240): the engine's run where it is the accepted command, else its acceptance. -/
def execCmdVerifyCrc16 (s : State) : Host.Outcome State Fault Refusal :=
  if s.blockState = .busy ∧ s.pending = some .verify then runVerify s
  else whenNotBusy s (acceptCommand .verify s)

end Sys2Proof.Machine
end

