-- ==== Sys2Proof/Machine/Dispatch.lean ====
section
/-! DEFINITION. Dispatch: each instruction's meaning. -/

namespace Sys2Proof.Machine

def exec (i : Instr) (s : State) : Host.Outcome State Fault Refusal :=
  match i with
  | .sfConstant w => Sys2Proof.Machine.execSfConstant w s
  | .sfVerbatim w => Sys2Proof.Machine.execSfVerbatim w s
  | .sfFixed0 w => Sys2Proof.Machine.execSfFixed0 w s
  | .sfFixed1 w => Sys2Proof.Machine.execSfFixed1 w s
  | .sfFixed2 w => Sys2Proof.Machine.execSfFixed2 w s
  | .sfFixed3 w => Sys2Proof.Machine.execSfFixed3 w s
  | .sfFixed4 w => Sys2Proof.Machine.execSfFixed4 w s
  | .sfLpc o w => Sys2Proof.Machine.execSfLpc o w s
  | .resRice4 p => Sys2Proof.Machine.execResRice4 p s
  | .resRice5 p => Sys2Proof.Machine.execResRice5 p s
  | .partEsc4 n => Sys2Proof.Machine.execPartEsc4 n s
  | .partRice4 k => Sys2Proof.Machine.execPartRice4 k s
  | .partEsc5 n => Sys2Proof.Machine.execPartEsc5 n s
  | .partRice5 k => Sys2Proof.Machine.execPartRice5 k s
  | .cmdNop => Sys2Proof.Machine.execCmdNop s
  | .cmdParseSubframe => Sys2Proof.Machine.execCmdParseSubframe s
  | .cmdReconstruct => Sys2Proof.Machine.execCmdReconstruct s
  | .cmdVerifyCrc16 => Sys2Proof.Machine.execCmdVerifyCrc16 s
  | .cmdSoftReset => Sys2Proof.Machine.execCmdSoftReset s

end Sys2Proof.Machine
end

