-- ==== Sys2Proof/Machine/Agents.lean ====
section
/-! DEFINITION. Agents: the host's actions and the engine's step (spec/44_host_commands.md R260 to R272;
spec/70_reset_and_hazards.md R340), and placing a word of the opcode table where the machine takes its next instruction. -/

namespace Sys2Proof.Machine

/-- A word written to CMD while not BUSY: decoded and, where it is a command, executed; a reserved word raises
InvalidCommandError, but in FAULT has no effect (spec/44_host_commands.md R265, R268; spec/60_exceptions.md R308). -/
def issueCommand (v : Word) (s : State) : Host.Outcome State Fault Refusal :=
  match decode .command (natBits 32 v.toNat) with
  | .ok (i, _) => exec i s
  | .error _ => .next (if s.blockState = .fault then s else faultEntry .invalidCommand s)

/-- A free value of the width of a register, for a read while BUSY; STATE reads BUSY in STATUS (spec/44_host_commands.md
R272). Log entry 8. -/
def busyRegister (s : State) (r : Nat) : ReadValue :=
  match r with
  | 1 => .word ((Config.free s.draws .hostRead).setWidth 32 &&& 0xFFFFFFFC#32 ||| 1#32)
  | 21 => .long (Config.free s.draws .hostRead)
  | _ => .word ((Config.free s.draws .hostRead).setWidth 32)

/-- A free value of the width of a buffer's element, for a read while BUSY (spec/44_host_commands.md R272). Log entry 8. -/
def busyElement (s : State) : BufName → ReadValue
  | .ibuf => .byte ((Config.free s.draws .hostRead).setWidth 8)
  | .warm => .long (Config.free s.draws .hostRead)
  | .coef => .word ((Config.free s.draws .hostRead).setWidth 32)
  | .resbuf => .long (Config.free s.draws .hostRead)
  | .obuf => .long (Config.free s.draws .hostRead)

/-- A host action while STATE = BUSY (spec/44_host_commands.md R271, R272; spec/70_reset_and_hazards.md R342). -/
def hostMoveBusy (a : HostAction) (s : State) : Host.Outcome State Fault Refusal :=
  match a with
  | .writeReg _ _ => .next (refuse s)
  | .writeIbuf _ _ => .next (refuse s)
  | .readReg r => .next { s with readData := some (busyRegister s r), draws := s.draws + 1 }
  | .readBuf x _ => .next { s with readData := some (busyElement s x), draws := s.draws + 1 }
  | .reset => .next (hardReset s)

/-- A host read of a buffer element while not BUSY (spec/44_host_commands.md R264). -/
def readBuffer (x : BufName) (i : Nat) (s : State) : Host.Outcome State Fault Refusal :=
  if i < bufDepth x then
    match readElement s x i with
    | some v => .next { s with readData := some v }
    | none => .fault (.unwrittenRead x)
  else .next (refuse s)

/-- A host action while STATE is not BUSY (spec/44_host_commands.md R261 to R264; spec/70_reset_and_hazards.md R340). -/
def hostMoveFree (a : HostAction) (s : State) : Host.Outcome State Fault Refusal :=
  match a with
  | .writeReg r v => if r = 0 then issueCommand v s else .next (writeReg s r v)
  | .readReg r => .next { s with readData := some (readReg s r) }
  | .writeIbuf i b =>
    if i < Config.ibufBytes then .next { s with ibuf := s.ibuf.write i b } else .next (refuse s)
  | .readBuf x i => readBuffer x i s
  | .reset => .next (hardReset s)

/-- The engine's step: the command PENDING names, to its end (spec/44_host_commands.md R269). -/
def engineMove (s : State) : Host.Outcome State Fault Refusal :=
  match s.pending with
  | some .parse => exec .cmdParseSubframe s
  | some .reconstruct => exec .cmdReconstruct s
  | some .verify => exec .cmdVerifyCrc16 s
  | none => .fault .pendingUndefined

/-- A part of the engine's step: one piece of a running PARSE_SUBFRAME. The other commands have one piece. Log entry 1. -/
def elementMove (s : State) : Host.Outcome State Fault Refusal :=
  match s.pending with
  | some .parse => parsePiece s
  | _ => engineMove s

/-- What happens next while STATE = BUSY: what the turn says, and with no turn left, the engine's step. A host turn of a
host with no action left is the engine's. Log entry 1. -/
def moveBusy (s : State) : Host.Outcome State Fault Refusal :=
  match s.turns with
  | [] => engineMove s
  | .element :: ts => elementMove { s with turns := ts }
  | .host :: ts =>
    match s.host with
    | [] => engineMove { s with turns := ts }
    | a :: rest => hostMoveBusy a { s with turns := ts, host := rest }

/-- What happens next while STATE is not BUSY: the engine has no step, so the host's next action (spec/44_host_commands.md
R269). With none left the run has ended (R277), and the block stays as it is (spec/60_exceptions.md R317). Log entry 2. -/
def moveFree (s : State) : Host.Outcome State Fault Refusal :=
  match s.host with
  | [] => .next s
  | a :: rest => hostMoveFree a { s with host := rest }

/-! ## The host's pseudo-instructions (spec/30_encoding.md R136), with the WAIT of R135 as one read of STATUS -/

/-- `DECODE`. -/
def decodeScript : List HostAction :=
  [.writeReg 0 1, .readReg 1, .writeReg 0 2, .readReg 1]

/-- `ALIGN`, for a host that read the cursor of the state given. -/
def alignScript (s : State) : List HostAction :=
  [.readReg 3, .readReg 4] ++ if s.curBit = 0 then [] else [.writeReg 3 (s.curByte + 1), .writeReg 4 0]

/-- `CHECKFRAME start`, for a host that read the cursor of the state given. -/
def checkFrameScript (start : Word) (s : State) : List HostAction :=
  alignScript s ++
    [.writeReg 7 start, .writeReg 8 (if s.curBit = 0 then s.curByte else s.curByte + 1), .writeReg 0 3, .readReg 1]

/-! ## Words of the opcode table, placed to be the next instruction. Log entry 19. -/

/-- Bits in the order read, eight to a byte, bit 7 first. -/
def packBits : List Bool → List Byte
  | b7 :: b6 :: b5 :: b4 :: b3 :: b2 :: b1 :: b0 :: rest =>
    (BitVec.ofBool b7 ++ BitVec.ofBool b6 ++ BitVec.ofBool b5 ++ BitVec.ofBool b4 ++ BitVec.ofBool b3
      ++ BitVec.ofBool b2 ++ BitVec.ofBool b1 ++ BitVec.ofBool b0) :: packBits rest
  | _ => []

/-- The register's value where it lies between the bounds, else the value given. -/
def legalOr (v : Word) (lo hi : Nat) (other : Word) : Word :=
  if lo ≤ v.toNat ∧ v.toNat ≤ hi then v else other

/-- The header a lone residual or partition header belongs to. -/
def loneForm (order blocksize : Nat) : Subframe where
  typ := BitVec.ofNat 6 (8 + order)
  wflag := false
  kind := .fixed
  order := order
  wasted := 0
  width := 8
  blocksize := blocksize
  prec := 0
  shift := 0

/-- The bytes in IBUF from index 0 on, the cursor at their start, and a PARSE_SUBFRAME running that reads an element of
the phase there, alone. -/
def placeElement (bytes : List Byte) (phase : ParsePhase) (blocksize samplesize : Word) (s : State) : State :=
  { s with
    blockState := .busy
    sfValid := false
    ibuf := s.ibuf.writeRun 0 bytes
    ibufLen := BitVec.ofNat 32 bytes.length
    curByte := 0
    curBit := 0
    blocksize := blocksize
    samplesize := samplesize
    pending := some .parse
    parse := some ⟨0, 0, phase⟩
    turns := .element :: s.turns }

/-- The word as the next instruction: a command as the host's next action, a stream element at the cursor of a
PARSE_SUBFRAME that stands at its slot. -/
def placeWord (s : State) (nbits w : Nat) : State :=
  match tableSlot nbits w with
  | .command =>
    { s with
      host := .writeReg 0 (BitVec.ofNat 32 w) :: s.host
      turns := if s.blockState = .busy then .host :: s.turns else s.turns }
  | .header =>
    placeElement
      (packBits (tableBits nbits w) ++ List.replicate
        ((legalOr s.blocksize 1 65536 32).toNat * (legalOr s.samplesize 1 33 8).toNat / 8 + 8) 0)
      .header (legalOr s.blocksize 1 65536 32) (legalOr s.samplesize 1 33 8) s
  | .residual => placeElement (packBits (tableBits nbits w)) (.residual (loneForm 0 32768)) 32768 8 s
  | .partition4 => placeElement (packBits (tableBits nbits w)) (.partition (loneForm 4 4) ⟨0, 0, 0, 0⟩) 4 8 s
  | .partition5 => placeElement (packBits (tableBits nbits w)) (.partition (loneForm 4 4) ⟨1, 0, 0, 0⟩) 4 8 s

end Sys2Proof.Machine
end

