-- ==== Sys2Proof/Machine/Step.lean ====
section
/-! DEFINITION. Step: one step of the machine (spec/44_host_commands.md R260, R269). -/

namespace Sys2Proof.Machine

/-- One step: a move of the host or of the engine. -/
def step (s : State) : Host.Outcome State Fault Refusal :=
  if s.blockState = .busy then moveBusy s else moveFree s

/-- The state with a word of spec/opcode_table.json placed where the machine takes its next instruction. -/
def State.withFetchWord (s : State) (nbits w : Nat) : State := placeWord s nbits w

end Sys2Proof.Machine
end

