-- ==== Sys2Proof/Safety.lean ====
section
/-! DEFINITION. Safety: what the claims call a legal state, a held subframe and a run with a meaning. -/

namespace Sys2Proof.Machine

/-- The values of an n-bit two's-complement field (spec/20_memory.md R86). -/
abbrev InSigned (n : Nat) (v : Int) : Prop := -2 ^ (n - 1) ≤ v ∧ v < 2 ^ (n - 1)

/-- The first n elements of a buffer are written, each with an n-bit signed value. -/
def WrittenBelow (m : Memory Long) (n width : Nat) : Prop :=
  ∀ i, i < n → ∃ v, m.read i = some v ∧ InSigned width v.toInt

/-- A register file holds k values of a width, and 0 beyond (spec/10_state.md R57, R58). -/
def FileLegal {w : Nat} (f : Vector (BitVec w) 32) (k width : Nat) : Prop :=
  ∀ i : Fin 32, (i.val < k → InSigned width (f[i.val]).toInt) ∧ (k ≤ i.val → f[i.val] = 0)

/-- The errors the block raises (spec/60_exceptions.md R301, R302). -/
def Raised (e : ErrorCode) : Prop := e ≠ .invalidMagic ∧ e ≠ .frameSync

/-- How many RESBUF elements a held subframe of a kind has (spec/10_state.md R59). -/
def heldCount (kind : Kind) (blocksize order : Nat) : Nat :=
  match kind with
  | .constant => 0
  | .verbatim => blocksize
  | .fixed => blocksize - order
  | .lpc => blocksize - order

/-- The order a kind has (spec/10_state.md R47). -/
def OrderLegal (kind : Kind) (order : Nat) : Prop :=
  match kind with
  | .constant => order = 0
  | .verbatim => order = 0
  | .fixed => order ≤ 4
  | .lpc => 1 ≤ order ∧ order ≤ 32

/-- What SF_VALID = 1 says (spec/10_state.md R42, R46 to R54, R57 to R59). -/
structure Held (s : State) (kind : Kind) : Prop where
  kindIs : s.sfKind = kindCode kind
  block : 1 ≤ s.sfBlocksize.toNat ∧ s.sfBlocksize.toNat ≤ Config.maxBlock
  width : 1 ≤ s.sfWidth.toNat ∧ s.sfWasted.toNat + s.sfWidth.toNat ≤ Config.maxSampleSize
  order : OrderLegal kind s.sfOrder.toNat
  orderFits : s.sfOrder.toNat ≤ s.sfBlocksize.toNat
  residuals : WrittenBelow s.resbuf (heldCount kind s.sfBlocksize.toNat s.sfOrder.toNat)
    (if kind = .verbatim then s.sfWidth.toNat else 32)
  warm : FileLegal s.warm s.sfOrder.toNat s.sfWidth.toNat
  coef : FileLegal s.coef (if kind = .lpc then s.sfOrder.toNat else 0) s.lpcPrec.toNat
  prec : s.lpcPrec.toNat ≤ 15 ∧ (kind = .lpc ↔ 1 ≤ s.lpcPrec.toNat)
  shift : s.lpcShift.toNat ≤ 15 ∧ (kind ≠ .lpc → s.lpcShift = 0)
  method : s.resMethod.toNat ≤ 1 ∧ s.resPorder.toNat ≤ 15
  sample : if kind = .constant then InSigned s.sfWidth.toNat s.sfConst.toInt else s.sfConst = 0

/-- What the engine holds of a subframe with a residual, between its header and Commit (spec/40_subframe.md R150 to
R165). -/
structure HeadLegal (s : State) (f : Subframe) : Prop where
  kindIs : f.kind = .fixed ∨ f.kind = .lpc
  order : OrderLegal f.kind f.order
  orderFits : f.order ≤ f.blocksize
  block : 1 ≤ f.blocksize ∧ f.blocksize ≤ Config.maxBlock
  width : 1 ≤ f.width ∧ f.wasted + f.width ≤ Config.maxSampleSize
  prec : f.prec ≤ 15 ∧ (f.kind = .lpc ↔ 1 ≤ f.prec)
  shift : f.shift ≤ 15 ∧ (f.kind ≠ .lpc → f.shift = 0)
  warm : FileLegal s.warm f.order f.width
  coef : FileLegal s.coef (if f.kind = .lpc then f.order else 0) f.prec

/-- Where DecodeResidual can stand (spec/41_residual_rice.md R180, R184, R185). -/
structure ResidualLegal (s : State) (f : Subframe) (r : Residual) : Prop where
  aligned : 2 ^ r.porder.toNat ∣ f.blocksize
  orderFits : f.order ≤ f.blocksize / 2 ^ r.porder.toNat
  part : r.part < 2 ^ r.porder.toNat
  idx : r.idx = r.part * (f.blocksize / 2 ^ r.porder.toNat) - (if r.part = 0 then 0 else f.order)
  residuals : WrittenBelow s.resbuf r.idx 32

/-- Where a running PARSE_SUBFRAME can stand. -/
def PhaseLegal (s : State) (phase : ParsePhase) : Prop :=
  match phase with
  | .header => True
  | .residual f => HeadLegal s f
  | .partition f r => HeadLegal s f ∧ ResidualLegal s f r

/-- The legal states: those the reset state and every step stay in. -/
structure Inv (s : State) : Prop where
  /-- the buffers keep their canonical form and their depth (R59 to R61) -/
  ibufForm : s.ibuf.wf ∧ ∀ c ∈ s.ibuf, c.1 < Config.ibufBytes
  resbufForm : s.resbuf.wf ∧ ∀ c ∈ s.resbuf, c.1 < Config.maxBlock
  obufForm : s.obuf.wf ∧ ∀ c ∈ s.obuf, c.1 < Config.maxBlock
  /-- ERRCODE is 0 but in FAULT, and there a code the block raises (R41, R300, R301) -/
  errcode : if s.blockState = .fault then ∃ e, Raised e ∧ s.errcode = errorByte e else s.errcode = 0
  /-- the flags are clear in FAULT (spec/60_exceptions.md R305) -/
  faultFlags : s.blockState = .fault → s.sfValid = false ∧ s.crcValid = false ∧ s.crcOk = false
  /-- PENDING names an operation exactly while BUSY (R62) -/
  pending : s.blockState = .busy ↔ s.pending.isSome
  /-- CRC_OK says that the CRCs are equal, and only when they are valid (R43) -/
  crcFlags : (s.crcValid = true → (s.crcOk = true ↔ s.crcCalc = s.crcExpect))
    ∧ (s.crcValid = false → s.crcOk = false)
  /-- SF_VALID says that a subframe is held (R42) -/
  held : s.sfValid = true → ∃ kind, Held s kind
  /-- a running PARSE_SUBFRAME is past its entry checks, holds no subframe and stands at a legal place (R150) -/
  parse : ∀ p, s.parse = some p → s.pending = some .parse ∧ s.sfValid = false ∧ PhaseLegal s p.phase
    ∧ (1 ≤ s.blocksize.toNat ∧ s.blocksize.toNat ≤ Config.maxBlock)
    ∧ (1 ≤ s.samplesize.toNat ∧ s.samplesize.toNat ≤ Config.maxSampleSize)

/-- A state of a run to which the spec gives a meaning: REFUSED is clear (spec/10_state.md R62; spec/44_host_commands.md
R277). A run also loses its meaning where a step answers the fault `unwrittenRead`, after which there is no state. -/
def Meaningful (s : State) : Prop := s.refused = false

end Sys2Proof.Machine
end

