-- ==== Sys2Proof/Certificates/Slice0/Obligations.lean ====
section
/-! DEFINITION. Obligations: the statements for the provers, and the words they are written in. -/

namespace Sys2Proof.Claims

open Sys2Proof.Machine

/-! ## Words of the statements -/

/-- A step's or an instruction's answer. -/
abbrev Result := Host.Outcome State Fault Refusal

/-- The engine runs an accepted command (spec/44_host_commands.md R269). -/
def Running (op : Op) (s : State) : Prop := s.blockState = .busy ∧ s.pending = some op

/-- BLOCKSIZE and SAMPLESIZE are legal, as PARSE_SUBFRAME's entry checks leave them (spec/10_state.md R35, R36). -/
def SizesLegal (s : State) : Prop :=
  (1 ≤ s.blocksize.toNat ∧ s.blocksize.toNat ≤ 65536) ∧ (1 ≤ s.samplesize.toNat ∧ s.samplesize.toNat ≤ 33)

/-- PARSE_SUBFRAME's entry checks pass (spec/40_subframe.md R150). -/
def EntryLegal (s : State) : Prop :=
  s.ibufLen.toNat ≤ Config.ibufBytes ∧ SizesLegal s ∧ s.curByte.toNat ≤ s.ibufLen.toNat

/-- The engine stands at a subframe header, past the 8 bits of it, with legal sizes. -/
def AtHeader (p : ParseRun) (s : State) : Prop := s.parse = some p ∧ p.phase = .header ∧ SizesLegal s

/-- `wastedBits` of a header with WFLAG and a unary run of z (spec/30_encoding.md R114). -/
def wastedOf (wflag : Bool) (z : Nat) : Nat := if wflag then z + Config.wastedBias else 0

/-- The effective width (spec/40_subframe.md R154). -/
def widthOf (s : State) (wflag : Bool) (z : Nat) : Nat := s.samplesize.toNat - wastedOf wflag z

/-- WFLAG of a subframe header. -/
def wflagOf : Instr → Bool
  | .sfConstant w => w
  | .sfVerbatim w => w
  | .sfFixed0 w => w
  | .sfFixed1 w => w
  | .sfFixed2 w => w
  | .sfFixed3 w => w
  | .sfFixed4 w => w
  | .sfLpc _ w => w
  | .resRice4 _ => false
  | .resRice5 _ => false
  | .partEsc4 _ => false
  | .partRice4 _ => false
  | .partEsc5 _ => false
  | .partRice5 _ => false
  | .cmdNop => false
  | .cmdParseSubframe => false
  | .cmdReconstruct => false
  | .cmdVerifyCrc16 => false
  | .cmdSoftReset => false

/-- The cursor n bits on, and nothing else changed (spec/20_memory.md R83). -/
def cursorMoved (n : Nat) (s : State) : State :=
  { s with
    curByte := BitVec.ofNat 32 ((8 * s.curByte.toNat + s.curBit.toNat + n) / 8)
    curBit := BitVec.ofNat 3 ((8 * s.curByte.toNat + s.curBit.toNat + n) % 8) }

/-- A register file holds the values given, and 0 beyond (spec/10_state.md R57, R58). -/
def FileHolds {w : Nat} (f : Vector (BitVec w) 32) (vs : List Int) : Prop :=
  ∀ i : Fin 32, (f[i.val]).toInt = vs.getD i.val 0

/-- A buffer holds the values given from index i on, and what it held before everywhere else. -/
def StoredRun (before after : Memory Long) (i : Nat) (vs : List Int) : Prop :=
  (∀ j (h : j < vs.length), ∃ v, after.read (i + j) = some v ∧ v.toInt = vs[j])
    ∧ ∀ a, (a < i ∨ i + vs.length ≤ a) → after.read a = before.read a

/-- A buffer's first B elements have the values given, and every other is what it was before. -/
def OutputIs (before after : Memory Long) (B : Nat) (out : Nat → Int) : Prop :=
  (∀ n, n < B → ∃ v, after.read n = some v ∧ v.toInt = out n) ∧ ∀ n, B ≤ n → after.read n = before.read n

/-- A signed field's values: 0 for width 0 (spec/20_memory.md R86). -/
def FieldValue (n : Nat) (v : Int) : Prop := if n = 0 then v = 0 else InSigned n v

/-- Commit and the end of PARSE_SUBFRAME (spec/40_subframe.md R150, R166). -/
def committed (typ : Nat) (f : Subframe) (method porder : Nat) (sample : Int) (s : State) : State :=
  { s with
    sfType := BitVec.ofNat 7 (64 * f.wflag.toNat + typ)
    sfKind := match f.kind with
      | .constant => 1
      | .verbatim => 2
      | .fixed => 3
      | .lpc => 4
    sfOrder := BitVec.ofNat 32 f.order
    sfWasted := BitVec.ofNat 32 f.wasted
    sfWidth := BitVec.ofNat 32 f.width
    sfBlocksize := BitVec.ofNat 32 f.blocksize
    lpcPrec := BitVec.ofNat 32 f.prec
    lpcShift := BitVec.ofNat 32 f.shift
    resMethod := BitVec.ofNat 32 method
    resPorder := BitVec.ofNat 32 porder
    sfConst := BitVec.ofInt 64 sample
    sfValid := true
    blockState := .done
    pending := none
    parse := none }

/-- What the engine knows of a subframe after its head: the header's values, and no LPC values yet. -/
def headValues (s : State) (typ : Nat) (wflag : Bool) (z : Nat) (kind : Kind) (order : Nat) : Subframe where
  typ := BitVec.ofNat 6 typ
  wflag := wflag
  kind := kind
  order := order
  wasted := wastedOf wflag z
  width := widthOf s wflag z
  blocksize := s.blocksize.toNat
  prec := 0
  shift := 0

/-- What the engine knows of an LPC subframe after its parameters (spec/40_subframe.md R162). -/
def lpcValues (s : State) (o : BitVec 5) (wflag : Bool) (z prec shift : Nat) : Subframe :=
  { headValues s (32 + o.toNat) wflag z .lpc (o.toNat + 1) with prec := prec, shift := shift }

/-- The FIXED header of an order (spec/30_encoding.md R112). -/
def fixedHeader (order : Nat) (wflag : Bool) : Instr :=
  match order with
  | 0 => .sfFixed0 wflag
  | 1 => .sfFixed1 wflag
  | 2 => .sfFixed2 wflag
  | 3 => .sfFixed3 wflag
  | _ => .sfFixed4 wflag

/-- The residual count of partition number j (spec/41_residual_rice.md R185). -/
def countOf (blocksize order porder j : Nat) : Nat :=
  if j = 0 then blocksize / 2 ^ porder - order else blocksize / 2 ^ porder

/-- After a partition of n residuals: on to the next, or Commit after the last (spec/41_residual_rice.md R180). -/
def afterPartition (p : ParseRun) (f : Subframe) (r : Residual) (n : Nat) (t : State) : State :=
  if r.part + 1 < 2 ^ r.porder.toNat then
    { t with parse := some { p with phase := .partition f { r with part := r.part + 1, idx := r.idx + n } } }
  else committed f.typ.toNat f r.method.toNat r.porder.toNat 0 t

/-- A partition as the stream notation writes it (spec/30_encoding.md R134). -/
inductive PartitionText where
  | rice (k : Nat) (vs : List Int)
  | escape (n : Nat) (vs : List Int)

/-- The residuals of a partition. -/
def PartitionText.values : PartitionText → List Int
  | .rice _ vs => vs
  | .escape _ vs => vs

/-- The bits of a partition, with `pb` bits of parameter (spec/30_encoding.md R125, R126, R128). -/
def PartitionText.bits (pb : Nat) : PartitionText → List Bool
  | .rice k vs => natBits pb k ++ vs.flatMap (riceBits k)
  | .escape n vs => natBits pb (2 ^ pb - 1) ++ natBits 5 n ++ vs.flatMap (signedBits n)

/-- The values a partition's fields admit (spec/30_encoding.md R125 to R128). -/
def PartitionText.Legal (pb : Nat) : PartitionText → Prop
  | .rice k vs => k < 2 ^ pb - 1 ∧ ∀ v ∈ vs, InSigned 32 v
  | .escape n vs => n < 32 ∧ ∀ v ∈ vs, FieldValue n v

/-- The fixed predictors of orders 0 to 4, sample n from the samples before it (spec/42_reconstruct.md R214 to R218). -/
def fixedPrediction (order : Nat) (smp : Nat → Int) (n : Nat) : Int :=
  match order with
  | 0 => 0
  | 1 => smp (n - 1)
  | 2 => 2 * smp (n - 1) - smp (n - 2)
  | 3 => 3 * smp (n - 1) - 3 * smp (n - 2) + smp (n - 3)
  | _ => 4 * smp (n - 1) - 6 * smp (n - 2) + 4 * smp (n - 3) - smp (n - 4)

/-- `acc` of sample n: the fixed prediction, or the LPC sum (spec/42_reconstruct.md R214 to R220). -/
def accOf (s : State) (smp : Nat → Int) (n : Nat) : Int :=
  if s.sfKind = 3 then fixedPrediction s.sfOrder.toNat smp n
  else ∑ i ∈ Finset.range s.sfOrder.toNat, (s.coef.getD i 0).toInt * smp (n - 1 - i)

/-- The predictor's shift: 0 for FIXED (spec/42_reconstruct.md R213), LPC_SHIFT for LPC (R219). -/
def shiftOf (s : State) : Nat := if s.sfKind = 3 then 0 else s.lpcShift.toNat

/-- The signed 64-bit range (spec/00_scope.md R20). -/
def Fits64 (v : Int) : Prop := -2 ^ 63 ≤ v ∧ v ≤ 2 ^ 63 - 1

/-- Sample n before the 64-bit check: `q`, the floor of `acc / 2^shift` (spec/00_scope.md R17), plus the residual
(spec/42_reconstruct.md R219). -/
def SampleIs (s : State) (smp : Nat → Int) (n : Nat) (v : Int) : Prop :=
  ∃ q r, q * 2 ^ shiftOf s ≤ accOf s smp n ∧ accOf s smp n < (q + 1) * 2 ^ shiftOf s
    ∧ s.resbuf.read (n - s.sfOrder.toNat) = some r ∧ v = q + r.toInt

/-- A held FIXED subframe of order 0 to 4 or LPC subframe of order 1 to 32 is being reconstructed. -/
def PredictedRun (s : State) : Prop :=
  Running .reconstruct s ∧ s.sfValid = true ∧ s.resbuf.wf ∧ s.sfBlocksize.toNat ≤ 65536
    ∧ s.sfOrder.toNat ≤ s.sfBlocksize.toNat
    ∧ (s.sfKind = 3 ∧ s.sfOrder.toNat ≤ 4 ∨ s.sfKind = 4 ∧ 1 ≤ s.sfOrder.toNat ∧ s.sfOrder.toNat ≤ 32)

/-- The samples below m are the warm-up samples and then the predictor's, every `acc` and sample in 64 bits. -/
def SamplesBelow (s : State) (smp : Nat → Int) (m : Nat) : Prop :=
  (∀ i, i < s.sfOrder.toNat → smp i = (s.warm.getD i 0).toInt)
    ∧ ∀ n, s.sfOrder.toNat ≤ n → n < m → SampleIs s smp n (smp n) ∧ Fits64 (accOf s smp n) ∧ Fits64 (smp n)

/-- The end of RECONSTRUCT with OBUF given (spec/42_reconstruct.md R210). -/
def reconstructed (obuf : Memory Long) (s : State) : State :=
  { s with obuf := obuf, blockState := .done, pending := none, parse := none }

/-- The bits end inside the part every subframe form shares and its body, past a legal order: inside an unending unary run
of wasted bits, or, with a legal width W, inside what follows, as `cut` says of W and the bits that follow. -/
def CutOffForm (s : State) (p : ParseRun) (i : Instr) (cut : Nat → List Bool → Prop) (bits : List Bool) : Prop :=
  AtHeader p s ∧ predictorOrder i ≤ s.blocksize.toNat
    ∧ ((wflagOf i = true ∧ ∃ n, bits = List.replicate n false)
      ∨ ∃ z part, wastedOf (wflagOf i) z < s.samplesize.toNat ∧ bits = wastedBits (wflagOf i) z ++ part
        ∧ cut (widthOf s (wflagOf i) z) part)

/-- The bits end inside an LPC body of order k and width W: inside the warm-up, the precision, the shift, or the
coefficients (spec/30_encoding.md R118). -/
def CutOffLpc (k W : Nat) (bits : List Bool) : Prop :=
  bits.length < k * W
    ∨ ∃ warm rest, warm.length = k * W ∧ bits = warm ++ rest
      ∧ (rest.length < 4
        ∨ ∃ q rest', q < 15 ∧ rest = natBits 4 q ++ rest'
          ∧ (rest'.length < 5
            ∨ ∃ sh coef, sh < 16 ∧ rest' = natBits 5 sh ++ coef ∧ coef.length < k * (q + 1)))

/-- The bits end inside a partition of a method: the engine stands at one, and `cut` says where of its residual count and
the bits. -/
def CutOffPartition (p : ParseRun) (method : BitVec 1) (cut : Nat → Prop) : Prop :=
  ∃ f r, p.phase = .partition f r ∧ r.method = method ∧ cut (countOf f.blocksize f.order r.porder.toNat r.part)

/-- The bits end inside the codewords of a Rice partition of n residuals: some whole ones, fewer than n, and a proper part
of another, of whatever value (spec/30_encoding.md R126). -/
def CutOffRice (k : Nat) (bits : List Bool) (n : Nat) : Prop :=
  ∃ (vs : List Int) (q r m : Nat), vs.length < n ∧ (∀ v ∈ vs, InSigned 32 v) ∧ r < 2 ^ k ∧ m < q + 1 + k
    ∧ bits = vs.flatMap (riceBits k) ++ (unaryBits q ++ natBits k r).take m

/-- The bits at hand end inside the body of an element, past its header: everything before the cut is legal
(spec/30_encoding.md R114 to R118, R126, R128). A residual header has no body, and a command is no element. -/
def CutOffBody (s : State) (p : ParseRun) (bits : List Bool) (i : Instr) : Prop :=
  match i with
  | .sfConstant _ => CutOffForm s p i (fun W part => part.length < W) bits
  | .sfVerbatim _ => CutOffForm s p i (fun W part => part.length < s.blocksize.toNat * W) bits
  | .sfFixed0 _ => CutOffForm s p i (fun _ _ => False) bits
  | .sfFixed1 _ => CutOffForm s p i (fun W part => part.length < 1 * W) bits
  | .sfFixed2 _ => CutOffForm s p i (fun W part => part.length < 2 * W) bits
  | .sfFixed3 _ => CutOffForm s p i (fun W part => part.length < 3 * W) bits
  | .sfFixed4 _ => CutOffForm s p i (fun W part => part.length < 4 * W) bits
  | .sfLpc o _ => CutOffForm s p i (CutOffLpc (o.toNat + 1)) bits
  | .resRice4 _ => False
  | .resRice5 _ => False
  | .partEsc4 w => CutOffPartition p 0 (fun n => bits.length < n * w.toNat)
  | .partRice4 k => CutOffPartition p 0 (CutOffRice k.toNat bits)
  | .partEsc5 w => CutOffPartition p 1 (fun n => bits.length < n * w.toNat)
  | .partRice5 k => CutOffPartition p 1 (CutOffRice k.toNat bits)
  | .cmdNop => False
  | .cmdParseSubframe => False
  | .cmdReconstruct => False
  | .cmdVerifyCrc16 => False
  | .cmdSoftReset => False

/-- The bits at hand end inside the header the engine reads next, everything before the cut legal: inside PAD, TYPE or
WFLAG, METHOD or PORDER, the Rice parameter or the escape width (spec/30_encoding.md R111, R122, R125). -/
def CutOffHeader (s : State) (phase : ParsePhase) (bits : List Bool) : Prop :=
  match phase with
  | .header =>
    bits = [] ∨ (∃ part, bits = false :: part ∧ part.length < 6)
      ∨ ∃ i : Instr, i.slot = .header ∧ predictorOrder i ≤ s.blocksize.toNat ∧ bits = (encode i).take 7
  | .residual _ => bits.length < 2 ∨ ∃ m part, bits = false :: m :: part ∧ part.length < 4
  | .partition _ r =>
    bits.length < 4 + r.method.toNat
      ∨ ∃ part, bits = List.replicate (4 + r.method.toNat) true ++ part ∧ part.length < 5

/-- The reserved command words (spec/30_encoding.md R132). -/
def ReservedWord (v : Word) : Prop := v.toNat ∉ [0, 1, 2, 3, 15]

/-- The host's writes. -/
def IsWrite (a : HostAction) : Prop := (∃ r v, a = .writeReg r v) ∨ ∃ i b, a = .writeIbuf i b

end Sys2Proof.Claims

open Sys2Proof Sys2Proof.Machine Sys2Proof.Claims

/-! ## Encodings -/

/-- Decoding what a well-formed instruction is encoded as gives it back, with the rest of the bits
(spec/30_encoding.md R111, R112, R122, R123, R125, R130, R131). -/
def Obligations.DecodeOfEncodeIsTheInstruction : Prop :=
  ∀ (i : Instr) (rest : List Bool), i.wellFormed = true → decode i.slot (encode i ++ rest) = .ok (i, rest)

/-- Bits that decode are the encoding of the well-formed instruction they decode to: no other bits do. -/
def Obligations.DecodeAcceptsOnlyEncodings : Prop :=
  ∀ (slot : Slot) (bits rest : List Bool) (i : Instr), decode slot bits = .ok (i, rest) →
    i.wellFormed = true ∧ i.slot = slot ∧ bits = encode i ++ rest

/-- Words written out from the spec's tables decode to their forms (R112, R123, R125, R131). -/
def Obligations.SpecWordsDecode : Prop :=
  decode .header [false, false, false, false, false, false, false, false] = .ok (.sfConstant false, [])
    ∧ decode .header [false, false, false, true, false, true, true, true] = .ok (.sfFixed3 true, [])
    ∧ decode .header [false, true, true, true, true, true, true, false] = .ok (.sfLpc 31 false, [])
    ∧ decode .residual [false, true, false, false, true, false] = .ok (.resRice5 2, [])
    ∧ decode .partition4 [true, true, true, true, false, false, true, false, true] = .ok (.partEsc4 5, [])
    ∧ decode .partition4 [false, false, true, true] = .ok (.partRice4 3, [])
    ∧ decode .partition5 [true, true, true, true, false] = .ok (.partRice5 30, [])
    ∧ decode .command (List.replicate 28 false ++ [true, true, true, true]) = .ok (.cmdSoftReset, [])
    ∧ decode .command (List.replicate 30 false ++ [true, false]) = .ok (.cmdReconstruct, [])

/-- A header with PAD = 1, a reserved TYPE or a reserved METHOD ends the command with its error
(spec/30_encoding.md R113; spec/41_residual_rice.md R183). -/
def Obligations.ReservedStreamCodesFault : Prop :=
  ∀ (s : State) (p : ParseRun) (ts : List Turn) (rest : List Bool),
    Running .parse s → s.parse = some p → s.turns = .element :: ts →
    (p.phase = .header → streamBits s = true :: rest →
      step s = .next (parseFault .subframePadding { s with turns := ts }))
    ∧ (∀ t, (2 ≤ t ∧ t ≤ 7 ∨ 13 ≤ t ∧ t ≤ 31) → p.phase = .header → streamBits s = false :: natBits 6 t ++ rest →
      step s = .next (parseFault .invalidCode { s with turns := ts }))
    ∧ (∀ f b, p.phase = .residual f → streamBits s = true :: b :: rest →
      step s = .next (parseFault .invalidCode { s with turns := ts }))

/-! ## Fields of the stream -/

/-- ReadBits(n) takes n bits, the first the most significant, and stops where fewer are there (spec/20_memory.md R84). -/
def Obligations.ReadBitsTakesBitsMostSignificantFirst : Prop :=
  ∀ (n : Nat) (bits : List Bool),
    (n ≤ bits.length → ∃ v, v < 2 ^ n ∧ readBits n bits = some (v, bits.drop n)
      ∧ ∀ j, j < n → bits[j]? = some (v.testBit (n - 1 - j)))
    ∧ (bits.length < n → readBits n bits = none)

/-- ReadUnary() counts the 0 bits up to the first 1 bit, and stops where there is none (spec/20_memory.md R87). -/
def Obligations.ReadUnaryCountsZeroBits : Prop :=
  ∀ (z : Nat) (rest : List Bool),
    readUnary (List.replicate z false ++ true :: rest) = some (z, rest) ∧ readUnary (List.replicate z false) = none

/-- ReadSigned(n) reads the n-bit two's-complement value, and nothing for n = 0 (spec/20_memory.md R86). -/
def Obligations.ReadSignedIsTwosComplement : Prop :=
  (∀ (n : Nat) (v : Int) (rest : List Bool), FieldValue n v → signedField n (signedBits n v ++ rest) = .ok (v, rest))
    ∧ ∀ (n : Nat) (bits rest : List Bool) (v : Int), signedField n bits = .ok (v, rest) → FieldValue n v

/-- ZigZag takes an even u to u/2 and an odd one to -(u/2) - 1, from 32 bits onto the signed 32-bit values
(spec/41_residual_rice.md R188). -/
def Obligations.ZigZagIsOntoSigned32 : Prop :=
  (∀ u : Nat, (u % 2 = 0 → zigZag u = (u : Int) / 2) ∧ (u % 2 = 1 → zigZag u = -((u : Int) / 2) - 1)
    ∧ (u < 2 ^ 32 → InSigned 32 (zigZag u)))
    ∧ ∀ v : Int, InSigned 32 v → ∃ u : Nat, u < 2 ^ 32 ∧ zigZag u = v

/-- A Rice codeword of any parameter decodes to the residual it encodes (spec/95_test_vectors.md E4;
spec/41_residual_rice.md R187). -/
def Obligations.RiceCodewordRoundTrip : Prop :=
  ∀ (k : Nat) (v : Int) (rest : List Bool), InSigned 32 v → riceField k (riceBits k v ++ rest) = .ok (v, rest)

/-- A whole codeword of a folded value of 2^32 or more overflows, and one cut off runs short, whatever its value
(spec/41_residual_rice.md R187). -/
def Obligations.RiceOverflowNeedsTheWholeCodeword : Prop :=
  ∀ (k q r : Nat) (rest : List Bool), r < 2 ^ k →
    (2 ^ 32 ≤ q * 2 ^ k + r →
      riceField k (unaryBits q ++ natBits k r ++ rest) = .error (.raise .residualOverflow))
    ∧ ∀ n, n < q + 1 + k → riceField k ((unaryBits q ++ natBits k r).take n) = .error .short

/-- The bits at the cursor are those of IBUF, bit 7 of a byte first, up to IBUF_LEN or the first unwritten byte
(spec/10_state.md R33, R64; spec/20_memory.md R81, R83). -/
def Obligations.StreamIsIbufFromTheCursor : Prop :=
  ∀ s : State, s.ibuf.wf →
    (∀ (j : Nat) (b : Bool), (streamBits s)[j]? = some b →
      ∃ byte, s.ibuf.read ((8 * s.curByte.toNat + s.curBit.toNat + j) / 8) = some byte
        ∧ (8 * s.curByte.toNat + s.curBit.toNat + j) / 8 < s.ibufLen.toNat
        ∧ b = byte.getLsbD (7 - (8 * s.curByte.toNat + s.curBit.toNat + j) % 8))
    ∧ (streamEnd s = .bufferEnd →
        s.ibufLen.toNat ≤ (8 * s.curByte.toNat + s.curBit.toNat + (streamBits s).length) / 8)
    ∧ (streamEnd s = .unwrittenByte →
        s.ibuf.read ((8 * s.curByte.toNat + s.curBit.toNat + (streamBits s).length) / 8) = none
        ∧ (8 * s.curByte.toNat + s.curBit.toNat + (streamBits s).length) / 8 < s.ibufLen.toNat)

/-! ## The step and the instructions -/

/-- A step runs the decoded instruction: a command word the host writes to CMD, the stream element at the cursor (past
its header), or the accepted command PENDING names. With no action left and not BUSY, nothing changes. The turns are the
model's own (log entries 1 and 2). -/
def Obligations.StepExecutesTheDecodedInstruction : Prop :=
  (∀ (s : State) (v : Word) (as : List HostAction) (i : Instr) (rest : List Bool),
    s.blockState ≠ .busy → s.host = .writeReg 0 v :: as → decode .command (natBits 32 v.toNat) = .ok (i, rest) →
    step s = exec i { s with host := as })
  ∧ (∀ (s : State) (p : ParseRun) (ts : List Turn) (i : Instr) (rest : List Bool),
    Running .parse s → s.parse = some p → s.turns = .element :: ts →
    decode (slotAt p.phase) (streamBits s) = .ok (i, rest) →
    step s = exec i (cursorMoved ((streamBits s).length - rest.length) { s with turns := ts }))
  ∧ (∀ s : State, s.turns = [] →
    (Running .parse s → step s = exec .cmdParseSubframe s)
    ∧ (Running .reconstruct s → step s = exec .cmdReconstruct s)
    ∧ (Running .verify s → step s = exec .cmdVerifyCrc16 s))
  ∧ ∀ s : State, s.blockState ≠ .busy → s.host = [] → step s = .next s

/-- PARSE_SUBFRAME as the engine's one step (spec/44_host_commands.md R269) is the run of its stream elements, one
after another (log entry 1). -/
def Obligations.WholeParseIsTheRunOfItsElements : Prop :=
  ∀ s : State, Running .parse s → s.turns = [] →
    (∀ t, step s = .next t → ∃ n, Host.Core.run core n { s with turns := List.replicate n .element } = .next t)
    ∧ (∀ r, step s = .fault r →
      ∃ n, Host.Core.run core n { s with turns := List.replicate n .element } = .fault r)

/-- With the engine's own step, a running command ends: DONE, FAULT, or the model's UnwrittenRead of IBUF
(spec/44_host_commands.md R269, R270). -/
def Obligations.EngineStepEndsTheCommand : Prop :=
  ∀ s : State, Inv s → s.blockState = .busy → s.turns = [] →
    (∃ t, step s = .next t ∧ (t.blockState = .done ∨ t.blockState = .fault))
      ∨ step s = .fault (.unwrittenRead .ibuf)

/-! ## Commands -/

/-- In IDLE and DONE a CMD write of PARSE_SUBFRAME, RECONSTRUCT or VERIFY_CRC16 sets PENDING and BUSY and nothing else
(spec/44_host_commands.md R265). -/
def Obligations.EngineCommandsAreAccepted : Prop :=
  ∀ s : State, (s.blockState = .idle ∨ s.blockState = .done) →
    exec .cmdParseSubframe s = .next { s with pending := some .parse, blockState := .busy }
    ∧ exec .cmdReconstruct s = .next { s with pending := some .reconstruct, blockState := .busy }
    ∧ exec .cmdVerifyCrc16 s = .next { s with pending := some .verify, blockState := .busy }

/-- Command acceptance, as R265 writes it out for a word v that the host writes to CMD while not BUSY
(spec/44_host_commands.md R265). -/
def Obligations.CommandAcceptance : Prop :=
  ∀ (s : State) (v : Word) (as : List HostAction), s.blockState ≠ .busy → s.host = .writeReg 0 v :: as →
    (s.blockState = .fault → v ≠ 0x0000000F → step s = .next { s with host := as })
    ∧ (v = 0x0000000F → step s = .next (softReset { s with host := as }))
    ∧ (s.blockState ≠ .fault →
      (v.extractLsb' 4 28 ≠ 0 ∨ 4 ≤ (v.extractLsb' 0 4).toNat ∧ (v.extractLsb' 0 4).toNat ≤ 14 →
        step s = .next (faultEntry .invalidCommand { s with host := as }))
      ∧ (v = 0 → step s = .next { s with host := as })
      ∧ (v = 1 → step s = .next { s with host := as, pending := some .parse, blockState := .busy })
      ∧ (v = 2 → step s = .next { s with host := as, pending := some .reconstruct, blockState := .busy })
      ∧ (v = 3 → step s = .next { s with host := as, pending := some .verify, blockState := .busy }))

/-- NOP, command word 0x00000000, changes nothing, in FAULT too (spec/44_host_commands.md R266). -/
def Obligations.NopChangesNothing : Prop :=
  ∀ s : State, s.blockState ≠ .busy → exec .cmdNop s = .next s
    ∧ ∀ as, s.host = .writeReg 0 0x00000000 :: as → step s = .next { s with host := as }

/-- SOFT_RESET, command word 0x0000000F, clears STATE, ERRCODE and the flags and keeps every other register and buffer
(spec/44_host_commands.md R267; spec/70_reset_and_hazards.md R343). That SF_KIND is one of those kept is the model's
reading beside spec/10_state.md R46 (log entry 12). -/
def Obligations.SoftResetClearsStatusAndKeepsTheRest : Prop :=
  ∀ s : State, s.blockState ≠ .busy →
    exec .cmdSoftReset s
      = .next { s with
        blockState := .idle, errcode := 0, sfValid := false, crcValid := false, crcOk := false }
    ∧ ∀ as, s.host = .writeReg 0 0x0000000F :: as →
      step s = .next { s with
        host := as, blockState := .idle, errcode := 0, sfValid := false, crcValid := false, crcOk := false }

/-- A reserved command word in IDLE or DONE faults with InvalidCommandError, and changes nothing else but the model's
host program (spec/44_host_commands.md R268; spec/60_exceptions.md R305). -/
def Obligations.ReservedCommandFaults : Prop :=
  ∀ (s : State) (v : Word) (as : List HostAction), (s.blockState = .idle ∨ s.blockState = .done) → ReservedWord v →
    s.host = .writeReg 0 v :: as →
    step s = .next { s with
      host := as, blockState := .fault, errcode := 0x22, sfValid := false, crcValid := false, crcOk := false
      pending := none, parse := none }

/-- FAULT is left by SOFT_RESET and reset, and by no other step: any other CMD write has no effect, register and IBUF writes
are accepted, and whatever else the host does, STATE and ERRCODE stay (spec/60_exceptions.md R308). -/
def Obligations.FaultIsSticky : Prop :=
  ∀ (s : State) (as : List HostAction), s.blockState = .fault →
    (∀ v : Word, v ≠ 0x0000000F → s.host = .writeReg 0 v :: as → step s = .next { s with host := as })
    ∧ (s.host = .writeReg 0 0x0000000F :: as → ∃ t, step s = .next t ∧ t.blockState = .idle ∧ t.errcode = 0)
    ∧ (s.host = .reset :: as → ∃ t, step s = .next t ∧ t.blockState = .idle ∧ t.errcode = 0)
    ∧ (∀ (r : Nat) (v : Word), r ≠ 0 → s.host = .writeReg r v :: as →
      step s = .next (writeReg { s with host := as } r v))
    ∧ (∀ (i : Nat) (b : Byte), i < Config.ibufBytes → s.host = .writeIbuf i b :: as →
      step s = .next { s with host := as, ibuf := s.ibuf.write i b })
    ∧ ∀ t, step s = .next t →
      t.blockState = .fault ∧ t.errcode = s.errcode
        ∨ ∃ rest, s.host = .reset :: rest ∨ s.host = .writeReg 0 0x0000000F :: rest

/-! ## The host port -/

/-- A host write while BUSY sets REFUSED (spec/44_host_commands.md R271). -/
def Obligations.HostWritesWhileBusyAreRefused : Prop :=
  ∀ (s : State) (a : HostAction) (ts : List Turn) (as : List HostAction), s.blockState = .busy →
    s.turns = .host :: ts → s.host = a :: as → IsWrite a → ∃ t, step s = .next t ∧ t.refused = true

/-- A refused action sets REFUSED and does nothing else: the model's choice, where the spec says nothing of the run from
that point (log entry 9). -/
def Obligations.RefusedActionsDoNothingElse : Prop :=
  ∀ (s : State) (a : HostAction) (as : List HostAction), s.host = a :: as →
    (∀ ts, s.blockState = .busy → s.turns = .host :: ts → IsWrite a →
      step s = .next { s with turns := ts, host := as, refused := true })
    ∧ (s.blockState ≠ .busy →
      (∀ i b, a = .writeIbuf i b → Config.ibufBytes ≤ i → step s = .next { s with host := as, refused := true })
      ∧ ∀ x i, a = .readBuf x i →
        (x = .ibuf ∧ Config.ibufBytes ≤ i ∨ (x = .resbuf ∨ x = .obuf) ∧ 65536 ≤ i
          ∨ (x = .warm ∨ x = .coef) ∧ 32 ≤ i) →
        step s = .next { s with host := as, refused := true })

/-- A host read while BUSY returns some value of the element's width, STATUS with STATE = BUSY, and changes no state
(spec/44_host_commands.md R272; `draws` is the model's own, log entry 8). -/
def Obligations.HostReadsWhileBusyChangeNothing : Prop :=
  ∀ (s : State) (ts : List Turn) (as : List HostAction), s.blockState = .busy → s.turns = .host :: ts →
    (s.host = .readReg 1 :: as → ∃ w : Word, w.extractLsb' 0 2 = 1
      ∧ step s = .next { s with turns := ts, host := as, readData := some (.word w), draws := s.draws + 1 })
    ∧ (s.host = .readReg 21 :: as → ∃ v : Long,
      step s = .next { s with turns := ts, host := as, readData := some (.long v), draws := s.draws + 1 })
    ∧ (∀ r, r ≠ 21 → s.host = .readReg r :: as → ∃ w : Word,
      step s = .next { s with turns := ts, host := as, readData := some (.word w), draws := s.draws + 1 })
    ∧ (∀ i, s.host = .readBuf .ibuf i :: as → ∃ v : Byte,
      step s = .next { s with turns := ts, host := as, readData := some (.byte v), draws := s.draws + 1 })
    ∧ (∀ i, s.host = .readBuf .coef i :: as → ∃ v : Word,
      step s = .next { s with turns := ts, host := as, readData := some (.word v), draws := s.draws + 1 })
    ∧ (∀ x i, x ≠ .ibuf → x ≠ .coef → s.host = .readBuf x i :: as → ∃ v : Long,
      step s = .next { s with turns := ts, host := as, readData := some (.long v), draws := s.draws + 1 })

/-- Register numbers 22 and above: a host read returns 0 and a host write is ignored (spec/10_state.md R55). -/
def Obligations.ReservedRegisterNumbers : Prop :=
  ∀ (s : State) (r : Nat) (as : List HostAction), s.blockState ≠ .busy → 22 ≤ r →
    (s.host = .readReg r :: as → step s = .next { s with host := as, readData := some (.word 0) })
    ∧ ∀ v : Word, s.host = .writeReg r v :: as → step s = .next { s with host := as }

/-- A host write of a register while not BUSY: RW registers store the value, CUR_BIT its bits [2:0], and every other
number is ignored (spec/10_state.md R55, R56). -/
def Obligations.HostRegisterWrites : Prop :=
  ∀ (s : State) (r : Nat) (v : Word) (as : List HostAction), s.blockState ≠ .busy → r ≠ 0 →
    s.host = .writeReg r v :: as →
    (r = 2 → step s = .next { s with host := as, ibufLen := v })
    ∧ (r = 3 → step s = .next { s with host := as, curByte := v })
    ∧ (r = 4 → step s = .next { s with host := as, curBit := v.extractLsb' 0 3 })
    ∧ (r = 5 → step s = .next { s with host := as, blocksize := v })
    ∧ (r = 6 → step s = .next { s with host := as, samplesize := v })
    ∧ (r = 7 → step s = .next { s with host := as, crcStart := v })
    ∧ (r = 8 → step s = .next { s with host := as, crcEnd := v })
    ∧ (r = 1 ∨ 9 ≤ r → step s = .next { s with host := as })

/-- A host read of a register while not BUSY gives its value and changes no state: the map of spec/10_state.md R32, STATUS
by R39, the reserved bits and numbers 0 (R55, R56). -/
def Obligations.HostRegisterReads : Prop :=
  ∀ (s : State) (r : Nat) (as : List HostAction), s.blockState ≠ .busy → s.host = .readReg r :: as →
    ∃ x, step s = .next { s with host := as, readData := some x }
      ∧ (r = 0 ∨ 22 ≤ r → x = .word 0)
      ∧ (r = 1 → ∃ w, x = .word w
        ∧ w.extractLsb' 0 2 = (match s.blockState with | .idle => 0 | .busy => 1 | .done => 2 | .fault => 3)
        ∧ w.getLsbD 2 = s.sfValid ∧ w.getLsbD 3 = s.crcValid ∧ w.getLsbD 4 = s.crcOk
        ∧ w.extractLsb' 5 3 = 0 ∧ w.extractLsb' 8 8 = s.errcode ∧ w.extractLsb' 16 16 = 0)
      ∧ (r = 2 → x = .word s.ibufLen) ∧ (r = 3 → x = .word s.curByte)
      ∧ (r = 4 → x = .word (BitVec.ofNat 32 s.curBit.toNat))
      ∧ (r = 5 → x = .word s.blocksize) ∧ (r = 6 → x = .word s.samplesize)
      ∧ (r = 7 → x = .word s.crcStart) ∧ (r = 8 → x = .word s.crcEnd)
      ∧ (r = 9 → x = .word (BitVec.ofNat 32 s.crcCalc.toNat))
      ∧ (r = 10 → x = .word (BitVec.ofNat 32 s.crcExpect.toNat))
      ∧ (r = 11 → x = .word (BitVec.ofNat 32 s.sfType.toNat))
      ∧ (r = 12 → x = .word s.sfKind) ∧ (r = 13 → x = .word s.sfOrder) ∧ (r = 14 → x = .word s.sfWasted)
      ∧ (r = 15 → x = .word s.sfWidth) ∧ (r = 16 → x = .word s.sfBlocksize) ∧ (r = 17 → x = .word s.lpcPrec)
      ∧ (r = 18 → x = .word s.lpcShift) ∧ (r = 19 → x = .word s.resMethod) ∧ (r = 20 → x = .word s.resPorder)
      ∧ (r = 21 → x = .long s.sfConst)

/-- WriteIBUF while not BUSY: below `P_IBUF_BYTES` the byte is stored, every other element and all other state kept;
beyond it REFUSED is set (spec/44_host_commands.md R263). -/
def Obligations.HostIbufWrites : Prop :=
  ∀ (s : State) (i : Nat) (b : Byte) (as : List HostAction), s.blockState ≠ .busy → s.host = .writeIbuf i b :: as →
    (i < Config.ibufBytes → ∃ ibuf, step s = .next { s with host := as, ibuf := ibuf }
      ∧ ibuf.read i = some b ∧ ∀ j, j ≠ i → ibuf.read j = s.ibuf.read j)
    ∧ (Config.ibufBytes ≤ i → ∃ t, step s = .next t ∧ t.refused = true)

/-- ReadBuf while not BUSY: a written element is returned, an unwritten one is the model fault UnwrittenRead, and an index
beyond the space sets REFUSED, in IDLE, DONE and FAULT alike (spec/44_host_commands.md R264; spec/20_memory.md R80). -/
def Obligations.HostBufferReads : Prop :=
  ∀ (s : State) (x : BufName) (i : Nat) (as : List HostAction), s.blockState ≠ .busy → s.host = .readBuf x i :: as →
    (x = .ibuf → i < Config.ibufBytes → ∀ v, s.ibuf.read i = some v →
      step s = .next { s with host := as, readData := some (.byte v) })
    ∧ (x = .resbuf → i < 65536 → ∀ v, s.resbuf.read i = some v →
      step s = .next { s with host := as, readData := some (.long v) })
    ∧ (x = .obuf → i < 65536 → ∀ v, s.obuf.read i = some v →
      step s = .next { s with host := as, readData := some (.long v) })
    ∧ (x = .warm → ∀ h : i < 32, step s = .next { s with host := as, readData := some (.long s.warm[i]) })
    ∧ (x = .coef → ∀ h : i < 32, step s = .next { s with host := as, readData := some (.word s.coef[i]) })
    ∧ (x = .ibuf → i < Config.ibufBytes → s.ibuf.read i = none → step s = .fault (.unwrittenRead .ibuf))
    ∧ (x = .resbuf → i < 65536 → s.resbuf.read i = none → step s = .fault (.unwrittenRead .resbuf))
    ∧ (x = .obuf → i < 65536 → s.obuf.read i = none → step s = .fault (.unwrittenRead .obuf))
    ∧ ((x = .ibuf ∧ Config.ibufBytes ≤ i ∨ (x = .resbuf ∨ x = .obuf) ∧ 65536 ≤ i ∨ (x = .warm ∨ x = .coef) ∧ 32 ≤ i) →
      ∃ t, step s = .next t ∧ t.refused = true)

/-! ## Reset -/

/-- Reset, taken in any state, BUSY included: every register 0, STATE IDLE, the flags and files 0, no command pending, the
buffers unwritten, REFUSED kept (spec/70_reset_and_hazards.md R340 to R342). What becomes of the model's own fields is
the model's choice (log entry 22). -/
def Obligations.ResetClearsTheBlock : Prop :=
  ∀ (s : State) (as : List HostAction) (ts : List Turn), s.host = .reset :: as →
    (s.blockState = .busy ∧ s.turns = .host :: ts ∨ s.blockState ≠ .busy ∧ s.turns = ts) →
    ∃ t, step s = .next t ∧ t.blockState = .idle ∧ t.sfValid = false ∧ t.crcValid = false ∧ t.crcOk = false
      ∧ t.errcode = 0 ∧ (∀ r, r ≠ 21 → readReg t r = .word 0) ∧ readReg t 21 = .long 0
      ∧ (∀ i : Fin 32, t.warm[i.val] = 0 ∧ t.coef[i.val] = 0)
      ∧ (∀ i, t.ibuf.read i = none ∧ t.resbuf.read i = none ∧ t.obuf.read i = none)
      ∧ t.pending = none ∧ t.parse = none ∧ t.refused = s.refused
      ∧ t.host = as ∧ t.turns = ts ∧ t.readData = s.readData ∧ t.draws = s.draws

/-! ## Faults -/

/-- Fault entry of each command (spec/60_exceptions.md R305, R306): STATE, ERRCODE by the table of R300, the flags,
PENDING undefined, the elements that hold any value (written where they are buffer elements, the cursor between where the
command began and the end of IBUF), and everything else as it was. -/
def Obligations.FaultEntryKeepsWhatTheCommandDoesNotWrite : Prop :=
  (∀ (e : ErrorCode) (s : State), ∃ t, t = parseFault e s
    ∧ t.blockState = .fault ∧ t.errcode = errorByte e ∧ t.sfValid = false ∧ t.crcValid = false ∧ t.crcOk = false
    ∧ t.pending = none ∧ t.parse = none
    ∧ entryAddress s ≤ 8 * t.curByte.toNat + t.curBit.toNat
    ∧ 8 * t.curByte.toNat + t.curBit.toNat ≤ max (entryAddress s) (8 * s.ibufLen.toNat)
    ∧ (∀ i, i < min s.blocksize.toNat 65536 → (t.resbuf.read i).isSome)
    ∧ (∀ i, min s.blocksize.toNat 65536 ≤ i → t.resbuf.read i = s.resbuf.read i)
    ∧ t.ibufLen = s.ibufLen ∧ t.blocksize = s.blocksize ∧ t.samplesize = s.samplesize ∧ t.crcStart = s.crcStart
    ∧ t.crcEnd = s.crcEnd ∧ t.crcCalc = s.crcCalc ∧ t.crcExpect = s.crcExpect ∧ t.ibuf = s.ibuf ∧ t.obuf = s.obuf
    ∧ t.refused = s.refused ∧ t.host = s.host ∧ t.turns = s.turns ∧ t.readData = s.readData)
  ∧ (∀ (e : ErrorCode) (s : State), ∃ obuf, reconstructFault e s = { s with
      obuf := obuf, draws := s.draws + 1, blockState := .fault, errcode := errorByte e, sfValid := false
      crcValid := false, crcOk := false, pending := none, parse := none }
    ∧ (∀ i, i < min s.sfBlocksize.toNat 65536 → (obuf.read i).isSome)
    ∧ ∀ i, min s.sfBlocksize.toNat 65536 ≤ i → obuf.read i = s.obuf.read i)
  ∧ (∀ (e : ErrorCode) (s : State), ∃ c x, verifyFault e s = { s with
      crcCalc := c, crcExpect := x, draws := s.draws + 1, blockState := .fault, errcode := errorByte e
      sfValid := false, crcValid := false, crcOk := false, pending := none, parse := none })
  ∧ (errorByte .invalidMagic = 0x01 ∧ errorByte .truncatedStream = 0x02 ∧ errorByte .frameSync = 0x03
    ∧ errorByte .invalidCode = 0x04 ∧ errorByte .invalidCoefficientPrecision = 0x05
    ∧ errorByte .partitionAlignment = 0x06 ∧ errorByte .subframePadding = 0x10 ∧ errorByte .invalidOrder = 0x11
    ∧ errorByte .invalidWidth = 0x12 ∧ errorByte .invalidShift = 0x13 ∧ errorByte .residualCount = 0x14
    ∧ errorByte .residualOverflow = 0x15 ∧ errorByte .arithmeticOverflow = 0x16 ∧ errorByte .invalidConfig = 0x20
    ∧ errorByte .noSubframe = 0x21 ∧ errorByte .invalidCommand = 0x22)

/-! ## PARSE_SUBFRAME -/

/-- PARSE_SUBFRAME's entry: a register out of its legal range raises InvalidConfigError, and otherwise SF_VALID is cleared
and the header comes next (spec/40_subframe.md R150). -/
def Obligations.ParseEntryChecksTheRegisters : Prop :=
  ∀ (s : State) (ts : List Turn), Running .parse s → s.parse = none → s.turns = .element :: ts →
    (¬ EntryLegal s → step s = .next (parseFault .invalidConfig { s with turns := ts }))
    ∧ (EntryLegal s → step s = .next { s with
        turns := ts, sfValid := false, parse := some ⟨s.curByte, s.curBit, .header⟩ })

/-- Every subframe form raises InvalidOrderError for an order above the block size, and then InvalidWidthError for a width
below 1 (spec/40_subframe.md R152 to R154). -/
def Obligations.SubframeFormsCheckOrderAndWidth : Prop :=
  ∀ (s : State) (p : ParseRun) (i : Instr), AtHeader p s → i.slot = .header →
    (s.blocksize.toNat < predictorOrder i → exec i s = .next (parseFault .invalidOrder s))
    ∧ (predictorOrder i ≤ s.blocksize.toNat → ∀ (z : Nat) (rest : List Bool),
      streamBits s = wastedBits (wflagOf i) z ++ rest → s.samplesize.toNat ≤ wastedOf (wflagOf i) z →
      exec i s = .next (parseFault .invalidWidth s))

/-- SF_CONSTANT (spec/40_subframe.md R155, R166): the sample into SF_CONST, WARM and COEF 0, RESBUF kept, DONE. -/
def Obligations.ConstantSubframeIsParsed : Prop :=
  ∀ (s : State) (p : ParseRun) (wflag : Bool) (z : Nat) (c : Int) (rest : List Bool), AtHeader p s →
    wastedOf wflag z < s.samplesize.toNat → InSigned (widthOf s wflag z) c →
    streamBits s = wastedBits wflag z ++ signedBits (widthOf s wflag z) c ++ rest →
    ∃ warm coef, FileHolds warm [] ∧ FileHolds coef []
      ∧ exec (.sfConstant wflag) s = .next (committed 0 (headValues s 0 wflag z .constant 0) 0 0 c
          { cursorMoved ((wastedBits wflag z).length + widthOf s wflag z) s with warm := warm, coef := coef })

/-- SF_VERBATIM (spec/40_subframe.md R156, R166): B samples into RESBUF from index 0, the rest of it kept, DONE. -/
def Obligations.VerbatimSubframeIsParsed : Prop :=
  ∀ (s : State) (p : ParseRun) (wflag : Bool) (z : Nat) (vs : List Int) (rest : List Bool), AtHeader p s →
    wastedOf wflag z < s.samplesize.toNat → vs.length = s.blocksize.toNat →
    (∀ v ∈ vs, InSigned (widthOf s wflag z) v) →
    streamBits s = wastedBits wflag z ++ vs.flatMap (signedBits (widthOf s wflag z)) ++ rest →
    ∃ warm coef resbuf, FileHolds warm [] ∧ FileHolds coef [] ∧ StoredRun s.resbuf resbuf 0 vs
      ∧ exec (.sfVerbatim wflag) s = .next (committed 1 (headValues s 1 wflag z .verbatim 0) 0 0 0
          { cursorMoved ((wastedBits wflag z).length + s.blocksize.toNat * widthOf s wflag z) s with
            warm := warm, coef := coef, resbuf := resbuf })

/-- Every stream element whose body is cut off raises TruncatedStreamError where IBUF_LEN ends the bits, and is the model
fault UnwrittenRead where an unwritten byte does (spec/20_memory.md R84; spec/10_state.md R64; spec/60_exceptions.md
R304). -/
def Obligations.CutOffBodiesFault : Prop :=
  ∀ (s : State) (p : ParseRun) (i : Instr), s.parse = some p → CutOffBody s p (streamBits s) i →
    (streamEnd s = .bufferEnd → exec i s = .next (parseFault .truncatedStream s))
    ∧ (streamEnd s = .unwrittenByte → exec i s = .fault (.unwrittenRead .ibuf))

/-- The same for a header that is cut off. Where only WFLAG is missing, the order is judged first: InvalidOrderError
(spec/40_subframe.md R152; log entry 21). -/
def Obligations.CutOffHeadersFault : Prop :=
  ∀ (s : State) (p : ParseRun) (ts : List Turn), Running .parse s → s.parse = some p → s.turns = .element :: ts →
    (CutOffHeader s p.phase (streamBits s) →
      (streamEnd s = .bufferEnd → step s = .next (parseFault .truncatedStream { s with turns := ts }))
      ∧ (streamEnd s = .unwrittenByte → step s = .fault (.unwrittenRead .ibuf)))
    ∧ ∀ i : Instr, p.phase = .header → i.slot = .header → s.blocksize.toNat < predictorOrder i →
      streamBits s = (encode i).take 7 → step s = .next (parseFault .invalidOrder { s with turns := ts })

/-- SF_FIXED0 to SF_FIXED4 (spec/40_subframe.md R157 to R161): the warm-up samples into WARM, COEF 0, and on to the
residual header, with all else kept. -/
def Obligations.FixedSubframeHeadIsParsed : Prop :=
  ∀ (s : State) (p : ParseRun) (k : Nat) (wflag : Bool) (z : Nat) (vs : List Int) (rest : List Bool), AtHeader p s →
    k ≤ 4 → k ≤ s.blocksize.toNat → wastedOf wflag z < s.samplesize.toNat → vs.length = k →
    (∀ v ∈ vs, InSigned (widthOf s wflag z) v) →
    streamBits s = wastedBits wflag z ++ vs.flatMap (signedBits (widthOf s wflag z)) ++ rest →
    ∃ warm coef, FileHolds warm vs ∧ FileHolds coef []
      ∧ exec (fixedHeader k wflag) s = .next
          { cursorMoved ((wastedBits wflag z).length + k * widthOf s wflag z) s with
            warm := warm, coef := coef
            parse := some { p with phase := .residual (headValues s (8 + k) wflag z .fixed k) } }

/-- SF_LPC (spec/40_subframe.md R162 to R165): warm-up into WARM, coefficients into COEF, precision and shift held for
Commit, and on to the residual header, with all else kept. -/
def Obligations.LpcSubframeHeadIsParsed : Prop :=
  ∀ (s : State) (p : ParseRun) (o : BitVec 5) (wflag : Bool) (z : Nat) (vs cs : List Int) (prec shift : Nat)
    (rest : List Bool), AtHeader p s → o.toNat + 1 ≤ s.blocksize.toNat → wastedOf wflag z < s.samplesize.toNat →
    vs.length = o.toNat + 1 → (∀ v ∈ vs, InSigned (widthOf s wflag z) v) → 1 ≤ prec → prec ≤ 15 → shift ≤ 15 →
    cs.length = o.toNat + 1 → (∀ c ∈ cs, InSigned prec c) →
    streamBits s = wastedBits wflag z ++ vs.flatMap (signedBits (widthOf s wflag z)) ++ natBits 4 (prec - 1)
      ++ natBits 5 shift ++ cs.flatMap (signedBits prec) ++ rest →
    ∃ warm coef, FileHolds warm vs ∧ FileHolds coef cs
      ∧ exec (.sfLpc o wflag) s = .next
          { cursorMoved ((wastedBits wflag z).length + (o.toNat + 1) * widthOf s wflag z + 9 + (o.toNat + 1) * prec) s with
            warm := warm, coef := coef
            parse := some { p with phase := .residual (lpcValues s o wflag z prec shift) } }

/-- A precision field of 15 raises InvalidCoefficientPrecisionError before the shift is read, and a negative shift
InvalidShiftError before the coefficients are (spec/40_subframe.md R163, R164). -/
def Obligations.LpcPrecisionAndShiftFaults : Prop :=
  ∀ (s : State) (p : ParseRun) (o : BitVec 5) (wflag : Bool) (z : Nat) (vs : List Int) (rest : List Bool),
    AtHeader p s → o.toNat + 1 ≤ s.blocksize.toNat → wastedOf wflag z < s.samplesize.toNat →
    vs.length = o.toNat + 1 → (∀ v ∈ vs, InSigned (widthOf s wflag z) v) →
    (streamBits s = wastedBits wflag z ++ vs.flatMap (signedBits (widthOf s wflag z)) ++ natBits 4 15 ++ rest →
      exec (.sfLpc o wflag) s = .next (parseFault .invalidCoefficientPrecision s))
    ∧ (∀ (q : Nat) (sh : Int), q < 15 → -16 ≤ sh → sh < 0 →
      streamBits s = wastedBits wflag z ++ vs.flatMap (signedBits (widthOf s wflag z)) ++ natBits 4 q
        ++ signedBits 5 sh ++ rest →
      exec (.sfLpc o wflag) s = .next (parseFault .invalidShift s))

/-- RES_RICE4 and RES_RICE5 (spec/41_residual_rice.md R180, R184, R185): PartitionAlignmentError, then
ResidualCountError, else on to partition 0 with RESBUF index 0 and all else kept. -/
def Obligations.ResidualHeaderLaysOutPartitions : Prop :=
  ∀ (s : State) (p : ParseRun) (f : Subframe) (q : BitVec 4) (i : Instr) (method : BitVec 1),
    s.parse = some p → p.phase = .residual f → (i = .resRice4 q ∧ method = 0 ∨ i = .resRice5 q ∧ method = 1) →
    (f.blocksize % 2 ^ q.toNat ≠ 0 → exec i s = .next (parseFault .partitionAlignment s))
    ∧ (f.blocksize % 2 ^ q.toNat = 0 → f.blocksize / 2 ^ q.toNat < f.order →
      exec i s = .next (parseFault .residualCount s))
    ∧ (f.blocksize % 2 ^ q.toNat = 0 → f.order ≤ f.blocksize / 2 ^ q.toNat →
      exec i s = .next { s with parse := some { p with phase := .partition f ⟨method, q, 0, 0⟩ } })

/-- PART_RICE4 and PART_RICE5 (spec/41_residual_rice.md R186, R187): the partition's residuals into RESBUF from `idx` on,
the rest of it and all else kept, then the next partition, or Commit. A whole codeword of a folded value of 2^32 or more,
after any number of legal ones, raises ResidualOverflowError. -/
def Obligations.RicePartitionIsDecoded : Prop :=
  ∀ (s : State) (p : ParseRun) (f : Subframe) (r : Residual) (i : Instr) (k : Nat) (vs : List Int) (rest : List Bool),
    s.parse = some p → p.phase = .partition f r →
    ((∃ k4 : BitVec 4, i = .partRice4 k4 ∧ k = k4.toNat ∧ r.method = 0)
      ∨ ∃ k5 : BitVec 5, i = .partRice5 k5 ∧ k = k5.toNat ∧ r.method = 1) →
    (∀ v ∈ vs, InSigned 32 v) →
    (vs.length = countOf f.blocksize f.order r.porder.toNat r.part →
      streamBits s = vs.flatMap (riceBits k) ++ rest →
      ∃ resbuf, StoredRun s.resbuf resbuf r.idx vs
        ∧ exec i s = .next (afterPartition p f r vs.length
            { cursorMoved (vs.flatMap (riceBits k)).length s with resbuf := resbuf }))
    ∧ ∀ q m, vs.length < countOf f.blocksize f.order r.porder.toNat r.part → m < 2 ^ k → 2 ^ 32 ≤ q * 2 ^ k + m →
      streamBits s = vs.flatMap (riceBits k) ++ unaryBits q ++ natBits k m ++ rest →
      exec i s = .next (parseFault .residualOverflow s)

/-- PART_ESC4 and PART_ESC5 (spec/41_residual_rice.md R189, R190): the same for fields of the raw width, 0 for width 0. -/
def Obligations.EscapePartitionIsDecoded : Prop :=
  ∀ (s : State) (p : ParseRun) (f : Subframe) (r : Residual) (i : Instr) (n : BitVec 5) (vs : List Int)
    (rest : List Bool), s.parse = some p → p.phase = .partition f r →
    (i = .partEsc4 n ∧ r.method = 0 ∨ i = .partEsc5 n ∧ r.method = 1) →
    vs.length = countOf f.blocksize f.order r.porder.toNat r.part → (∀ v ∈ vs, FieldValue n.toNat v) →
    streamBits s = vs.flatMap (signedBits n.toNat) ++ rest →
    ∃ resbuf, StoredRun s.resbuf resbuf r.idx vs
      ∧ exec i s = .next (afterPartition p f r vs.length
          { cursorMoved (vs.length * n.toNat) s with resbuf := resbuf })

/-- PARSE_SUBFRAME of a whole FIXED subframe, of any order, Rice method, partition order and mix of partitions, recovers
everything the stream encodes, and changes nothing else (spec/40_subframe.md R150, R157 to R161, R166;
spec/41_residual_rice.md R180). -/
def Obligations.ParseRecoversAnEncodedFixedSubframe : Prop :=
  ∀ (s : State) (k : Nat) (wflag : Bool) (z : Nat) (vs : List Int) (method : BitVec 1) (q : BitVec 4)
    (parts : List PartitionText) (rest : List Bool),
    Running .parse s → s.parse = none → EntryLegal s → k ≤ 4 → k ≤ s.blocksize.toNat →
    wastedOf wflag z < s.samplesize.toNat → vs.length = k → (∀ v ∈ vs, InSigned (widthOf s wflag z) v) →
    s.blocksize.toNat % 2 ^ q.toNat = 0 → k ≤ s.blocksize.toNat / 2 ^ q.toNat → parts.length = 2 ^ q.toNat →
    (∀ j (h : j < parts.length), parts[j].values.length = countOf s.blocksize.toNat k q.toNat j) →
    (∀ x ∈ parts, x.Legal (4 + method.toNat)) →
    streamBits s = headerBits (8 + k) wflag ++ wastedBits wflag z ++ vs.flatMap (signedBits (widthOf s wflag z))
      ++ natBits 2 method.toNat ++ natBits 4 q.toNat ++ parts.flatMap (PartitionText.bits (4 + method.toNat)) ++ rest →
    ∃ warm coef resbuf, FileHolds warm vs ∧ FileHolds coef []
      ∧ StoredRun s.resbuf resbuf 0 (parts.flatMap PartitionText.values)
      ∧ exec .cmdParseSubframe s = .next
          (committed (8 + k) (headValues s (8 + k) wflag z .fixed k) method.toNat q.toNat 0
            { cursorMoved ((streamBits s).length - rest.length) s with
              warm := warm, coef := coef, resbuf := resbuf })

/-- No instruction writes IBUF or a register that only the host writes, and a stream element leaves OBUF, the CRC
registers, REFUSED and the model's host fields alone, however it ends (spec/20_memory.md R89; spec/10_state.md R32). -/
def Obligations.InstructionsKeepTheHostsState : Prop :=
  ∀ (i : Instr) (s t : State), exec i s = .next t →
    (t.ibuf = s.ibuf ∧ t.ibufLen = s.ibufLen ∧ t.blocksize = s.blocksize ∧ t.samplesize = s.samplesize
      ∧ t.crcStart = s.crcStart ∧ t.crcEnd = s.crcEnd ∧ t.host = s.host ∧ t.turns = s.turns ∧ t.readData = s.readData)
    ∧ (i.slot ≠ .command → t.obuf = s.obuf ∧ t.crcCalc = s.crcCalc ∧ t.crcExpect = s.crcExpect ∧ t.refused = s.refused)

/-! ## RECONSTRUCT -/

/-- RECONSTRUCT with no held subframe raises NoSubframeError (spec/42_reconstruct.md R210; spec/10_state.md R42). -/
def Obligations.ReconstructNeedsASubframe : Prop :=
  ∀ s : State, Running .reconstruct s → s.sfValid = false →
    exec .cmdReconstruct s = .next (reconstructFault .noSubframe s)

/-- RECONSTRUCT of a CONSTANT subframe: B copies of the sample shifted by the wasted bits, the rest of OBUF and all else
kept (spec/42_reconstruct.md R211, R222). -/
def Obligations.ConstantSubframeIsReconstructed : Prop :=
  ∀ s : State, Running .reconstruct s → s.sfValid = true → s.sfKind = 1 → s.sfBlocksize.toNat ≤ 65536 →
    Fits64 (s.sfConst.toInt * 2 ^ s.sfWasted.toNat) →
    ∃ obuf, OutputIs s.obuf obuf s.sfBlocksize.toNat (fun _ => s.sfConst.toInt * 2 ^ s.sfWasted.toNat)
      ∧ exec .cmdReconstruct s = .next (reconstructed obuf s)

/-- RECONSTRUCT of a VERBATIM subframe: the samples of RESBUF shifted by the wasted bits (spec/42_reconstruct.md R212,
R222). -/
def Obligations.VerbatimSubframeIsReconstructed : Prop :=
  ∀ (s : State) (smp : Nat → Int), Running .reconstruct s → s.sfValid = true → s.sfKind = 2 →
    s.sfBlocksize.toNat ≤ 65536 → s.resbuf.wf →
    (∀ n, n < s.sfBlocksize.toNat → ∃ v, s.resbuf.read n = some v ∧ v.toInt = smp n) →
    (∀ n, n < s.sfBlocksize.toNat → Fits64 (smp n * 2 ^ s.sfWasted.toNat)) →
    ∃ obuf, OutputIs s.obuf obuf s.sfBlocksize.toNat (fun n => smp n * 2 ^ s.sfWasted.toNat)
      ∧ exec .cmdReconstruct s = .next (reconstructed obuf s)

/-- RECONSTRUCT of a FIXED or LPC subframe: the warm-up samples and then the predictor's, exact, shifted by the wasted
bits, where every value stays in 64 bits (spec/42_reconstruct.md R213 to R222). -/
def Obligations.PredictedSubframeIsReconstructed : Prop :=
  ∀ (s : State) (smp : Nat → Int), PredictedRun s → SamplesBelow s smp s.sfBlocksize.toNat →
    (∀ n, n < s.sfBlocksize.toNat → Fits64 (smp n * 2 ^ s.sfWasted.toNat)) →
    ∃ obuf, OutputIs s.obuf obuf s.sfBlocksize.toNat (fun n => smp n * 2 ^ s.sfWasted.toNat)
      ∧ exec .cmdReconstruct s = .next (reconstructed obuf s)

/-- RECONSTRUCT raises ArithmeticOverflowError where `acc` or a sample first leaves 64 bits, or, with every sample in
range, where a shifted one does (spec/42_reconstruct.md R221, R222; spec/60_exceptions.md R304). -/
def Obligations.PredictorOverflowFaults : Prop :=
  ∀ (s : State) (smp : Nat → Int) (m : Nat), PredictedRun s → SamplesBelow s smp m → m ≤ s.sfBlocksize.toNat →
    ((∃ v, s.sfOrder.toNat ≤ m ∧ m < s.sfBlocksize.toNat ∧ SampleIs s smp m v
        ∧ ¬ (Fits64 (accOf s smp m) ∧ Fits64 v)) →
      exec .cmdReconstruct s = .next (reconstructFault .arithmeticOverflow s))
    ∧ ((∃ n, m = s.sfBlocksize.toNat ∧ n < m ∧ ¬ Fits64 (smp n * 2 ^ s.sfWasted.toNat)) →
      exec .cmdReconstruct s = .next (reconstructFault .arithmeticOverflow s))

/-- RECONSTRUCT changes OBUF[0..B-1] and STATE only, so that a second one gives the same output
(spec/42_reconstruct.md R223). -/
def Obligations.ReconstructCanBeRepeated : Prop :=
  ∀ s t : State, Running .reconstruct s → exec .cmdReconstruct s = .next t → t.blockState = .done →
    t = reconstructed t.obuf s
    ∧ (∀ n, s.sfBlocksize.toNat ≤ n → t.obuf.read n = s.obuf.read n)
    ∧ ∃ u, exec .cmdReconstruct { t with blockState := .busy, pending := some .reconstruct } = .next u
      ∧ u.blockState = .done ∧ ∀ n, u.obuf.read n = t.obuf.read n

/-- In a legal state RECONSTRUCT of a held subframe never reads an unwritten element, and of a CONSTANT or VERBATIM one
never overflows (spec/42_reconstruct.md R211, R212; spec/10_state.md R42, R59). -/
def Obligations.HeldSubframesCanBeReconstructed : Prop :=
  ∀ s : State, Inv s → Running .reconstruct s → s.sfValid = true →
    ∃ t, exec .cmdReconstruct s = .next t ∧ ((s.sfKind = 1 ∨ s.sfKind = 2) → t.blockState = .done)

/-! ## VERIFY_CRC16 -/

/-- VERIFY_CRC16: CRC_CALC over the span, CRC_EXPECT big-endian from the two bytes after it, CRC_OK their equality,
CRC_VALID and DONE, all else kept (spec/43_crc16.md R240, R244). -/
def Obligations.VerifyComparesTheCrc : Prop :=
  ∀ (s : State) (bytes : Nat → Byte), Running .verify s → s.ibuf.wf → s.ibufLen.toNat ≤ Config.ibufBytes →
    s.crcStart.toNat ≤ s.crcEnd.toNat → s.crcEnd.toNat + 2 ≤ s.ibufLen.toNat →
    (∀ i, s.crcStart.toNat ≤ i → i < s.crcEnd.toNat + 2 → s.ibuf.read i = some (bytes i)) →
    ∃ c x : BitVec 16,
      c = crc16 ((List.range (s.crcEnd.toNat - s.crcStart.toNat)).map (fun i => bytes (s.crcStart.toNat + i)))
      ∧ x.toNat = (bytes s.crcEnd.toNat).toNat * 256 + (bytes (s.crcEnd.toNat + 1)).toNat
      ∧ exec .cmdVerifyCrc16 s = .next { s with
          crcCalc := c, crcExpect := x, crcOk := decide (c = x), crcValid := true
          blockState := .done, pending := none, parse := none }

/-- VERIFY_CRC16's entry checks, in order: IBUF_LEN, then the span, then the two bytes of the field
(spec/43_crc16.md R240; spec/60_exceptions.md R304). -/
def Obligations.VerifyChecksItsRegisters : Prop :=
  ∀ s : State, Running .verify s →
    (Config.ibufBytes < s.ibufLen.toNat → exec .cmdVerifyCrc16 s = .next (verifyFault .invalidConfig s))
    ∧ (s.crcEnd.toNat < s.crcStart.toNat → exec .cmdVerifyCrc16 s = .next (verifyFault .invalidConfig s))
    ∧ (s.ibufLen.toNat ≤ Config.ibufBytes → s.crcStart.toNat ≤ s.crcEnd.toNat →
      s.ibufLen.toNat < s.crcEnd.toNat + 2 → exec .cmdVerifyCrc16 s = .next (verifyFault .truncatedStream s))

/-- Crc16Byte in integers: the byte in at the top, then eight times a doubling modulo 2^16, with 0x8005 exclusive-ored in
where bit 15 was 1; and the CRC of a span is its run over the span's bytes from 0 (spec/43_crc16.md R241, R242). -/
def Obligations.CrcIsTheBitwiseRule : Prop :=
  (∀ (crc : BitVec 16) (b : Byte),
    (crcByte crc b).toNat
      = (List.range 8).foldl (fun c _ => if 2 ^ 15 ≤ c then (2 * c % 2 ^ 16) ^^^ 0x8005 else 2 * c % 2 ^ 16)
          (crc.toNat ^^^ (b.toNat * 2 ^ 8)))
    ∧ crc16 [] = 0 ∧ ∀ (bytes : List Byte) (b : Byte), crc16 (bytes ++ [b]) = crcByte (crc16 bytes) b

/-- The CRC of a span followed by two bytes is 0 exactly when they are the span's CRC, big-endian (spec/43_crc16.md
R246). -/
def Obligations.CrcResidueIsZero : Prop :=
  ∀ (bytes : List Byte) (hi lo : Byte), crc16 (bytes ++ [hi, lo]) = 0 ↔ crc16 bytes = hi ++ lo

/-- A byte at a time through a table of the 256 values of the bitwise rule gives the bitwise rule's CRC for every span
(spec/43_crc16.md R241, R247). -/
def Obligations.CrcTableEqualsBitwiseCrc : Prop :=
  ∀ bytes : List Byte,
    crc16 bytes
      = bytes.foldl (fun (crc : BitVec 16) b => (crc <<< 8) ^^^ crcByte 0 (crc.extractLsb' 8 8 ^^^ b)) 0

/-! ## The whole machine -/

/-- The state after reset is legal. -/
def Obligations.ResetStateIsLegal : Prop := Inv State.reset

/-- Every step keeps the legal states: the buffers' form, ERRCODE, PENDING, the CRC flags, and above all that SF_VALID = 1
means a whole held subframe, every residual written and in range (spec/10_state.md R41 to R59). -/
def Obligations.StepKeepsTheStateLegal : Prop :=
  ∀ s t : State, Inv s → step s = .next t → Inv t

/-- The cursor moves only in PARSE_SUBFRAME, by a host write of CUR_BYTE or CUR_BIT, and at reset (spec/10_state.md
R33). -/
def Obligations.OnlyParseAndTheHostMoveTheCursor : Prop :=
  ∀ s t : State, step s = .next t → (t.curByte, t.curBit) ≠ (s.curByte, s.curBit) →
    (s.blockState = .busy ∧ s.pending = some .parse)
      ∨ ∃ a as, s.host = a :: as ∧ (a = .reset ∨ ∃ v, a = .writeReg 3 v ∨ a = .writeReg 4 v)

/-- SF_VALID is set only by a successful PARSE_SUBFRAME, CRC_VALID and CRC_OK only by a successful VERIFY_CRC16, CRC_OK
only with equal CRCs, and ERRCODE changes only at a fault entry, from a state that is not FAULT, and to 0 by SOFT_RESET
and reset (spec/10_state.md R41, R65; spec/60_exceptions.md R309). -/
def Obligations.FlagsAreSetOnlyByTheirCommands : Prop :=
  ∀ s t : State, step s = .next t →
    (s.sfValid = false → t.sfValid = true → Running .parse s ∧ t.blockState = .done)
    ∧ (s.crcValid = false → t.crcValid = true → Running .verify s ∧ t.blockState = .done)
    ∧ (s.crcOk = false → t.crcOk = true → Running .verify s ∧ t.blockState = .done ∧ t.crcCalc = t.crcExpect)
    ∧ (t.errcode ≠ s.errcode →
      s.blockState ≠ .fault ∧ t.blockState = .fault
        ∨ t.blockState = .idle ∧ t.errcode = 0
          ∧ ∃ as, s.host = .reset :: as ∨ s.host = .writeReg 0 0x0000000F :: as)
end

