-- ==== Sys2Proof/Laws/Bits.lean ====
section
/-! SUPPORT. Bit laws: reading fields back, and what a read can answer (spec/20_memory.md R84, R87). -/
namespace Sys2Proof

@[simp] theorem length_natBits (n v : Nat) : (natBits n v).length = n := by
  induction n generalizing v with
  | zero => rfl
  | succ n ih => simp [natBits, ih]

theorem readBitsFrom_natBits (v n w : Nat) (rest : List Bool) :
    readBitsFrom v n (natBits n w ++ rest) = some (v * 2 ^ n + w % 2 ^ n, rest) := by
  induction n generalizing v with
  | zero => simp [natBits, readBitsFrom, Nat.mod_one]
  | succ n ih =>
    simp only [natBits, List.cons_append, readBitsFrom, ih, Nat.toNat_testBit]
    rw [Nat.mod_pow_succ]
    congr 2
    ring

/-- ReadBits(n) reads an n-bit field back. -/
theorem readBits_natBits (n w : Nat) (rest : List Bool) :
    readBits n (natBits n w ++ rest) = some (w % 2 ^ n, rest) := by
  simp [readBits, readBitsFrom_natBits]

theorem natBits_add_mul (n m w a : Nat) (h : n ≤ m) : natBits n (a * 2 ^ m + w) = natBits n w := by
  induction n with
  | zero => rfl
  | succ n ih =>
    simp only [natBits, ih (by omega), List.cons.injEq, and_true]
    rw [show a * 2 ^ m = 2 ^ m * a by ring, Nat.testBit_eq_decide_div_mod_eq, Nat.testBit_eq_decide_div_mod_eq]
    obtain ⟨d, rfl⟩ : ∃ d, m = n + 1 + d := ⟨m - (n + 1), by omega⟩
    congr 2
    rw [show 2 ^ (n + 1 + d) * a + w = w + 2 ^ n * (2 * (2 ^ d * a)) by ring, Nat.add_mul_div_left _ _ (by positivity)]
    omega

/-- Bits that are there are the field of their value. -/
theorem exists_natBits (n : Nat) (bits : List Bool) (h : bits.length = n) : ∃ w, w < 2 ^ n ∧ bits = natBits n w := by
  induction bits generalizing n with
  | nil => subst h; exact ⟨0, by simp, rfl⟩
  | cons b bits ih =>
    obtain ⟨w, hw, e⟩ := ih bits.length rfl
    subst h
    refine ⟨b.toNat * 2 ^ bits.length + w, ?_, ?_⟩
    · rw [List.length_cons, Nat.pow_succ]; cases b <;> simp <;> omega
    · simp only [natBits, List.length_cons, natBits_add_mul _ _ _ _ le_rfl, ← e, List.cons.injEq, and_true]
      rw [Nat.testBit_eq_decide_div_mod_eq, Nat.add_comm, Nat.add_mul_div_right _ _ (by positivity),
        Nat.div_eq_of_lt hw]
      cases b <;> rfl

theorem readBitsFrom_short (v n : Nat) (bits : List Bool) (h : bits.length < n) : readBitsFrom v n bits = none := by
  induction n generalizing v bits with
  | zero => simp at h
  | succ n ih =>
    cases bits with
    | nil => rfl
    | cons b bits => exact ih _ _ (by simpa using h)

/-- ReadBits(n) stops where fewer than n bits are there. -/
theorem readBits_short (n : Nat) (bits : List Bool) (h : bits.length < n) : readBits n bits = none :=
  readBitsFrom_short 0 n bits h

/-- What ReadBits(n) answers: nothing, with too few bits there, or the value of the first n. -/
theorem readBits_cases (n : Nat) (bits : List Bool) :
    (bits.length < n ∧ readBits n bits = none)
      ∨ ∃ w rest, w < 2 ^ n ∧ bits = natBits n w ++ rest ∧ readBits n bits = some (w, rest) := by
  rcases Nat.lt_or_ge bits.length n with h | h
  · exact .inl ⟨h, readBits_short n bits h⟩
  · obtain ⟨w, hw, e⟩ := exists_natBits n (bits.take n) (by simpa using h)
    have hb : bits = natBits n w ++ bits.drop n := by rw [← e, List.take_append_drop]
    exact .inr ⟨w, bits.drop n, hw, hb, by conv_lhs => rw [hb, readBits_natBits, Nat.mod_eq_of_lt hw]⟩

theorem readBits_eq_some {n : Nat} {bits rest : List Bool} {w : Nat} (h : readBits n bits = some (w, rest)) :
    w < 2 ^ n ∧ bits = natBits n w ++ rest := by
  rcases readBits_cases n bits with ⟨-, e⟩ | ⟨w', rest', hw, e, r⟩
  · rw [e] at h; cases h
  · rw [r] at h; cases h; exact ⟨hw, e⟩

theorem getElem?_natBits (n w j : Nat) (h : j < n) : (natBits n w)[j]? = some (w.testBit (n - 1 - j)) := by
  induction n generalizing j with
  | zero => simp at h
  | succ n ih =>
    cases j with
    | zero => simp [natBits]
    | succ j => simp only [natBits, List.getElem?_cons_succ, ih j (by omega)]; congr 2; omega


/-- ReadUnary() reads a unary run back. -/
theorem readUnary_unaryBits (z : Nat) (rest : List Bool) : readUnary (unaryBits z ++ rest) = some (z, rest) := by
  induction z with
  | zero => rfl
  | succ z ih =>
    have : unaryBits (z + 1) ++ rest = false :: (unaryBits z ++ rest) := by simp [unaryBits, List.replicate_succ]
    rw [this, readUnary, ih]

theorem readUnary_replicate (n : Nat) : readUnary (List.replicate n false) = none := by
  induction n with
  | zero => rfl
  | succ n ih => rw [List.replicate_succ, readUnary, ih]

/-- What ReadUnary() answers: nothing, with no 1 bit there, or the run. -/
theorem readUnary_cases (bits : List Bool) :
    ((∃ n, bits = List.replicate n false) ∧ readUnary bits = none)
      ∨ ∃ z rest, bits = unaryBits z ++ rest ∧ readUnary bits = some (z, rest) := by
  induction bits with
  | nil => exact .inl ⟨⟨0, rfl⟩, rfl⟩
  | cons b bits ih =>
    cases b with
    | true => exact .inr ⟨0, bits, rfl, rfl⟩
    | false =>
      rcases ih with ⟨⟨n, rfl⟩, e⟩ | ⟨z, rest, rfl, e⟩
      · exact .inl ⟨⟨n + 1, rfl⟩, by rw [readUnary, e]⟩
      · exact .inr ⟨z + 1, rest, by simp [unaryBits, List.replicate_succ], by rw [readUnary, e]⟩

@[simp] theorem length_unaryBits (z : Nat) : (unaryBits z).length = z + 1 := by simp [unaryBits]

@[simp] theorem length_signedBits (n : Nat) (v : Int) : (signedBits n v).length = n := length_natBits _ _

@[simp] theorem length_wastedBits (wflag : Bool) (z : Nat) :
    (wastedBits wflag z).length = if wflag then z + 1 else 0 := by cases wflag <;> simp [wastedBits]

end Sys2Proof
end

