-- ==== Sys2Proof/Laws/Memory.lean ====
section
/-! SUPPORT. Memory laws: reading what was written, and the canonical form (spec/10_state.md R64). -/

namespace Sys2Proof.Machine

variable {α : Type}

@[simp] theorem read_nil (i : Nat) : Memory.read ([] : Memory α) i = none := rfl

theorem read_cons (c : Nat × α) (m : Memory α) (i : Nat) :
    Memory.read (c :: m) i = if c.1 = i then some c.2 else Memory.read m i := rfl

theorem read_append (m n : Memory α) (i : Nat) :
    Memory.read (m ++ n) i = (Memory.read m i).or (Memory.read n i) := by
  induction m with
  | nil => simp
  | cons c m ih => by_cases h : c.1 = i <;> simp [read_cons, h, ih]

theorem read_filter_of_keeps (m : Memory α) (p : Nat → Bool) (i : Nat) (h : p i = true) :
    Memory.read (m.filter (fun c => p c.1)) i = Memory.read m i := by
  induction m with
  | nil => rfl
  | cons c m ih =>
    by_cases hc : c.1 = i
    · simp [hc, h, read_cons]
    · by_cases hp : p c.1 = true <;> simp [hp, read_cons, hc, ih]

theorem read_filter_of_drops (m : Memory α) (p : Nat → Bool) (i : Nat) (h : p i = false) :
    Memory.read (m.filter (fun c => p c.1)) i = none := by
  induction m with
  | nil => rfl
  | cons c m ih =>
    by_cases hp : p c.1 = true
    · have : c.1 ≠ i := by rintro rfl; simp [h] at hp
      simp [hp, read_cons, this, ih]
    · simp [hp, ih]

theorem read_cellsFrom (i : Nat) (vs : List α) (j : Nat) :
    Memory.read (cellsFrom i vs) j = if i ≤ j then vs[j - i]? else none := by
  induction vs generalizing i with
  | nil => simp [cellsFrom]
  | cons v vs ih =>
    simp only [cellsFrom, read_cons, ih]
    rcases Nat.lt_trichotomy i j with h | rfl | h
    · obtain ⟨k, rfl⟩ : ∃ k, j = i + 1 + k := ⟨j - (i + 1), by omega⟩
      simp [show i ≠ i + 1 + k by omega, show i ≤ i + 1 + k by omega, show i + 1 + k - i = k + 1 by omega]
    · simp
    · simp [show i ≠ j by omega, show ¬ i ≤ j by omega, show ¬ i + 1 ≤ j by omega]

/-- Reading after a run of writes: the value written, or the old one beside the run. -/
theorem read_writeRun (m : Memory α) (i : Nat) (vs : List α) (j : Nat) :
    (m.writeRun i vs).read j = if i ≤ j ∧ j < i + vs.length then vs[j - i]? else m.read j := by
  have lowPart := read_filter_of_keeps m (fun k => decide (k < i)) j
  have lowNone := read_filter_of_drops m (fun k => decide (k < i)) j
  have highPart := read_filter_of_keeps m (fun k => decide (i + vs.length ≤ k)) j
  have highNone := read_filter_of_drops m (fun k => decide (i + vs.length ≤ k)) j
  simp only [Memory.writeRun, read_append, read_cellsFrom, decide_eq_true_eq, decide_eq_false_iff_not, not_lt,
    not_le] at *
  by_cases h1 : j < i
  · rw [lowPart h1, highNone (by omega)]
    simp [show ¬ i ≤ j by omega]
  · by_cases h2 : j < i + vs.length
    · rw [lowNone (by omega), highNone h2]
      simp [show i ≤ j by omega, h2]
    · rw [lowNone (by omega), highPart (by omega)]
      simp [show i ≤ j by omega, h2, List.getElem?_eq_none (show vs.length ≤ j - i by omega)]

/-- Reading an element of the run just written. -/
theorem read_writeRun_inside (m : Memory α) (i : Nat) (vs : List α) (j : Nat) (h : j < vs.length) :
    (m.writeRun i vs).read (i + j) = some vs[j] := by
  rw [read_writeRun, if_pos (by omega), Nat.add_sub_cancel_left]
  exact List.getElem?_eq_getElem h

/-- Reading beside the run just written. -/
theorem read_writeRun_outside (m : Memory α) (i : Nat) (vs : List α) (j : Nat) (h : j < i ∨ i + vs.length ≤ j) :
    (m.writeRun i vs).read j = m.read j := by
  rw [read_writeRun, if_neg (by omega)]

/-- Reading after one write. -/
theorem read_write (m : Memory α) (i : Nat) (v : α) (j : Nat) :
    (m.write i v).read j = if i = j then some v else m.read j := by
  rw [Memory.write, read_writeRun]
  by_cases h : i = j
  · subst h; simp
  · rw [if_neg h, if_neg (by simp only [List.length_singleton]; omega)]

theorem mem_cellsFrom {i : Nat} {vs : List α} {c : Nat × α} (h : c ∈ cellsFrom i vs) :
    i ≤ c.1 ∧ c.1 < i + vs.length := by
  induction vs generalizing i with
  | nil => simp [cellsFrom] at h
  | cons v vs ih =>
    rcases List.mem_cons.1 h with rfl | h
    · simp
    · have := ih h; simp only [List.length_cons]; omega

theorem cellsFrom_wf (i : Nat) (vs : List α) : (cellsFrom i vs).wf := by
  induction vs generalizing i with
  | nil => exact List.Pairwise.nil
  | cons v vs ih => exact List.Pairwise.cons (fun c hc => (mem_cellsFrom hc).1) (ih (i + 1))

/-- A run of writes keeps the canonical form. -/
theorem writeRun_wf {m : Memory α} (h : m.wf) (i : Nat) (vs : List α) : (m.writeRun i vs).wf := by
  simp only [Memory.writeRun, Memory.wf, List.pairwise_append]
  refine ⟨⟨h.filter _, cellsFrom_wf i vs, fun a ha b hb => ?_⟩, h.filter _, fun a ha b hb => ?_⟩
  · have := (mem_cellsFrom hb).1
    simp only [List.mem_filter, decide_eq_true_eq] at ha
    omega
  · simp only [List.mem_filter, decide_eq_true_eq] at hb
    rcases List.mem_append.1 ha with ha | ha
    · simp only [List.mem_filter, decide_eq_true_eq] at ha; omega
    · have := (mem_cellsFrom ha).2; omega

/-- One write keeps the canonical form. -/
theorem write_wf {m : Memory α} (h : m.wf) (i : Nat) (v : α) : (m.write i v).wf := writeRun_wf h i [v]

/-- A run of writes below a depth keeps the buffer below it. -/
theorem writeRun_bound {m : Memory α} {n : Nat} (h : ∀ c ∈ m, c.1 < n) (i : Nat) (vs : List α)
    (hb : i + vs.length ≤ n) : ∀ c ∈ m.writeRun i vs, c.1 < n := by
  intro c hc
  simp only [Memory.writeRun, List.mem_append, List.mem_filter] at hc
  rcases hc with (⟨hc, _⟩ | hc) | ⟨hc, _⟩
  · exact h c hc
  · have := (mem_cellsFrom hc).2; omega
  · exact h c hc

theorem read_of_lt_all {m : Memory α} {i : Nat} (h : ∀ c ∈ m, i < c.1) : m.read i = none := by
  induction m with
  | nil => rfl
  | cons c m ih =>
    have h1 := h c (by simp)
    rw [read_cons, if_neg (by omega), ih (fun d hd => h d (by simp [hd]))]

theorem runFrom_of_lt_all {m : Memory α} {i : Nat} (h : ∀ c ∈ m, i < c.1) : m.runFrom i = [] := by
  cases m with
  | nil => rfl
  | cons c m =>
    have := h c (by simp)
    obtain ⟨a, v⟩ := c
    simp only [Memory.runFrom]
    rw [if_neg (by omega), if_neg (by omega)]

/-- The run of written elements from an index is what reads there give, up to the first unwritten one. -/
theorem getElem?_runFrom {m : Memory α} (h : m.wf) (i : Nat) :
    (∀ j, (m.runFrom i)[j]? = none → ∃ k, k ≤ j ∧ m.read (i + k) = none)
      ∧ ∀ j v, (m.runFrom i)[j]? = some v → m.read (i + j) = some v := by
  induction m generalizing i with
  | nil => exact ⟨fun j _ => ⟨0, by simp, rfl⟩, fun j v hj => by simp [Memory.runFrom] at hj⟩
  | cons c m ih =>
    obtain ⟨a, w⟩ := c
    have hrest : Memory.wf m := (List.pairwise_cons.1 h).2
    have hlt : ∀ c ∈ m, a < c.1 := (List.pairwise_cons.1 h).1
    rcases Nat.lt_trichotomy a i with hai | rfl | hai
    · simp only [Memory.runFrom, if_pos hai]
      refine ⟨fun j hj => ?_, fun j v hj => ?_⟩
      · obtain ⟨k, hk, hr⟩ := (ih hrest i).1 j hj
        exact ⟨k, hk, by rw [read_cons, if_neg (by simp only; omega), hr]⟩
      · rw [read_cons, if_neg (by simp only; omega)]; exact (ih hrest i).2 j v hj
    · simp only [Memory.runFrom, lt_irrefl, if_false, if_true]
      refine ⟨fun j hj => ?_, fun j v hj => ?_⟩
      · cases j with
        | zero => simp at hj
        | succ j =>
          obtain ⟨k, hk, hr⟩ := (ih hrest (a + 1)).1 j (by simpa using hj)
          exact ⟨k + 1, by omega, by rw [read_cons, if_neg (by simp only; omega), ← hr]; congr 1; omega⟩
      · cases j with
        | zero => simpa [read_cons] using hj
        | succ j =>
          have := (ih hrest (a + 1)).2 j v (by simpa using hj)
          rw [read_cons, if_neg (by simp only; omega), ← this]; congr 1; omega
    · simp only [Memory.runFrom, if_neg (show ¬ a < i by omega), if_neg (show ¬ a = i by omega)]
      refine ⟨fun j _ => ⟨0, by simp, ?_⟩, fun j v hj => by simp at hj⟩
      exact read_of_lt_all (fun c hc => by
        rcases List.mem_cons.1 hc with rfl | hc
        · exact hai
        · have := hlt c hc; omega)

/-- A slice has its elements from the buffer. -/
theorem read_of_slice {m : Memory α} (h : m.wf) {i n j : Nat} (hj : j < (m.slice i n).length) :
    m.read (i + j) = some ((m.slice i n)[j]) := by
  apply (getElem?_runFrom h i).2
  have hlt := hj
  simp only [Memory.slice, List.length_take] at hlt
  simp only [Memory.slice, List.getElem_take]
  exact List.getElem?_eq_getElem (by omega)

/-- A slice ends early only at an unwritten element. -/
theorem read_after_slice {m : Memory α} (h : m.wf) {i n : Nat} (hn : (m.slice i n).length < n) :
    m.read (i + (m.slice i n).length) = none := by
  have hl : (m.slice i n).length = (m.runFrom i).length := by
    simp only [Memory.slice, List.length_take] at hn ⊢; omega
  obtain ⟨k, hk, hr⟩ := (getElem?_runFrom h i).1 (m.runFrom i).length (by simp)
  rcases Nat.lt_or_ge k (m.runFrom i).length with hlt | hge
  · have := (getElem?_runFrom h i).2 k _ (List.getElem?_eq_getElem hlt)
    rw [this] at hr; cases hr
  · rw [hl, show (m.runFrom i).length = k by omega, hr]

theorem length_slice_le (m : Memory α) (i n : Nat) : (m.slice i n).length ≤ n := by
  simp only [Memory.slice, List.length_take]; omega

/-- A slice over written elements is those elements. -/
theorem slice_eq {m : Memory α} (h : m.wf) {i : Nat} {vs : List α}
    (hv : ∀ j (hj : j < vs.length), m.read (i + j) = some vs[j]) : m.slice i vs.length = vs := by
  have hlen : (m.slice i vs.length).length = vs.length := by
    rcases Nat.lt_or_ge (m.slice i vs.length).length vs.length with hlt | hge
    · have := read_after_slice h hlt
      rw [hv _ hlt] at this; cases this
    · have := length_slice_le m i vs.length; omega
  refine List.ext_getElem hlen (fun j h1 h2 => ?_)
  have := read_of_slice h h1
  rw [hv j h2] at this
  exact (Option.some.inj this).symm

end Sys2Proof.Machine
end

