-- ==== Sys2Proof/Laws/State.lean ====
section
/-! SUPPORT. State laws: each named update of State, field by field. The free values of a fault have no lemma: no claim
may rest on one. -/

namespace Sys2Proof.Machine

section setCursorFields
variable (s : State) (a : Nat)
@[simp] theorem setCursor_blockState : (setCursor s a).blockState = s.blockState := rfl
@[simp] theorem setCursor_sfValid : (setCursor s a).sfValid = s.sfValid := rfl
@[simp] theorem setCursor_crcValid : (setCursor s a).crcValid = s.crcValid := rfl
@[simp] theorem setCursor_crcOk : (setCursor s a).crcOk = s.crcOk := rfl
@[simp] theorem setCursor_errcode : (setCursor s a).errcode = s.errcode := rfl
@[simp] theorem setCursor_ibufLen : (setCursor s a).ibufLen = s.ibufLen := rfl
@[simp] theorem setCursor_curByte : (setCursor s a).curByte = BitVec.ofNat 32 (a / 8) := rfl
@[simp] theorem setCursor_curBit : (setCursor s a).curBit = BitVec.ofNat 3 (a % 8) := rfl
@[simp] theorem setCursor_blocksize : (setCursor s a).blocksize = s.blocksize := rfl
@[simp] theorem setCursor_samplesize : (setCursor s a).samplesize = s.samplesize := rfl
@[simp] theorem setCursor_crcStart : (setCursor s a).crcStart = s.crcStart := rfl
@[simp] theorem setCursor_crcEnd : (setCursor s a).crcEnd = s.crcEnd := rfl
@[simp] theorem setCursor_crcCalc : (setCursor s a).crcCalc = s.crcCalc := rfl
@[simp] theorem setCursor_crcExpect : (setCursor s a).crcExpect = s.crcExpect := rfl
@[simp] theorem setCursor_sfType : (setCursor s a).sfType = s.sfType := rfl
@[simp] theorem setCursor_sfKind : (setCursor s a).sfKind = s.sfKind := rfl
@[simp] theorem setCursor_sfOrder : (setCursor s a).sfOrder = s.sfOrder := rfl
@[simp] theorem setCursor_sfWasted : (setCursor s a).sfWasted = s.sfWasted := rfl
@[simp] theorem setCursor_sfWidth : (setCursor s a).sfWidth = s.sfWidth := rfl
@[simp] theorem setCursor_sfBlocksize : (setCursor s a).sfBlocksize = s.sfBlocksize := rfl
@[simp] theorem setCursor_lpcPrec : (setCursor s a).lpcPrec = s.lpcPrec := rfl
@[simp] theorem setCursor_lpcShift : (setCursor s a).lpcShift = s.lpcShift := rfl
@[simp] theorem setCursor_resMethod : (setCursor s a).resMethod = s.resMethod := rfl
@[simp] theorem setCursor_resPorder : (setCursor s a).resPorder = s.resPorder := rfl
@[simp] theorem setCursor_sfConst : (setCursor s a).sfConst = s.sfConst := rfl
@[simp] theorem setCursor_warm : (setCursor s a).warm = s.warm := rfl
@[simp] theorem setCursor_coef : (setCursor s a).coef = s.coef := rfl
@[simp] theorem setCursor_ibuf : (setCursor s a).ibuf = s.ibuf := rfl
@[simp] theorem setCursor_resbuf : (setCursor s a).resbuf = s.resbuf := rfl
@[simp] theorem setCursor_obuf : (setCursor s a).obuf = s.obuf := rfl
@[simp] theorem setCursor_pending : (setCursor s a).pending = s.pending := rfl
@[simp] theorem setCursor_refused : (setCursor s a).refused = s.refused := rfl
@[simp] theorem setCursor_parse : (setCursor s a).parse = s.parse := rfl
@[simp] theorem setCursor_host : (setCursor s a).host = s.host := rfl
@[simp] theorem setCursor_turns : (setCursor s a).turns = s.turns := rfl
@[simp] theorem setCursor_readData : (setCursor s a).readData = s.readData := rfl
@[simp] theorem setCursor_draws : (setCursor s a).draws = s.draws := rfl
end setCursorFields

section advanceFields
variable (s : State) (n : Nat)
@[simp] theorem advance_blockState : (advance s n).blockState = s.blockState := rfl
@[simp] theorem advance_sfValid : (advance s n).sfValid = s.sfValid := rfl
@[simp] theorem advance_crcValid : (advance s n).crcValid = s.crcValid := rfl
@[simp] theorem advance_crcOk : (advance s n).crcOk = s.crcOk := rfl
@[simp] theorem advance_errcode : (advance s n).errcode = s.errcode := rfl
@[simp] theorem advance_ibufLen : (advance s n).ibufLen = s.ibufLen := rfl
@[simp] theorem advance_curByte : (advance s n).curByte = BitVec.ofNat 32 ((bitAddress s.curByte s.curBit + n) / 8) := rfl
@[simp] theorem advance_curBit : (advance s n).curBit = BitVec.ofNat 3 ((bitAddress s.curByte s.curBit + n) % 8) := rfl
@[simp] theorem advance_blocksize : (advance s n).blocksize = s.blocksize := rfl
@[simp] theorem advance_samplesize : (advance s n).samplesize = s.samplesize := rfl
@[simp] theorem advance_crcStart : (advance s n).crcStart = s.crcStart := rfl
@[simp] theorem advance_crcEnd : (advance s n).crcEnd = s.crcEnd := rfl
@[simp] theorem advance_crcCalc : (advance s n).crcCalc = s.crcCalc := rfl
@[simp] theorem advance_crcExpect : (advance s n).crcExpect = s.crcExpect := rfl
@[simp] theorem advance_sfType : (advance s n).sfType = s.sfType := rfl
@[simp] theorem advance_sfKind : (advance s n).sfKind = s.sfKind := rfl
@[simp] theorem advance_sfOrder : (advance s n).sfOrder = s.sfOrder := rfl
@[simp] theorem advance_sfWasted : (advance s n).sfWasted = s.sfWasted := rfl
@[simp] theorem advance_sfWidth : (advance s n).sfWidth = s.sfWidth := rfl
@[simp] theorem advance_sfBlocksize : (advance s n).sfBlocksize = s.sfBlocksize := rfl
@[simp] theorem advance_lpcPrec : (advance s n).lpcPrec = s.lpcPrec := rfl
@[simp] theorem advance_lpcShift : (advance s n).lpcShift = s.lpcShift := rfl
@[simp] theorem advance_resMethod : (advance s n).resMethod = s.resMethod := rfl
@[simp] theorem advance_resPorder : (advance s n).resPorder = s.resPorder := rfl
@[simp] theorem advance_sfConst : (advance s n).sfConst = s.sfConst := rfl
@[simp] theorem advance_warm : (advance s n).warm = s.warm := rfl
@[simp] theorem advance_coef : (advance s n).coef = s.coef := rfl
@[simp] theorem advance_ibuf : (advance s n).ibuf = s.ibuf := rfl
@[simp] theorem advance_resbuf : (advance s n).resbuf = s.resbuf := rfl
@[simp] theorem advance_obuf : (advance s n).obuf = s.obuf := rfl
@[simp] theorem advance_pending : (advance s n).pending = s.pending := rfl
@[simp] theorem advance_refused : (advance s n).refused = s.refused := rfl
@[simp] theorem advance_parse : (advance s n).parse = s.parse := rfl
@[simp] theorem advance_host : (advance s n).host = s.host := rfl
@[simp] theorem advance_turns : (advance s n).turns = s.turns := rfl
@[simp] theorem advance_readData : (advance s n).readData = s.readData := rfl
@[simp] theorem advance_draws : (advance s n).draws = s.draws := rfl
end advanceFields

section refuseFields
variable (s : State)
@[simp] theorem refuse_blockState : (refuse s).blockState = s.blockState := rfl
@[simp] theorem refuse_sfValid : (refuse s).sfValid = s.sfValid := rfl
@[simp] theorem refuse_crcValid : (refuse s).crcValid = s.crcValid := rfl
@[simp] theorem refuse_crcOk : (refuse s).crcOk = s.crcOk := rfl
@[simp] theorem refuse_errcode : (refuse s).errcode = s.errcode := rfl
@[simp] theorem refuse_ibufLen : (refuse s).ibufLen = s.ibufLen := rfl
@[simp] theorem refuse_curByte : (refuse s).curByte = s.curByte := rfl
@[simp] theorem refuse_curBit : (refuse s).curBit = s.curBit := rfl
@[simp] theorem refuse_blocksize : (refuse s).blocksize = s.blocksize := rfl
@[simp] theorem refuse_samplesize : (refuse s).samplesize = s.samplesize := rfl
@[simp] theorem refuse_crcStart : (refuse s).crcStart = s.crcStart := rfl
@[simp] theorem refuse_crcEnd : (refuse s).crcEnd = s.crcEnd := rfl
@[simp] theorem refuse_crcCalc : (refuse s).crcCalc = s.crcCalc := rfl
@[simp] theorem refuse_crcExpect : (refuse s).crcExpect = s.crcExpect := rfl
@[simp] theorem refuse_sfType : (refuse s).sfType = s.sfType := rfl
@[simp] theorem refuse_sfKind : (refuse s).sfKind = s.sfKind := rfl
@[simp] theorem refuse_sfOrder : (refuse s).sfOrder = s.sfOrder := rfl
@[simp] theorem refuse_sfWasted : (refuse s).sfWasted = s.sfWasted := rfl
@[simp] theorem refuse_sfWidth : (refuse s).sfWidth = s.sfWidth := rfl
@[simp] theorem refuse_sfBlocksize : (refuse s).sfBlocksize = s.sfBlocksize := rfl
@[simp] theorem refuse_lpcPrec : (refuse s).lpcPrec = s.lpcPrec := rfl
@[simp] theorem refuse_lpcShift : (refuse s).lpcShift = s.lpcShift := rfl
@[simp] theorem refuse_resMethod : (refuse s).resMethod = s.resMethod := rfl
@[simp] theorem refuse_resPorder : (refuse s).resPorder = s.resPorder := rfl
@[simp] theorem refuse_sfConst : (refuse s).sfConst = s.sfConst := rfl
@[simp] theorem refuse_warm : (refuse s).warm = s.warm := rfl
@[simp] theorem refuse_coef : (refuse s).coef = s.coef := rfl
@[simp] theorem refuse_ibuf : (refuse s).ibuf = s.ibuf := rfl
@[simp] theorem refuse_resbuf : (refuse s).resbuf = s.resbuf := rfl
@[simp] theorem refuse_obuf : (refuse s).obuf = s.obuf := rfl
@[simp] theorem refuse_pending : (refuse s).pending = s.pending := rfl
@[simp] theorem refuse_refused : (refuse s).refused = true := rfl
@[simp] theorem refuse_parse : (refuse s).parse = s.parse := rfl
@[simp] theorem refuse_host : (refuse s).host = s.host := rfl
@[simp] theorem refuse_turns : (refuse s).turns = s.turns := rfl
@[simp] theorem refuse_readData : (refuse s).readData = s.readData := rfl
@[simp] theorem refuse_draws : (refuse s).draws = s.draws := rfl
end refuseFields

section faultEntryFields
variable (e : ErrorCode) (s : State)
@[simp] theorem faultEntry_blockState : (faultEntry e s).blockState = .fault := rfl
@[simp] theorem faultEntry_sfValid : (faultEntry e s).sfValid = false := rfl
@[simp] theorem faultEntry_crcValid : (faultEntry e s).crcValid = false := rfl
@[simp] theorem faultEntry_crcOk : (faultEntry e s).crcOk = false := rfl
@[simp] theorem faultEntry_errcode : (faultEntry e s).errcode = errorByte e := rfl
@[simp] theorem faultEntry_ibufLen : (faultEntry e s).ibufLen = s.ibufLen := rfl
@[simp] theorem faultEntry_curByte : (faultEntry e s).curByte = s.curByte := rfl
@[simp] theorem faultEntry_curBit : (faultEntry e s).curBit = s.curBit := rfl
@[simp] theorem faultEntry_blocksize : (faultEntry e s).blocksize = s.blocksize := rfl
@[simp] theorem faultEntry_samplesize : (faultEntry e s).samplesize = s.samplesize := rfl
@[simp] theorem faultEntry_crcStart : (faultEntry e s).crcStart = s.crcStart := rfl
@[simp] theorem faultEntry_crcEnd : (faultEntry e s).crcEnd = s.crcEnd := rfl
@[simp] theorem faultEntry_crcCalc : (faultEntry e s).crcCalc = s.crcCalc := rfl
@[simp] theorem faultEntry_crcExpect : (faultEntry e s).crcExpect = s.crcExpect := rfl
@[simp] theorem faultEntry_sfType : (faultEntry e s).sfType = s.sfType := rfl
@[simp] theorem faultEntry_sfKind : (faultEntry e s).sfKind = s.sfKind := rfl
@[simp] theorem faultEntry_sfOrder : (faultEntry e s).sfOrder = s.sfOrder := rfl
@[simp] theorem faultEntry_sfWasted : (faultEntry e s).sfWasted = s.sfWasted := rfl
@[simp] theorem faultEntry_sfWidth : (faultEntry e s).sfWidth = s.sfWidth := rfl
@[simp] theorem faultEntry_sfBlocksize : (faultEntry e s).sfBlocksize = s.sfBlocksize := rfl
@[simp] theorem faultEntry_lpcPrec : (faultEntry e s).lpcPrec = s.lpcPrec := rfl
@[simp] theorem faultEntry_lpcShift : (faultEntry e s).lpcShift = s.lpcShift := rfl
@[simp] theorem faultEntry_resMethod : (faultEntry e s).resMethod = s.resMethod := rfl
@[simp] theorem faultEntry_resPorder : (faultEntry e s).resPorder = s.resPorder := rfl
@[simp] theorem faultEntry_sfConst : (faultEntry e s).sfConst = s.sfConst := rfl
@[simp] theorem faultEntry_warm : (faultEntry e s).warm = s.warm := rfl
@[simp] theorem faultEntry_coef : (faultEntry e s).coef = s.coef := rfl
@[simp] theorem faultEntry_ibuf : (faultEntry e s).ibuf = s.ibuf := rfl
@[simp] theorem faultEntry_resbuf : (faultEntry e s).resbuf = s.resbuf := rfl
@[simp] theorem faultEntry_obuf : (faultEntry e s).obuf = s.obuf := rfl
@[simp] theorem faultEntry_pending : (faultEntry e s).pending = none := rfl
@[simp] theorem faultEntry_refused : (faultEntry e s).refused = s.refused := rfl
@[simp] theorem faultEntry_parse : (faultEntry e s).parse = none := rfl
@[simp] theorem faultEntry_host : (faultEntry e s).host = s.host := rfl
@[simp] theorem faultEntry_turns : (faultEntry e s).turns = s.turns := rfl
@[simp] theorem faultEntry_readData : (faultEntry e s).readData = s.readData := rfl
@[simp] theorem faultEntry_draws : (faultEntry e s).draws = s.draws := rfl
end faultEntryFields

section softResetFields
variable (s : State)
@[simp] theorem softReset_blockState : (softReset s).blockState = .idle := rfl
@[simp] theorem softReset_sfValid : (softReset s).sfValid = false := rfl
@[simp] theorem softReset_crcValid : (softReset s).crcValid = false := rfl
@[simp] theorem softReset_crcOk : (softReset s).crcOk = false := rfl
@[simp] theorem softReset_errcode : (softReset s).errcode = 0 := rfl
@[simp] theorem softReset_ibufLen : (softReset s).ibufLen = s.ibufLen := rfl
@[simp] theorem softReset_curByte : (softReset s).curByte = s.curByte := rfl
@[simp] theorem softReset_curBit : (softReset s).curBit = s.curBit := rfl
@[simp] theorem softReset_blocksize : (softReset s).blocksize = s.blocksize := rfl
@[simp] theorem softReset_samplesize : (softReset s).samplesize = s.samplesize := rfl
@[simp] theorem softReset_crcStart : (softReset s).crcStart = s.crcStart := rfl
@[simp] theorem softReset_crcEnd : (softReset s).crcEnd = s.crcEnd := rfl
@[simp] theorem softReset_crcCalc : (softReset s).crcCalc = s.crcCalc := rfl
@[simp] theorem softReset_crcExpect : (softReset s).crcExpect = s.crcExpect := rfl
@[simp] theorem softReset_sfType : (softReset s).sfType = s.sfType := rfl
@[simp] theorem softReset_sfKind : (softReset s).sfKind = s.sfKind := rfl
@[simp] theorem softReset_sfOrder : (softReset s).sfOrder = s.sfOrder := rfl
@[simp] theorem softReset_sfWasted : (softReset s).sfWasted = s.sfWasted := rfl
@[simp] theorem softReset_sfWidth : (softReset s).sfWidth = s.sfWidth := rfl
@[simp] theorem softReset_sfBlocksize : (softReset s).sfBlocksize = s.sfBlocksize := rfl
@[simp] theorem softReset_lpcPrec : (softReset s).lpcPrec = s.lpcPrec := rfl
@[simp] theorem softReset_lpcShift : (softReset s).lpcShift = s.lpcShift := rfl
@[simp] theorem softReset_resMethod : (softReset s).resMethod = s.resMethod := rfl
@[simp] theorem softReset_resPorder : (softReset s).resPorder = s.resPorder := rfl
@[simp] theorem softReset_sfConst : (softReset s).sfConst = s.sfConst := rfl
@[simp] theorem softReset_warm : (softReset s).warm = s.warm := rfl
@[simp] theorem softReset_coef : (softReset s).coef = s.coef := rfl
@[simp] theorem softReset_ibuf : (softReset s).ibuf = s.ibuf := rfl
@[simp] theorem softReset_resbuf : (softReset s).resbuf = s.resbuf := rfl
@[simp] theorem softReset_obuf : (softReset s).obuf = s.obuf := rfl
@[simp] theorem softReset_pending : (softReset s).pending = s.pending := rfl
@[simp] theorem softReset_refused : (softReset s).refused = s.refused := rfl
@[simp] theorem softReset_parse : (softReset s).parse = s.parse := rfl
@[simp] theorem softReset_host : (softReset s).host = s.host := rfl
@[simp] theorem softReset_turns : (softReset s).turns = s.turns := rfl
@[simp] theorem softReset_readData : (softReset s).readData = s.readData := rfl
@[simp] theorem softReset_draws : (softReset s).draws = s.draws := rfl
end softResetFields

section finishFields
variable (s : State)
@[simp] theorem finish_blockState : (finish s).blockState = .done := rfl
@[simp] theorem finish_sfValid : (finish s).sfValid = s.sfValid := rfl
@[simp] theorem finish_crcValid : (finish s).crcValid = s.crcValid := rfl
@[simp] theorem finish_crcOk : (finish s).crcOk = s.crcOk := rfl
@[simp] theorem finish_errcode : (finish s).errcode = s.errcode := rfl
@[simp] theorem finish_ibufLen : (finish s).ibufLen = s.ibufLen := rfl
@[simp] theorem finish_curByte : (finish s).curByte = s.curByte := rfl
@[simp] theorem finish_curBit : (finish s).curBit = s.curBit := rfl
@[simp] theorem finish_blocksize : (finish s).blocksize = s.blocksize := rfl
@[simp] theorem finish_samplesize : (finish s).samplesize = s.samplesize := rfl
@[simp] theorem finish_crcStart : (finish s).crcStart = s.crcStart := rfl
@[simp] theorem finish_crcEnd : (finish s).crcEnd = s.crcEnd := rfl
@[simp] theorem finish_crcCalc : (finish s).crcCalc = s.crcCalc := rfl
@[simp] theorem finish_crcExpect : (finish s).crcExpect = s.crcExpect := rfl
@[simp] theorem finish_sfType : (finish s).sfType = s.sfType := rfl
@[simp] theorem finish_sfKind : (finish s).sfKind = s.sfKind := rfl
@[simp] theorem finish_sfOrder : (finish s).sfOrder = s.sfOrder := rfl
@[simp] theorem finish_sfWasted : (finish s).sfWasted = s.sfWasted := rfl
@[simp] theorem finish_sfWidth : (finish s).sfWidth = s.sfWidth := rfl
@[simp] theorem finish_sfBlocksize : (finish s).sfBlocksize = s.sfBlocksize := rfl
@[simp] theorem finish_lpcPrec : (finish s).lpcPrec = s.lpcPrec := rfl
@[simp] theorem finish_lpcShift : (finish s).lpcShift = s.lpcShift := rfl
@[simp] theorem finish_resMethod : (finish s).resMethod = s.resMethod := rfl
@[simp] theorem finish_resPorder : (finish s).resPorder = s.resPorder := rfl
@[simp] theorem finish_sfConst : (finish s).sfConst = s.sfConst := rfl
@[simp] theorem finish_warm : (finish s).warm = s.warm := rfl
@[simp] theorem finish_coef : (finish s).coef = s.coef := rfl
@[simp] theorem finish_ibuf : (finish s).ibuf = s.ibuf := rfl
@[simp] theorem finish_resbuf : (finish s).resbuf = s.resbuf := rfl
@[simp] theorem finish_obuf : (finish s).obuf = s.obuf := rfl
@[simp] theorem finish_pending : (finish s).pending = none := rfl
@[simp] theorem finish_refused : (finish s).refused = s.refused := rfl
@[simp] theorem finish_parse : (finish s).parse = none := rfl
@[simp] theorem finish_host : (finish s).host = s.host := rfl
@[simp] theorem finish_turns : (finish s).turns = s.turns := rfl
@[simp] theorem finish_readData : (finish s).readData = s.readData := rfl
@[simp] theorem finish_draws : (finish s).draws = s.draws := rfl
end finishFields

section loadFilesFields
variable (warm coef : List Int) (s : State)
@[simp] theorem loadFiles_blockState : (loadFiles warm coef s).blockState = s.blockState := rfl
@[simp] theorem loadFiles_sfValid : (loadFiles warm coef s).sfValid = s.sfValid := rfl
@[simp] theorem loadFiles_crcValid : (loadFiles warm coef s).crcValid = s.crcValid := rfl
@[simp] theorem loadFiles_crcOk : (loadFiles warm coef s).crcOk = s.crcOk := rfl
@[simp] theorem loadFiles_errcode : (loadFiles warm coef s).errcode = s.errcode := rfl
@[simp] theorem loadFiles_ibufLen : (loadFiles warm coef s).ibufLen = s.ibufLen := rfl
@[simp] theorem loadFiles_curByte : (loadFiles warm coef s).curByte = s.curByte := rfl
@[simp] theorem loadFiles_curBit : (loadFiles warm coef s).curBit = s.curBit := rfl
@[simp] theorem loadFiles_blocksize : (loadFiles warm coef s).blocksize = s.blocksize := rfl
@[simp] theorem loadFiles_samplesize : (loadFiles warm coef s).samplesize = s.samplesize := rfl
@[simp] theorem loadFiles_crcStart : (loadFiles warm coef s).crcStart = s.crcStart := rfl
@[simp] theorem loadFiles_crcEnd : (loadFiles warm coef s).crcEnd = s.crcEnd := rfl
@[simp] theorem loadFiles_crcCalc : (loadFiles warm coef s).crcCalc = s.crcCalc := rfl
@[simp] theorem loadFiles_crcExpect : (loadFiles warm coef s).crcExpect = s.crcExpect := rfl
@[simp] theorem loadFiles_sfType : (loadFiles warm coef s).sfType = s.sfType := rfl
@[simp] theorem loadFiles_sfKind : (loadFiles warm coef s).sfKind = s.sfKind := rfl
@[simp] theorem loadFiles_sfOrder : (loadFiles warm coef s).sfOrder = s.sfOrder := rfl
@[simp] theorem loadFiles_sfWasted : (loadFiles warm coef s).sfWasted = s.sfWasted := rfl
@[simp] theorem loadFiles_sfWidth : (loadFiles warm coef s).sfWidth = s.sfWidth := rfl
@[simp] theorem loadFiles_sfBlocksize : (loadFiles warm coef s).sfBlocksize = s.sfBlocksize := rfl
@[simp] theorem loadFiles_lpcPrec : (loadFiles warm coef s).lpcPrec = s.lpcPrec := rfl
@[simp] theorem loadFiles_lpcShift : (loadFiles warm coef s).lpcShift = s.lpcShift := rfl
@[simp] theorem loadFiles_resMethod : (loadFiles warm coef s).resMethod = s.resMethod := rfl
@[simp] theorem loadFiles_resPorder : (loadFiles warm coef s).resPorder = s.resPorder := rfl
@[simp] theorem loadFiles_sfConst : (loadFiles warm coef s).sfConst = s.sfConst := rfl
@[simp] theorem loadFiles_warm : (loadFiles warm coef s).warm = fileOf 64 warm := rfl
@[simp] theorem loadFiles_coef : (loadFiles warm coef s).coef = fileOf 32 coef := rfl
@[simp] theorem loadFiles_ibuf : (loadFiles warm coef s).ibuf = s.ibuf := rfl
@[simp] theorem loadFiles_resbuf : (loadFiles warm coef s).resbuf = s.resbuf := rfl
@[simp] theorem loadFiles_obuf : (loadFiles warm coef s).obuf = s.obuf := rfl
@[simp] theorem loadFiles_pending : (loadFiles warm coef s).pending = s.pending := rfl
@[simp] theorem loadFiles_refused : (loadFiles warm coef s).refused = s.refused := rfl
@[simp] theorem loadFiles_parse : (loadFiles warm coef s).parse = s.parse := rfl
@[simp] theorem loadFiles_host : (loadFiles warm coef s).host = s.host := rfl
@[simp] theorem loadFiles_turns : (loadFiles warm coef s).turns = s.turns := rfl
@[simp] theorem loadFiles_readData : (loadFiles warm coef s).readData = s.readData := rfl
@[simp] theorem loadFiles_draws : (loadFiles warm coef s).draws = s.draws := rfl
end loadFilesFields

section storeResidualsFields
variable (i : Nat) (vs : List Int) (s : State)
@[simp] theorem storeResiduals_blockState : (storeResiduals i vs s).blockState = s.blockState := rfl
@[simp] theorem storeResiduals_sfValid : (storeResiduals i vs s).sfValid = s.sfValid := rfl
@[simp] theorem storeResiduals_crcValid : (storeResiduals i vs s).crcValid = s.crcValid := rfl
@[simp] theorem storeResiduals_crcOk : (storeResiduals i vs s).crcOk = s.crcOk := rfl
@[simp] theorem storeResiduals_errcode : (storeResiduals i vs s).errcode = s.errcode := rfl
@[simp] theorem storeResiduals_ibufLen : (storeResiduals i vs s).ibufLen = s.ibufLen := rfl
@[simp] theorem storeResiduals_curByte : (storeResiduals i vs s).curByte = s.curByte := rfl
@[simp] theorem storeResiduals_curBit : (storeResiduals i vs s).curBit = s.curBit := rfl
@[simp] theorem storeResiduals_blocksize : (storeResiduals i vs s).blocksize = s.blocksize := rfl
@[simp] theorem storeResiduals_samplesize : (storeResiduals i vs s).samplesize = s.samplesize := rfl
@[simp] theorem storeResiduals_crcStart : (storeResiduals i vs s).crcStart = s.crcStart := rfl
@[simp] theorem storeResiduals_crcEnd : (storeResiduals i vs s).crcEnd = s.crcEnd := rfl
@[simp] theorem storeResiduals_crcCalc : (storeResiduals i vs s).crcCalc = s.crcCalc := rfl
@[simp] theorem storeResiduals_crcExpect : (storeResiduals i vs s).crcExpect = s.crcExpect := rfl
@[simp] theorem storeResiduals_sfType : (storeResiduals i vs s).sfType = s.sfType := rfl
@[simp] theorem storeResiduals_sfKind : (storeResiduals i vs s).sfKind = s.sfKind := rfl
@[simp] theorem storeResiduals_sfOrder : (storeResiduals i vs s).sfOrder = s.sfOrder := rfl
@[simp] theorem storeResiduals_sfWasted : (storeResiduals i vs s).sfWasted = s.sfWasted := rfl
@[simp] theorem storeResiduals_sfWidth : (storeResiduals i vs s).sfWidth = s.sfWidth := rfl
@[simp] theorem storeResiduals_sfBlocksize : (storeResiduals i vs s).sfBlocksize = s.sfBlocksize := rfl
@[simp] theorem storeResiduals_lpcPrec : (storeResiduals i vs s).lpcPrec = s.lpcPrec := rfl
@[simp] theorem storeResiduals_lpcShift : (storeResiduals i vs s).lpcShift = s.lpcShift := rfl
@[simp] theorem storeResiduals_resMethod : (storeResiduals i vs s).resMethod = s.resMethod := rfl
@[simp] theorem storeResiduals_resPorder : (storeResiduals i vs s).resPorder = s.resPorder := rfl
@[simp] theorem storeResiduals_sfConst : (storeResiduals i vs s).sfConst = s.sfConst := rfl
@[simp] theorem storeResiduals_warm : (storeResiduals i vs s).warm = s.warm := rfl
@[simp] theorem storeResiduals_coef : (storeResiduals i vs s).coef = s.coef := rfl
@[simp] theorem storeResiduals_ibuf : (storeResiduals i vs s).ibuf = s.ibuf := rfl
@[simp] theorem storeResiduals_resbuf : (storeResiduals i vs s).resbuf = s.resbuf.writeRun i (vs.map (BitVec.ofInt 64)) := rfl
@[simp] theorem storeResiduals_obuf : (storeResiduals i vs s).obuf = s.obuf := rfl
@[simp] theorem storeResiduals_pending : (storeResiduals i vs s).pending = s.pending := rfl
@[simp] theorem storeResiduals_refused : (storeResiduals i vs s).refused = s.refused := rfl
@[simp] theorem storeResiduals_parse : (storeResiduals i vs s).parse = s.parse := rfl
@[simp] theorem storeResiduals_host : (storeResiduals i vs s).host = s.host := rfl
@[simp] theorem storeResiduals_turns : (storeResiduals i vs s).turns = s.turns := rfl
@[simp] theorem storeResiduals_readData : (storeResiduals i vs s).readData = s.readData := rfl
@[simp] theorem storeResiduals_draws : (storeResiduals i vs s).draws = s.draws := rfl
end storeResidualsFields

section moveToFields
variable (phase : ParsePhase) (s : State)
@[simp] theorem moveTo_blockState : (moveTo phase s).blockState = s.blockState := rfl
@[simp] theorem moveTo_sfValid : (moveTo phase s).sfValid = s.sfValid := rfl
@[simp] theorem moveTo_crcValid : (moveTo phase s).crcValid = s.crcValid := rfl
@[simp] theorem moveTo_crcOk : (moveTo phase s).crcOk = s.crcOk := rfl
@[simp] theorem moveTo_errcode : (moveTo phase s).errcode = s.errcode := rfl
@[simp] theorem moveTo_ibufLen : (moveTo phase s).ibufLen = s.ibufLen := rfl
@[simp] theorem moveTo_curByte : (moveTo phase s).curByte = s.curByte := rfl
@[simp] theorem moveTo_curBit : (moveTo phase s).curBit = s.curBit := rfl
@[simp] theorem moveTo_blocksize : (moveTo phase s).blocksize = s.blocksize := rfl
@[simp] theorem moveTo_samplesize : (moveTo phase s).samplesize = s.samplesize := rfl
@[simp] theorem moveTo_crcStart : (moveTo phase s).crcStart = s.crcStart := rfl
@[simp] theorem moveTo_crcEnd : (moveTo phase s).crcEnd = s.crcEnd := rfl
@[simp] theorem moveTo_crcCalc : (moveTo phase s).crcCalc = s.crcCalc := rfl
@[simp] theorem moveTo_crcExpect : (moveTo phase s).crcExpect = s.crcExpect := rfl
@[simp] theorem moveTo_sfType : (moveTo phase s).sfType = s.sfType := rfl
@[simp] theorem moveTo_sfKind : (moveTo phase s).sfKind = s.sfKind := rfl
@[simp] theorem moveTo_sfOrder : (moveTo phase s).sfOrder = s.sfOrder := rfl
@[simp] theorem moveTo_sfWasted : (moveTo phase s).sfWasted = s.sfWasted := rfl
@[simp] theorem moveTo_sfWidth : (moveTo phase s).sfWidth = s.sfWidth := rfl
@[simp] theorem moveTo_sfBlocksize : (moveTo phase s).sfBlocksize = s.sfBlocksize := rfl
@[simp] theorem moveTo_lpcPrec : (moveTo phase s).lpcPrec = s.lpcPrec := rfl
@[simp] theorem moveTo_lpcShift : (moveTo phase s).lpcShift = s.lpcShift := rfl
@[simp] theorem moveTo_resMethod : (moveTo phase s).resMethod = s.resMethod := rfl
@[simp] theorem moveTo_resPorder : (moveTo phase s).resPorder = s.resPorder := rfl
@[simp] theorem moveTo_sfConst : (moveTo phase s).sfConst = s.sfConst := rfl
@[simp] theorem moveTo_warm : (moveTo phase s).warm = s.warm := rfl
@[simp] theorem moveTo_coef : (moveTo phase s).coef = s.coef := rfl
@[simp] theorem moveTo_ibuf : (moveTo phase s).ibuf = s.ibuf := rfl
@[simp] theorem moveTo_resbuf : (moveTo phase s).resbuf = s.resbuf := rfl
@[simp] theorem moveTo_obuf : (moveTo phase s).obuf = s.obuf := rfl
@[simp] theorem moveTo_pending : (moveTo phase s).pending = s.pending := rfl
@[simp] theorem moveTo_refused : (moveTo phase s).refused = s.refused := rfl
@[simp] theorem moveTo_parse : (moveTo phase s).parse = s.parse.map (fun p => { p with phase := phase }) := rfl
@[simp] theorem moveTo_host : (moveTo phase s).host = s.host := rfl
@[simp] theorem moveTo_turns : (moveTo phase s).turns = s.turns := rfl
@[simp] theorem moveTo_readData : (moveTo phase s).readData = s.readData := rfl
@[simp] theorem moveTo_draws : (moveTo phase s).draws = s.draws := rfl
end moveToFields

section startParseFields
variable (s : State)
@[simp] theorem startParse_blockState : (startParse s).blockState = s.blockState := rfl
@[simp] theorem startParse_sfValid : (startParse s).sfValid = false := rfl
@[simp] theorem startParse_crcValid : (startParse s).crcValid = s.crcValid := rfl
@[simp] theorem startParse_crcOk : (startParse s).crcOk = s.crcOk := rfl
@[simp] theorem startParse_errcode : (startParse s).errcode = s.errcode := rfl
@[simp] theorem startParse_ibufLen : (startParse s).ibufLen = s.ibufLen := rfl
@[simp] theorem startParse_curByte : (startParse s).curByte = s.curByte := rfl
@[simp] theorem startParse_curBit : (startParse s).curBit = s.curBit := rfl
@[simp] theorem startParse_blocksize : (startParse s).blocksize = s.blocksize := rfl
@[simp] theorem startParse_samplesize : (startParse s).samplesize = s.samplesize := rfl
@[simp] theorem startParse_crcStart : (startParse s).crcStart = s.crcStart := rfl
@[simp] theorem startParse_crcEnd : (startParse s).crcEnd = s.crcEnd := rfl
@[simp] theorem startParse_crcCalc : (startParse s).crcCalc = s.crcCalc := rfl
@[simp] theorem startParse_crcExpect : (startParse s).crcExpect = s.crcExpect := rfl
@[simp] theorem startParse_sfType : (startParse s).sfType = s.sfType := rfl
@[simp] theorem startParse_sfKind : (startParse s).sfKind = s.sfKind := rfl
@[simp] theorem startParse_sfOrder : (startParse s).sfOrder = s.sfOrder := rfl
@[simp] theorem startParse_sfWasted : (startParse s).sfWasted = s.sfWasted := rfl
@[simp] theorem startParse_sfWidth : (startParse s).sfWidth = s.sfWidth := rfl
@[simp] theorem startParse_sfBlocksize : (startParse s).sfBlocksize = s.sfBlocksize := rfl
@[simp] theorem startParse_lpcPrec : (startParse s).lpcPrec = s.lpcPrec := rfl
@[simp] theorem startParse_lpcShift : (startParse s).lpcShift = s.lpcShift := rfl
@[simp] theorem startParse_resMethod : (startParse s).resMethod = s.resMethod := rfl
@[simp] theorem startParse_resPorder : (startParse s).resPorder = s.resPorder := rfl
@[simp] theorem startParse_sfConst : (startParse s).sfConst = s.sfConst := rfl
@[simp] theorem startParse_warm : (startParse s).warm = s.warm := rfl
@[simp] theorem startParse_coef : (startParse s).coef = s.coef := rfl
@[simp] theorem startParse_ibuf : (startParse s).ibuf = s.ibuf := rfl
@[simp] theorem startParse_resbuf : (startParse s).resbuf = s.resbuf := rfl
@[simp] theorem startParse_obuf : (startParse s).obuf = s.obuf := rfl
@[simp] theorem startParse_pending : (startParse s).pending = s.pending := rfl
@[simp] theorem startParse_refused : (startParse s).refused = s.refused := rfl
@[simp] theorem startParse_parse : (startParse s).parse = some ⟨s.curByte, s.curBit, .header⟩ := rfl
@[simp] theorem startParse_host : (startParse s).host = s.host := rfl
@[simp] theorem startParse_turns : (startParse s).turns = s.turns := rfl
@[simp] theorem startParse_readData : (startParse s).readData = s.readData := rfl
@[simp] theorem startParse_draws : (startParse s).draws = s.draws := rfl
end startParseFields

section commitFields
variable (f : Subframe) (m p : Nat) (c : Int) (s : State)
@[simp] theorem commit_blockState : (commit f m p c s).blockState = .done := rfl
@[simp] theorem commit_sfValid : (commit f m p c s).sfValid = true := rfl
@[simp] theorem commit_crcValid : (commit f m p c s).crcValid = s.crcValid := rfl
@[simp] theorem commit_crcOk : (commit f m p c s).crcOk = s.crcOk := rfl
@[simp] theorem commit_errcode : (commit f m p c s).errcode = s.errcode := rfl
@[simp] theorem commit_ibufLen : (commit f m p c s).ibufLen = s.ibufLen := rfl
@[simp] theorem commit_curByte : (commit f m p c s).curByte = s.curByte := rfl
@[simp] theorem commit_curBit : (commit f m p c s).curBit = s.curBit := rfl
@[simp] theorem commit_blocksize : (commit f m p c s).blocksize = s.blocksize := rfl
@[simp] theorem commit_samplesize : (commit f m p c s).samplesize = s.samplesize := rfl
@[simp] theorem commit_crcStart : (commit f m p c s).crcStart = s.crcStart := rfl
@[simp] theorem commit_crcEnd : (commit f m p c s).crcEnd = s.crcEnd := rfl
@[simp] theorem commit_crcCalc : (commit f m p c s).crcCalc = s.crcCalc := rfl
@[simp] theorem commit_crcExpect : (commit f m p c s).crcExpect = s.crcExpect := rfl
@[simp] theorem commit_sfType : (commit f m p c s).sfType = BitVec.ofBool f.wflag ++ f.typ := rfl
@[simp] theorem commit_sfKind : (commit f m p c s).sfKind = kindCode f.kind := rfl
@[simp] theorem commit_sfOrder : (commit f m p c s).sfOrder = BitVec.ofNat 32 f.order := rfl
@[simp] theorem commit_sfWasted : (commit f m p c s).sfWasted = BitVec.ofNat 32 f.wasted := rfl
@[simp] theorem commit_sfWidth : (commit f m p c s).sfWidth = BitVec.ofNat 32 f.width := rfl
@[simp] theorem commit_sfBlocksize : (commit f m p c s).sfBlocksize = BitVec.ofNat 32 f.blocksize := rfl
@[simp] theorem commit_lpcPrec : (commit f m p c s).lpcPrec = BitVec.ofNat 32 f.prec := rfl
@[simp] theorem commit_lpcShift : (commit f m p c s).lpcShift = BitVec.ofNat 32 f.shift := rfl
@[simp] theorem commit_resMethod : (commit f m p c s).resMethod = BitVec.ofNat 32 m := rfl
@[simp] theorem commit_resPorder : (commit f m p c s).resPorder = BitVec.ofNat 32 p := rfl
@[simp] theorem commit_sfConst : (commit f m p c s).sfConst = BitVec.ofInt 64 c := rfl
@[simp] theorem commit_warm : (commit f m p c s).warm = s.warm := rfl
@[simp] theorem commit_coef : (commit f m p c s).coef = s.coef := rfl
@[simp] theorem commit_ibuf : (commit f m p c s).ibuf = s.ibuf := rfl
@[simp] theorem commit_resbuf : (commit f m p c s).resbuf = s.resbuf := rfl
@[simp] theorem commit_obuf : (commit f m p c s).obuf = s.obuf := rfl
@[simp] theorem commit_pending : (commit f m p c s).pending = none := rfl
@[simp] theorem commit_refused : (commit f m p c s).refused = s.refused := rfl
@[simp] theorem commit_parse : (commit f m p c s).parse = none := rfl
@[simp] theorem commit_host : (commit f m p c s).host = s.host := rfl
@[simp] theorem commit_turns : (commit f m p c s).turns = s.turns := rfl
@[simp] theorem commit_readData : (commit f m p c s).readData = s.readData := rfl
@[simp] theorem commit_draws : (commit f m p c s).draws = s.draws := rfl
end commitFields

section parseFaultFields
variable (e : ErrorCode) (s : State)
@[simp] theorem parseFault_blockState : (parseFault e s).blockState = .fault := rfl
@[simp] theorem parseFault_sfValid : (parseFault e s).sfValid = false := rfl
@[simp] theorem parseFault_crcValid : (parseFault e s).crcValid = false := rfl
@[simp] theorem parseFault_crcOk : (parseFault e s).crcOk = false := rfl
@[simp] theorem parseFault_errcode : (parseFault e s).errcode = errorByte e := rfl
@[simp] theorem parseFault_ibufLen : (parseFault e s).ibufLen = s.ibufLen := rfl
@[simp] theorem parseFault_curByte : (parseFault e s).curByte = BitVec.ofNat 32 (freeCursor s / 8) := rfl
@[simp] theorem parseFault_curBit : (parseFault e s).curBit = BitVec.ofNat 3 (freeCursor s % 8) := rfl
@[simp] theorem parseFault_blocksize : (parseFault e s).blocksize = s.blocksize := rfl
@[simp] theorem parseFault_samplesize : (parseFault e s).samplesize = s.samplesize := rfl
@[simp] theorem parseFault_crcStart : (parseFault e s).crcStart = s.crcStart := rfl
@[simp] theorem parseFault_crcEnd : (parseFault e s).crcEnd = s.crcEnd := rfl
@[simp] theorem parseFault_crcCalc : (parseFault e s).crcCalc = s.crcCalc := rfl
@[simp] theorem parseFault_crcExpect : (parseFault e s).crcExpect = s.crcExpect := rfl
@[simp] theorem parseFault_ibuf : (parseFault e s).ibuf = s.ibuf := rfl
@[simp] theorem parseFault_resbuf : (parseFault e s).resbuf = s.resbuf.writeRun 0 (freeRun s.draws .resbuf (min s.blocksize.toNat Config.maxBlock)) := rfl
@[simp] theorem parseFault_obuf : (parseFault e s).obuf = s.obuf := rfl
@[simp] theorem parseFault_pending : (parseFault e s).pending = none := rfl
@[simp] theorem parseFault_refused : (parseFault e s).refused = s.refused := rfl
@[simp] theorem parseFault_parse : (parseFault e s).parse = none := rfl
@[simp] theorem parseFault_host : (parseFault e s).host = s.host := rfl
@[simp] theorem parseFault_turns : (parseFault e s).turns = s.turns := rfl
@[simp] theorem parseFault_readData : (parseFault e s).readData = s.readData := rfl
@[simp] theorem parseFault_draws : (parseFault e s).draws = s.draws + 1 := rfl
end parseFaultFields

section reconstructFaultFields
variable (e : ErrorCode) (s : State)
@[simp] theorem reconstructFault_blockState : (reconstructFault e s).blockState = .fault := rfl
@[simp] theorem reconstructFault_sfValid : (reconstructFault e s).sfValid = false := rfl
@[simp] theorem reconstructFault_crcValid : (reconstructFault e s).crcValid = false := rfl
@[simp] theorem reconstructFault_crcOk : (reconstructFault e s).crcOk = false := rfl
@[simp] theorem reconstructFault_errcode : (reconstructFault e s).errcode = errorByte e := rfl
@[simp] theorem reconstructFault_ibufLen : (reconstructFault e s).ibufLen = s.ibufLen := rfl
@[simp] theorem reconstructFault_curByte : (reconstructFault e s).curByte = s.curByte := rfl
@[simp] theorem reconstructFault_curBit : (reconstructFault e s).curBit = s.curBit := rfl
@[simp] theorem reconstructFault_blocksize : (reconstructFault e s).blocksize = s.blocksize := rfl
@[simp] theorem reconstructFault_samplesize : (reconstructFault e s).samplesize = s.samplesize := rfl
@[simp] theorem reconstructFault_crcStart : (reconstructFault e s).crcStart = s.crcStart := rfl
@[simp] theorem reconstructFault_crcEnd : (reconstructFault e s).crcEnd = s.crcEnd := rfl
@[simp] theorem reconstructFault_crcCalc : (reconstructFault e s).crcCalc = s.crcCalc := rfl
@[simp] theorem reconstructFault_crcExpect : (reconstructFault e s).crcExpect = s.crcExpect := rfl
@[simp] theorem reconstructFault_sfType : (reconstructFault e s).sfType = s.sfType := rfl
@[simp] theorem reconstructFault_sfKind : (reconstructFault e s).sfKind = s.sfKind := rfl
@[simp] theorem reconstructFault_sfOrder : (reconstructFault e s).sfOrder = s.sfOrder := rfl
@[simp] theorem reconstructFault_sfWasted : (reconstructFault e s).sfWasted = s.sfWasted := rfl
@[simp] theorem reconstructFault_sfWidth : (reconstructFault e s).sfWidth = s.sfWidth := rfl
@[simp] theorem reconstructFault_sfBlocksize : (reconstructFault e s).sfBlocksize = s.sfBlocksize := rfl
@[simp] theorem reconstructFault_lpcPrec : (reconstructFault e s).lpcPrec = s.lpcPrec := rfl
@[simp] theorem reconstructFault_lpcShift : (reconstructFault e s).lpcShift = s.lpcShift := rfl
@[simp] theorem reconstructFault_resMethod : (reconstructFault e s).resMethod = s.resMethod := rfl
@[simp] theorem reconstructFault_resPorder : (reconstructFault e s).resPorder = s.resPorder := rfl
@[simp] theorem reconstructFault_sfConst : (reconstructFault e s).sfConst = s.sfConst := rfl
@[simp] theorem reconstructFault_warm : (reconstructFault e s).warm = s.warm := rfl
@[simp] theorem reconstructFault_coef : (reconstructFault e s).coef = s.coef := rfl
@[simp] theorem reconstructFault_ibuf : (reconstructFault e s).ibuf = s.ibuf := rfl
@[simp] theorem reconstructFault_resbuf : (reconstructFault e s).resbuf = s.resbuf := rfl
@[simp] theorem reconstructFault_obuf : (reconstructFault e s).obuf = s.obuf.writeRun 0 (freeRun s.draws .obuf (min s.sfBlocksize.toNat Config.maxBlock)) := rfl
@[simp] theorem reconstructFault_pending : (reconstructFault e s).pending = none := rfl
@[simp] theorem reconstructFault_refused : (reconstructFault e s).refused = s.refused := rfl
@[simp] theorem reconstructFault_parse : (reconstructFault e s).parse = none := rfl
@[simp] theorem reconstructFault_host : (reconstructFault e s).host = s.host := rfl
@[simp] theorem reconstructFault_turns : (reconstructFault e s).turns = s.turns := rfl
@[simp] theorem reconstructFault_readData : (reconstructFault e s).readData = s.readData := rfl
@[simp] theorem reconstructFault_draws : (reconstructFault e s).draws = s.draws + 1 := rfl
end reconstructFaultFields

section verifyFaultFields
variable (e : ErrorCode) (s : State)
@[simp] theorem verifyFault_blockState : (verifyFault e s).blockState = .fault := rfl
@[simp] theorem verifyFault_sfValid : (verifyFault e s).sfValid = false := rfl
@[simp] theorem verifyFault_crcValid : (verifyFault e s).crcValid = false := rfl
@[simp] theorem verifyFault_crcOk : (verifyFault e s).crcOk = false := rfl
@[simp] theorem verifyFault_errcode : (verifyFault e s).errcode = errorByte e := rfl
@[simp] theorem verifyFault_ibufLen : (verifyFault e s).ibufLen = s.ibufLen := rfl
@[simp] theorem verifyFault_curByte : (verifyFault e s).curByte = s.curByte := rfl
@[simp] theorem verifyFault_curBit : (verifyFault e s).curBit = s.curBit := rfl
@[simp] theorem verifyFault_blocksize : (verifyFault e s).blocksize = s.blocksize := rfl
@[simp] theorem verifyFault_samplesize : (verifyFault e s).samplesize = s.samplesize := rfl
@[simp] theorem verifyFault_crcStart : (verifyFault e s).crcStart = s.crcStart := rfl
@[simp] theorem verifyFault_crcEnd : (verifyFault e s).crcEnd = s.crcEnd := rfl
@[simp] theorem verifyFault_sfType : (verifyFault e s).sfType = s.sfType := rfl
@[simp] theorem verifyFault_sfKind : (verifyFault e s).sfKind = s.sfKind := rfl
@[simp] theorem verifyFault_sfOrder : (verifyFault e s).sfOrder = s.sfOrder := rfl
@[simp] theorem verifyFault_sfWasted : (verifyFault e s).sfWasted = s.sfWasted := rfl
@[simp] theorem verifyFault_sfWidth : (verifyFault e s).sfWidth = s.sfWidth := rfl
@[simp] theorem verifyFault_sfBlocksize : (verifyFault e s).sfBlocksize = s.sfBlocksize := rfl
@[simp] theorem verifyFault_lpcPrec : (verifyFault e s).lpcPrec = s.lpcPrec := rfl
@[simp] theorem verifyFault_lpcShift : (verifyFault e s).lpcShift = s.lpcShift := rfl
@[simp] theorem verifyFault_resMethod : (verifyFault e s).resMethod = s.resMethod := rfl
@[simp] theorem verifyFault_resPorder : (verifyFault e s).resPorder = s.resPorder := rfl
@[simp] theorem verifyFault_sfConst : (verifyFault e s).sfConst = s.sfConst := rfl
@[simp] theorem verifyFault_warm : (verifyFault e s).warm = s.warm := rfl
@[simp] theorem verifyFault_coef : (verifyFault e s).coef = s.coef := rfl
@[simp] theorem verifyFault_ibuf : (verifyFault e s).ibuf = s.ibuf := rfl
@[simp] theorem verifyFault_resbuf : (verifyFault e s).resbuf = s.resbuf := rfl
@[simp] theorem verifyFault_obuf : (verifyFault e s).obuf = s.obuf := rfl
@[simp] theorem verifyFault_pending : (verifyFault e s).pending = none := rfl
@[simp] theorem verifyFault_refused : (verifyFault e s).refused = s.refused := rfl
@[simp] theorem verifyFault_parse : (verifyFault e s).parse = none := rfl
@[simp] theorem verifyFault_host : (verifyFault e s).host = s.host := rfl
@[simp] theorem verifyFault_turns : (verifyFault e s).turns = s.turns := rfl
@[simp] theorem verifyFault_readData : (verifyFault e s).readData = s.readData := rfl
@[simp] theorem verifyFault_draws : (verifyFault e s).draws = s.draws + 1 := rfl
end verifyFaultFields

end Sys2Proof.Machine
end

