-- ==== Sys2Proof/Laws/Stream.lean ====
section
/-! SUPPORT. Stream laws: the bits at the cursor, and moving past some of them (spec/20_memory.md R81, R83). -/

namespace Sys2Proof.Machine

variable {α : Type}

theorem runFrom_tail {m : Memory α} {i : Nat} {v : α} {vs : List α} (h : m.runFrom i = v :: vs) :
    m.runFrom (i + 1) = vs := by
  induction m with
  | nil => cases h
  | cons c m ih =>
    obtain ⟨a, w⟩ := c
    simp only [Memory.runFrom] at h ⊢
    split_ifs at h with h1 h2
    · rw [if_pos (by omega), ih h]
    · rw [if_pos (by omega)]; exact (List.cons.inj h).2

theorem runFrom_add (m : Memory α) (i k : Nat) (hk : k ≤ (m.runFrom i).length) :
    m.runFrom (i + k) = (m.runFrom i).drop k := by
  induction k generalizing i with
  | zero => rfl
  | succ k ih =>
    cases h : m.runFrom i with
    | nil => simp [h] at hk
    | cons v vs =>
      have ht := runFrom_tail h
      rw [h, List.length_cons] at hk
      rw [show i + (k + 1) = i + 1 + k by omega, ih (i + 1) (by rw [ht]; omega), ht, List.drop_succ_cons]

theorem length_flatMap_bytes (bs : List Byte) : (bs.flatMap (fun b => natBits 8 b.toNat)).length = 8 * bs.length := by
  induction bs with
  | nil => rfl
  | cons b bs ih => rw [List.flatMap_cons, List.length_append, ih, length_natBits, List.length_cons]; omega

theorem drop_flatMap_bytes (bs : List Byte) (k : Nat) :
    (bs.flatMap (fun b => natBits 8 b.toNat)).drop (8 * k) = (bs.drop k).flatMap (fun b => natBits 8 b.toNat) := by
  induction k generalizing bs with
  | zero => rfl
  | succ k ih =>
    cases bs with
    | nil => simp
    | cons b bs =>
      rw [List.flatMap_cons, List.drop_succ_cons, ← ih, show 8 * (k + 1) = (natBits 8 b.toNat).length + 8 * k by
        rw [length_natBits]; omega, List.drop_length_add_append]

theorem getElem?_flatMap_bytes (bs : List Byte) (a : Nat) :
    (bs.flatMap (fun b => natBits 8 b.toNat))[a]? = bs[a / 8]?.map (fun b => b.getLsbD (7 - a % 8)) := by
  induction bs generalizing a with
  | nil => simp
  | cons b bs ih =>
    rw [List.flatMap_cons]
    rcases Nat.lt_or_ge a 8 with h | h
    · rw [List.getElem?_append_left (by simpa using h), getElem?_natBits _ _ _ h]
      simp [Nat.div_eq_of_lt h, Nat.mod_eq_of_lt h, BitVec.getLsbD]
    · rw [List.getElem?_append_right (by simpa using h), ih, length_natBits]
      obtain ⟨c, rfl⟩ : ∃ c, a = c + 8 := ⟨a - 8, by omega⟩
      simp

theorem length_streamBits (s : State) : (streamBits s).length = 8 * (bytesAtCursor s).length - s.curBit.toNat := by
  rw [streamBits, List.length_drop, length_flatMap_bytes]

/-- A bit of the stream is a bit of a byte of IBUF. -/
theorem getElem?_streamBits (s : State) (j : Nat) :
    (streamBits s)[j]?
      = (bytesAtCursor s)[(s.curBit.toNat + j) / 8]?.map (fun b => b.getLsbD (7 - (s.curBit.toNat + j) % 8)) := by
  rw [streamBits, List.getElem?_drop, getElem?_flatMap_bytes]

theorem length_bytesAtCursor_le (s : State) : (bytesAtCursor s).length ≤ bytesAhead s := length_slice_le _ _ _

theorem advance_zero (s : State) : advance s 0 = s := by
  have h1 : (8 * s.curByte.toNat + s.curBit.toNat) / 8 = s.curByte.toNat := by have := s.curBit.isLt; omega
  have h2 : (8 * s.curByte.toNat + s.curBit.toNat) % 8 = s.curBit.toNat := by have := s.curBit.isLt; omega
  simp only [advance, setCursor, bitAddress, Nat.add_zero, h1, h2, BitVec.ofNat_toNat, BitVec.setWidth_eq]

/-- Where the cursor lies after moving past n of the bits at hand. -/
theorem advance_cursor {s : State} {n : Nat} (hn : n ≤ (streamBits s).length) :
    (advance s n).curByte.toNat = s.curByte.toNat + (s.curBit.toNat + n) / 8
      ∧ (advance s n).curBit.toNat = (s.curBit.toNat + n) % 8 := by
  have h1 := s.curBit.isLt
  have h2 := s.curByte.isLt
  have h3 := s.ibufLen.isLt
  have h4 := length_streamBits s
  have h5 := length_bytesAtCursor_le s
  unfold bytesAhead at h5
  simp only [advance_curByte, advance_curBit, bitAddress, BitVec.toNat_ofNat]
  omega

theorem bitAddress_advance {s : State} {n : Nat} (hn : n ≤ (streamBits s).length) :
    bitAddress (advance s n).curByte (advance s n).curBit = bitAddress s.curByte s.curBit + n := by
  obtain ⟨h1, h2⟩ := advance_cursor hn
  simp only [bitAddress, h1, h2]; omega

theorem bytesAtCursor_advance {s : State} {n : Nat} (hn : n ≤ (streamBits s).length) :
    bytesAtCursor (advance s n) = (bytesAtCursor s).drop ((s.curBit.toNat + n) / 8) := by
  rcases Nat.eq_zero_or_pos n with rfl | hpos
  · have := s.curBit.isLt
    rw [advance_zero, Nat.add_zero, Nat.div_eq_of_lt (by omega), List.drop_zero]
  · have h3 := length_streamBits s
    have h4 : (bytesAtCursor s).length ≤ (s.ibuf.runFrom s.curByte.toNat).length := by
      rw [bytesAtCursor, Memory.slice, List.length_take]; omega
    simp only [bytesAtCursor, bytesAhead, advance_ibuf, advance_ibufLen, (advance_cursor hn).1, Memory.slice]
    rw [runFrom_add _ _ _ (by omega), List.drop_take]
    congr 1; omega

/-- Past n of the bits at hand, the rest of them are at hand. -/
theorem streamBits_advance {s : State} {n : Nat} (hn : n ≤ (streamBits s).length) :
    streamBits (advance s n) = (streamBits s).drop n := by
  conv_lhs => rw [streamBits, bytesAtCursor_advance hn, (advance_cursor hn).2, ← drop_flatMap_bytes]
  rw [streamBits, List.drop_drop, List.drop_drop]
  congr 1; omega

theorem streamEnd_advance {s : State} {n : Nat} (hn : n ≤ (streamBits s).length) :
    streamEnd (advance s n) = streamEnd s := by
  rcases Nat.eq_zero_or_pos n with rfl | hpos
  · rw [advance_zero]
  · have h3 := length_streamBits s
    have h5 := length_bytesAtCursor_le s
    simp only [streamEnd, bytesAtCursor_advance hn, List.length_drop]
    unfold bytesAhead at h5 ⊢
    rw [(advance_cursor hn).1, advance_ibufLen]
    congr 1
    simp only [eq_iff_iff]; omega

theorem advance_advance {s : State} {m n : Nat} (hm : m ≤ (streamBits s).length) :
    advance (advance s m) n = advance s (m + n) := by
  have := bitAddress_advance hm
  conv_lhs => rw [advance, this, Nat.add_assoc]
  simp only [advance, setCursor]

end Sys2Proof.Machine
end

