-- ==== Sys2Proof/Laws/Fields.lean ====
section
/-! SUPPORT. Field laws: what each reader of a field answers, and running one stream element (spec/20_memory.md R84 to
R87; spec/41_residual_rice.md R187, R188). -/

namespace Sys2Proof.Machine

/-! ## Readers -/

theorem bitsField_natBits (n w : Nat) (rest : List Bool) (h : w < 2 ^ n) :
    bitsField n (natBits n w ++ rest) = .ok (w, rest) := by
  simp [bitsField, readBits_natBits, Nat.mod_eq_of_lt h]

/-- The two's-complement value of a field that holds one. -/
theorem sext_emod {n : Nat} (hn : n ≠ 0) {v : Int} (h : InSigned n v) : sext n (v % 2 ^ n).toNat = v := by
  obtain ⟨m, rfl⟩ : ∃ m, n = m + 1 := ⟨n - 1, by omega⟩
  simp only [InSigned, Nat.add_sub_cancel] at h
  have hp : (0 : Int) < 2 ^ m := by positivity
  have e : (2 : Int) ^ (m + 1) = 2 * 2 ^ m := by ring
  have c : ((2 ^ m : Nat) : Int) = 2 ^ m := by push_cast; rfl
  have hm : v % 2 ^ (m + 1) = if 0 ≤ v then v else v + 2 ^ (m + 1) := by
    split_ifs
    · exact Int.emod_eq_of_lt (by omega) (by omega)
    · rw [← Int.add_emod_right]; exact Int.emod_eq_of_lt (by omega) (by omega)
  have ht : ((v % 2 ^ (m + 1)).toNat : Int) = v % 2 ^ (m + 1) := Int.toNat_of_nonneg (Int.emod_nonneg _ (by omega))
  simp only [sext, Nat.add_sub_cancel]
  split_ifs <;> split_ifs at hm <;> omega

theorem sext_inSigned {n : Nat} (hn : n ≠ 0) {v : Nat} (h : v < 2 ^ n) : InSigned n (sext n v) := by
  obtain ⟨m, rfl⟩ : ∃ m, n = m + 1 := ⟨n - 1, by omega⟩
  have e : (2 : Int) ^ (m + 1) = 2 * 2 ^ m := by ring
  have e' : (2 : Nat) ^ (m + 1) = 2 * 2 ^ m := by ring
  have c : ((2 ^ m : Nat) : Int) = 2 ^ m := by push_cast; rfl
  simp only [sext, InSigned, Nat.add_sub_cancel]
  split_ifs <;> omega

theorem emod_two_pow_lt (n : Nat) (v : Int) : (v % 2 ^ n).toNat < 2 ^ n := by
  have h1 := Int.emod_lt_of_pos v (show (0 : Int) < 2 ^ n by positivity)
  have h2 := Int.emod_nonneg v (show (2 : Int) ^ n ≠ 0 by positivity)
  have c : ((2 ^ n : Nat) : Int) = 2 ^ n := by push_cast; rfl
  omega

/-- A signed field of width n > 0: nothing, with too few bits there, or the value of the first n. -/
theorem signedField_cases {n : Nat} (hn : n ≠ 0) (bits : List Bool) :
    (bits.length < n ∧ signedField n bits = .error .short)
      ∨ ∃ v rest, InSigned n v ∧ rest.length + n = bits.length ∧ bits.drop n = rest
          ∧ signedField n bits = .ok (v, rest) := by
  rcases readBits_cases n bits with ⟨h, e⟩ | ⟨w, rest, hw, rfl, e⟩
  · exact .inl ⟨h, by simp only [signedField, hn, if_false, bitsField, e]⟩
  · refine .inr ⟨sext n w, rest, sext_inSigned hn hw, by simp [Nat.add_comm], by simp, ?_⟩
    simp only [signedField, hn, if_false, bitsField, e]

theorem zigZag_foldResidual (v : Int) : zigZag (foldResidual v) = v := by
  simp only [foldResidual, zigZag]; split_ifs <;> omega

/-- A whole Rice codeword. -/
theorem riceField_codeword (k q r : Nat) (rest : List Bool) (h : r < 2 ^ k) :
    riceField k (unaryBits q ++ natBits k r ++ rest)
      = if q * 2 ^ k + r < 2 ^ 32 then .ok (zigZag (q * 2 ^ k + r), rest)
        else .error (.raise .residualOverflow) := by
  simp only [riceField, unaryField, List.append_assoc, readUnary_unaryBits, bitsField_natBits _ _ _ h]

/-- Fields one after another, each read back. -/
theorem readMany_flatMap {α : Type} (field : List Bool → Reading α) (bits : α → List Bool) (vs : List α)
    (h : ∀ v ∈ vs, ∀ rest, field (bits v ++ rest) = .ok (v, rest)) (rest : List Bool) :
    readMany field vs.length (vs.flatMap bits ++ rest) = .ok (vs, rest) := by
  induction vs with
  | nil => rfl
  | cons v vs ih =>
    simp only [List.flatMap_cons, List.append_assoc, List.length_cons, readMany, h v (by simp)]
    rw [ih (fun w hw => h w (by simp [hw]))]

/-- Fields one after another stop at the first that stops. -/
theorem readMany_stops {α : Type} {field : List Bool → Reading α} {bits : α → List Bool} {vs : List α} {n : Nat}
    {rest : List Bool} {stop : Stop} (h : ∀ v ∈ vs, ∀ rest, field (bits v ++ rest) = .ok (v, rest))
    (hn : vs.length < n) (hs : field rest = .error stop) :
    readMany field n (vs.flatMap bits ++ rest) = .error stop := by
  induction vs generalizing n with
  | nil =>
    obtain ⟨m, rfl⟩ : ∃ m, n = m + 1 := ⟨n - 1, by simp at hn; omega⟩
    simp only [List.flatMap_nil, List.nil_append, readMany, hs]
  | cons v vs ih =>
    obtain ⟨m, rfl⟩ : ∃ m, n = m + 1 := ⟨n - 1, by simp at hn; omega⟩
    simp only [List.flatMap_cons, List.append_assoc, readMany, h v (by simp)]
    rw [ih (fun w hw => h w (by simp [hw])) (by simpa using hn)]

/-- n signed fields of one width run short exactly where there are fewer bits than they take. -/
theorem readMany_signed_short {w n : Nat} (hw : w ≠ 0) {bits : List Bool} (h : bits.length < n * w) :
    readMany (signedField w) n bits = .error .short := by
  induction n generalizing bits with
  | zero => simp at h
  | succ n ih =>
    rcases signedField_cases hw bits with ⟨-, e⟩ | ⟨v, rest, -, hl, -, e⟩
    · simp only [readMany, e]
    · simp only [readMany, e]
      rw [ih (by rw [Nat.succ_mul] at h; omega)]

/-- What n fields one after another answer, if each answers a legal value and takes some of the bits. -/
theorem readMany_ok {α : Type} {field : List Bool → Reading α} {legal : α → Prop}
    (hf : ∀ bits v rest, field bits = .ok (v, rest) → legal v ∧ rest <:+ bits) {n : Nat} {bits rest : List Bool}
    {vs : List α} (h : readMany field n bits = .ok (vs, rest)) :
    vs.length = n ∧ (∀ v ∈ vs, legal v) ∧ rest <:+ bits := by
  induction n generalizing bits vs with
  | zero => cases h; simp
  | succ n ih =>
    simp only [readMany] at h
    split at h
    · cases h
    · rename_i v r hv
      split at h
      · cases h
      · rename_i ws r' hr
        cases h
        obtain ⟨h1, h2, h3⟩ := ih hr
        obtain ⟨h4, h5⟩ := hf _ _ _ hv
        exact ⟨by simp [h1], by simpa [h4] using h2, h3.trans h5⟩

theorem bitsField_suffix {n : Nat} {bits rest : List Bool} {v : Nat} (h : bitsField n bits = .ok (v, rest)) :
    v < 2 ^ n ∧ rest <:+ bits := by
  simp only [bitsField] at h
  split at h
  · rename_i r hr; cases h
    obtain ⟨h1, h2⟩ := readBits_eq_some hr
    exact ⟨h1, h2 ▸ List.suffix_append _ _⟩
  · cases h

theorem signedField_suffix {n : Nat} {bits rest : List Bool} {v : Int} (h : signedField n bits = .ok (v, rest)) :
    (if n = 0 then v = 0 else InSigned n v) ∧ rest <:+ bits := by
  by_cases hn : n = 0
  · simp only [signedField, hn, if_true] at h ⊢; cases h; simp
  · simp only [hn, if_false]
    rcases signedField_cases hn bits with ⟨-, e⟩ | ⟨w, r, hw, -, rfl, e⟩
    · rw [e] at h; cases h
    · rw [e] at h; cases h; exact ⟨hw, List.drop_suffix _ _⟩

theorem unaryField_suffix {bits rest : List Bool} {z : Nat} (h : unaryField bits = .ok (z, rest)) :
    rest <:+ bits := by
  simp only [unaryField] at h
  rcases readUnary_cases bits with ⟨-, e⟩ | ⟨w, r, rfl, e⟩
  · rw [e] at h; cases h
  · rw [e] at h; cases h; exact List.suffix_append _ _

theorem riceField_suffix {k : Nat} {bits rest : List Bool} {v : Int} (h : riceField k bits = .ok (v, rest)) :
    InSigned 32 v ∧ rest <:+ bits := by
  simp only [riceField] at h
  split at h
  · cases h
  · rename_i q r hq
    split at h
    · cases h
    · rename_i w r' hw
      split_ifs at h with hlt
      cases h
      refine ⟨?_, (bitsField_suffix hw).2.trans (unaryField_suffix hq)⟩
      simp only [zigZag, InSigned]; split_ifs <;> omega

theorem wastedField_suffix {bias : Nat} {w : Bool} {bits rest : List Bool} {v : Nat}
    (h : wastedField bias w bits = .ok (v, rest)) : rest <:+ bits := by
  cases w with
  | false => simp only [wastedField] at h; cases h; exact List.suffix_refl _
  | true =>
    simp only [wastedField, if_true] at h
    split at h
    · rename_i z r hz; cases h; exact unaryField_suffix hz
    · cases h

/-! ## Running one element -/

/-- Everything running an element can do: its effect past the bits its reader took, TruncatedStreamError at the end of the
buffer, `UnwrittenRead` at an unwritten byte, or the fault its reader raised. -/
theorem runElementWith_cases {α : Type} (s : State) (read : List Bool → Reading α) (effect : α → State → State) :
    (∃ v rest, read (streamBits s) = .ok (v, rest)
        ∧ runElementWith s read effect = .next (effect v (advance s ((streamBits s).length - rest.length))))
      ∨ (read (streamBits s) = .error .short ∧ streamEnd s = .bufferEnd
        ∧ runElementWith s read effect = .next (parseFault .truncatedStream s))
      ∨ (read (streamBits s) = .error .short ∧ streamEnd s = .unwrittenByte
        ∧ runElementWith s read effect = .fault (.unwrittenRead .ibuf))
      ∨ ∃ e, read (streamBits s) = .error (.raise e) ∧ runElementWith s read effect = .next (parseFault e s) := by
  cases h : read (streamBits s) with
  | ok r => obtain ⟨v, rest⟩ := r; exact .inl ⟨v, rest, rfl, by simp only [runElementWith, h]⟩
  | error stop =>
    cases stop with
    | raise e => exact .inr (.inr (.inr ⟨e, rfl, by simp only [runElementWith, h, elementStopped]⟩))
    | short =>
      cases hs : streamEnd s with
      | bufferEnd => exact .inr (.inl ⟨rfl, rfl, by simp only [runElementWith, h, elementStopped, streamExhausted, hs]⟩)
      | unwrittenByte =>
        exact .inr (.inr (.inl ⟨rfl, rfl, by simp only [runElementWith, h, elementStopped, streamExhausted, hs]⟩))

theorem runElementWith_ok {α : Type} {s : State} {read : List Bool → Reading α} {v : α} {rest : List Bool}
    (h : read (streamBits s) = .ok (v, rest)) (effect : α → State → State) :
    runElementWith s read effect = .next (effect v (advance s ((streamBits s).length - rest.length))) := by
  simp only [runElementWith, h]

theorem runElementWith_raise {α : Type} {s : State} {read : List Bool → Reading α} {e : ErrorCode}
    (h : read (streamBits s) = .error (.raise e)) (effect : α → State → State) :
    runElementWith s read effect = .next (parseFault e s) := by
  simp only [runElementWith, h, elementStopped]

/-! ## Register files -/

theorem getElem_fileOf (w : Nat) (vs : List Int) (i : Fin 32) : (fileOf w vs)[i.val] = BitVec.ofInt w (vs.getD i.val 0) := by
  simp [fileOf, Vector.getElem_mk]

/-- A value in the signed range of a word is the word's value. -/
theorem toInt_ofInt_of_inSigned {w : Nat} (hw : w ≠ 0) {v : Int} (h : InSigned w v) : (BitVec.ofInt w v).toInt = v := by
  obtain ⟨m, rfl⟩ : ∃ m, w = m + 1 := ⟨w - 1, by omega⟩
  simp only [InSigned, Nat.add_sub_cancel] at h
  have e : (2 : Int) ^ (m + 1) = 2 * 2 ^ m := by ring
  rw [BitVec.toInt_ofInt, Int.bmod_eq_of_le] <;> push_cast <;> omega

/-- Signed ranges are nested. -/
theorem inSigned_mono {n m : Nat} {v : Int} (h : InSigned n v) (hnm : n ≤ m) : InSigned m v := by
  have : (2 : Int) ^ (n - 1) ≤ 2 ^ (m - 1) := by gcongr; norm_num
  simp only [InSigned] at *; omega

end Sys2Proof.Machine
end

