-- ==== Sys2Proof/Laws/Step.lean ====
section
/-! SUPPORT. Step laws: which move a step is, and every way an instruction of the stream can end. -/

namespace Sys2Proof.Machine

/-! ## Moves -/

theorem step_host_free {s : State} {a : HostAction} {as : List HostAction} (hb : s.blockState ≠ .busy)
    (hh : s.host = a :: as) : step s = hostMoveFree a { s with host := as } := by
  simp only [step, if_neg hb, moveFree, hh]

theorem step_host_busy {s : State} {a : HostAction} {as : List HostAction} {ts : List Turn}
    (hb : s.blockState = .busy) (ht : s.turns = .host :: ts) (hh : s.host = a :: as) :
    step s = hostMoveBusy a { s with turns := ts, host := as } := by
  simp only [step, if_pos hb, moveBusy, ht, hh]

theorem step_engine {s : State} (hb : s.blockState = .busy) (ht : s.turns = []) : step s = engineMove s := by
  simp only [step, if_pos hb, moveBusy, ht]

theorem step_element {s : State} {ts : List Turn} (hb : s.blockState = .busy) (ht : s.turns = .element :: ts) :
    step s = elementMove { s with turns := ts } := by
  simp only [step, if_pos hb, moveBusy, ht]

/-- Everything a step is: idling, a host action while free or while BUSY, the engine's step or a part of it. -/
theorem step_cases (s : State) :
    (s.blockState ≠ .busy ∧ s.host = [] ∧ step s = .next s)
      ∨ (∃ a as, s.blockState ≠ .busy ∧ s.host = a :: as ∧ step s = hostMoveFree a { s with host := as })
      ∨ (∃ a as ts, s.blockState = .busy ∧ s.host = a :: as ∧ step s = hostMoveBusy a { s with turns := ts, host := as })
      ∨ (∃ ts, s.blockState = .busy ∧ step s = engineMove { s with turns := ts })
      ∨ ∃ ts, s.blockState = .busy ∧ step s = elementMove { s with turns := ts } := by
  by_cases hb : s.blockState = .busy
  · cases ht : s.turns with
    | nil =>
      refine .inr (.inr (.inr (.inl ⟨[], hb, ?_⟩)))
      rw [step_engine hb ht, ← ht]
    | cons t ts =>
      cases t with
      | element => exact .inr (.inr (.inr (.inr ⟨ts, hb, step_element hb ht⟩)))
      | host =>
        cases hh : s.host with
        | nil => exact .inr (.inr (.inr (.inl ⟨ts, hb, by simp only [step, if_pos hb, moveBusy, ht, hh]⟩)))
        | cons a as => exact .inr (.inr (.inl ⟨a, as, ts, hb, rfl, step_host_busy hb ht hh⟩))
  · cases hh : s.host with
    | nil => exact .inl ⟨hb, rfl, by simp only [step, if_neg hb, moveFree, hh]⟩
    | cons a as => exact .inr (.inl ⟨a, as, hb, rfl, step_host_free hb hh⟩)

/-- A command word by its number. -/
theorem decode_command (v : Word) :
    decode .command (natBits 32 v.toNat)
      = match commandOfWord v.toNat with
        | none => .error .invalidCommand
        | some i => .ok (i, []) := by
  have h := readBits_natBits 32 v.toNat []
  rw [List.append_nil, Nat.mod_eq_of_lt v.isLt] at h
  simp only [decode, decodeCommand, h] <;> rfl

/-- What a written command word is executed as. -/
theorem issueCommand_cases (v : Word) (s : State) :
    issueCommand v s = exec .cmdNop s ∨ issueCommand v s = exec .cmdParseSubframe s
      ∨ issueCommand v s = exec .cmdReconstruct s ∨ issueCommand v s = exec .cmdVerifyCrc16 s
      ∨ issueCommand v s = exec .cmdSoftReset s
      ∨ issueCommand v s = .next (if s.blockState = .fault then s else faultEntry .invalidCommand s) := by
  simp only [issueCommand, decode_command, commandOfWord]
  split_ifs <;> simp

/-- The engine's move is the run of the command PENDING names. -/
theorem engineMove_cases {s : State} (hb : s.blockState = .busy) :
    (s.pending = some .parse ∧ engineMove s = runParse s)
      ∨ (s.pending = some .reconstruct ∧ engineMove s = runReconstruct s)
      ∨ (s.pending = some .verify ∧ engineMove s = runVerify s)
      ∨ (s.pending = none ∧ engineMove s = .fault .pendingUndefined) := by
  cases hp : s.pending with
  | none => simp [engineMove, hp]
  | some op =>
    cases op <;>
      simp [engineMove, hp, exec, execCmdParseSubframe, execCmdReconstruct, execCmdVerifyCrc16, hb]

theorem elementMove_cases {s : State} (hb : s.blockState = .busy) :
    (s.pending = some .parse ∧ elementMove s = parsePiece s)
      ∨ (s.pending = some .reconstruct ∧ elementMove s = runReconstruct s)
      ∨ (s.pending = some .verify ∧ elementMove s = runVerify s)
      ∨ (s.pending = none ∧ elementMove s = .fault .pendingUndefined) := by
  cases hp : s.pending with
  | none => simp [elementMove, engineMove, hp]
  | some op =>
    cases op <;>
      simp [elementMove, engineMove, hp, exec, execCmdReconstruct, execCmdVerifyCrc16, hb]

/-! ## Stream elements -/

/-- The meaning of a stream element is the instruction's. -/
theorem execElement_eq_exec {i : Instr} (h : i.slot ≠ .command) (s : State) : execElement i s = exec i s := by
  cases i <;> first | rfl | exact absurd rfl h

/-- Every way an instruction of the stream ends: its effect past the bits it read, a fault of the stream, or a stop. -/
inductive ElementEnd (s : State) : Host.Outcome State Fault Refusal → Prop where
  /-- a subframe without a residual, parsed -/
  | done (f : Subframe) (c : Int) (vs : List Int) (n : Nat) (hn : n ≤ (streamBits s).length)
      (hp : atHeader s = true) (hf : f.blocksize = s.blocksize.toNat ∧ f.order = 0 ∧ f.prec = 0 ∧ f.shift = 0
        ∧ f.wasted + f.width = s.samplesize.toNat ∧ 1 ≤ f.width)
      (hk : (f.kind = .constant ∧ vs = [] ∧ InSigned f.width c)
        ∨ (f.kind = .verbatim ∧ vs.length = f.blocksize ∧ c = 0 ∧ ∀ v ∈ vs, InSigned f.width v)) :
      ElementEnd s (.next (commit f 0 0 c
        (if f.kind = .constant then loadFiles [] [] (advance s n)
          else storeResiduals 0 vs (loadFiles [] [] (advance s n)))))
  /-- a subframe with a residual, up to it -/
  | head (f : Subframe) (warm coef : List Int) (n : Nat) (hn : n ≤ (streamBits s).length) (hp : atHeader s = true)
      (hf : f.blocksize = s.blocksize.toNat ∧ f.order ≤ f.blocksize ∧ f.wasted + f.width = s.samplesize.toNat
        ∧ 1 ≤ f.width ∧ warm.length = f.order ∧ ∀ v ∈ warm, InSigned f.width v)
      (hk : (f.kind = .fixed ∧ f.order ≤ 4 ∧ coef = [] ∧ f.prec = 0 ∧ f.shift = 0)
        ∨ (f.kind = .lpc ∧ 1 ≤ f.order ∧ f.order ≤ 32 ∧ coef.length = f.order ∧ 1 ≤ f.prec ∧ f.prec ≤ 15
          ∧ f.shift ≤ 15 ∧ ∀ v ∈ coef, InSigned f.prec v)) :
      ElementEnd s (.next (moveTo (.residual f) (loadFiles warm coef (advance s n))))
  /-- a residual header, up to the first partition -/
  | layout (p : ParseRun) (f : Subframe) (method : BitVec 1) (porder : BitVec 4) (hp : s.parse = some p)
      (hph : p.phase = .residual f) (ha : 2 ^ porder.toNat ∣ f.blocksize)
      (ho : f.order ≤ f.blocksize / 2 ^ porder.toNat) :
      ElementEnd s (.next (moveTo (.partition f ⟨method, porder, 0, 0⟩) s))
  /-- a partition -/
  | partition (p : ParseRun) (f : Subframe) (r : Residual) (vs : List Int) (n : Nat)
      (hn : n ≤ (streamBits s).length) (hp : s.parse = some p) (hph : p.phase = .partition f r)
      (hl : vs.length = partitionCount f r) (hv : ∀ v ∈ vs, InSigned 32 v) :
      ElementEnd s (.next (closePartition f r vs (advance s n)))
  /-- an error -/
  | error (e : ErrorCode) (he : Raised e) : ElementEnd s (.next (parseFault e s))
  /-- an unwritten byte of IBUF -/
  | unwritten (h : streamEnd s = .unwrittenByte) : ElementEnd s (.fault (.unwrittenRead .ibuf))
  /-- no such element here -/
  | outOfPlace : ElementEnd s (.refused .elementOutOfPlace)

theorem readHead_ok {s : State} {order : Nat} {w : Bool} {bits rest : List Bool} {h : Nat × Nat}
    (hr : readHead s order w bits = .ok (h, rest)) :
    order ≤ s.blocksize.toNat ∧ h.1 + h.2 = s.samplesize.toNat ∧ 1 ≤ h.2 ∧ rest <:+ bits := by
  simp only [readHead] at hr
  split_ifs at hr with h1
  split at hr
  · cases hr
  · rename_i v r hv
    split_ifs at hr with h2
    cases hr
    exact ⟨by omega, by simp only; omega, by simp only; omega, wastedField_suffix hv⟩

/-- A reader whose errors are ones the block raises. -/
def RaisesLegal {α : Type} (field : List Bool → Reading α) : Prop :=
  ∀ bits e, field bits = .error (.raise e) → Raised e

theorem bitsField_raises (n : Nat) : RaisesLegal (bitsField n) := by
  intro bits e h; simp only [bitsField] at h; split at h <;> cases h

theorem signedField_raises (n : Nat) : RaisesLegal (signedField n) := by
  intro bits e h
  simp only [signedField] at h
  split_ifs at h
  split at h
  · cases h
  · rename_i stop hs; cases h; exact bitsField_raises _ _ _ hs

theorem unaryField_raises : RaisesLegal unaryField := by
  intro bits e h; simp only [unaryField] at h; split at h <;> cases h

theorem wastedField_raises (bias : Nat) (w : Bool) : RaisesLegal (wastedField bias w) := by
  intro bits e h
  simp only [wastedField] at h
  split_ifs at h
  split at h
  · cases h
  · rename_i stop hs; cases h; exact unaryField_raises _ _ hs

theorem riceField_raises (k : Nat) : RaisesLegal (riceField k) := by
  intro bits e h
  simp only [riceField] at h
  split at h
  · rename_i stop hs; cases h; exact unaryField_raises _ _ hs
  · split at h
    · rename_i stop hs; cases h; exact bitsField_raises _ _ _ hs
    · split_ifs at h; cases h; simp [Raised]

theorem readMany_raises {α : Type} {field : List Bool → Reading α} (hf : RaisesLegal field) (n : Nat) :
    RaisesLegal (readMany field n) := by
  induction n with
  | zero => intro bits e h; cases h
  | succ n ih =>
    intro bits e h
    simp only [readMany] at h
    split at h
    · rename_i stop hs; cases h; exact hf _ _ hs
    · split at h
      · rename_i stop hs; cases h; exact ih _ _ hs
      · cases h

theorem readHead_raises (s : State) (order : Nat) (w : Bool) : RaisesLegal (readHead s order w) := by
  intro bits e h
  simp only [readHead] at h
  split_ifs at h
  · cases h; simp [Raised]
  · split at h
    · rename_i stop hs; cases h; exact wastedField_raises _ _ _ _ hs
    · split_ifs at h; cases h; simp [Raised]

theorem readConstant_raises (s : State) (w : Bool) : RaisesLegal (readConstant s w) := by
  intro bits e h
  simp only [readConstant] at h
  split at h
  · rename_i stop hs; cases h; exact readHead_raises _ _ _ _ _ hs
  · split at h
    · rename_i stop hs; cases h; exact signedField_raises _ _ _ hs
    · cases h

theorem readVerbatim_raises (s : State) (w : Bool) : RaisesLegal (readVerbatim s w) := by
  intro bits e h
  simp only [readVerbatim] at h
  split at h
  · rename_i stop hs; cases h; exact readHead_raises _ _ _ _ _ hs
  · split at h
    · rename_i stop hs; cases h; exact readMany_raises (signedField_raises _) _ _ _ hs
    · cases h

theorem readFixed_raises (s : State) (order : Nat) (w : Bool) : RaisesLegal (readFixed s order w) := by
  intro bits e h
  simp only [readFixed] at h
  split at h
  · rename_i stop hs; cases h; exact readHead_raises _ _ _ _ _ hs
  · split at h
    · rename_i stop hs; cases h; exact readMany_raises (signedField_raises _) _ _ _ hs
    · cases h

theorem precisionField_raises : RaisesLegal precisionField := by
  intro bits e h
  simp only [precisionField] at h
  split at h
  · rename_i stop hs; cases h; exact bitsField_raises _ _ _ hs
  · split_ifs at h; cases h; simp [Raised]

theorem shiftField_raises : RaisesLegal shiftField := by
  intro bits e h
  simp only [shiftField] at h
  split at h
  · rename_i stop hs; cases h; exact signedField_raises _ _ _ hs
  · split_ifs at h; cases h; simp [Raised]

theorem readLpc_raises (s : State) (order : Nat) (w : Bool) : RaisesLegal (readLpc s order w) := by
  intro bits e h
  simp only [readLpc] at h
  split at h
  · rename_i stop hs; cases h; exact readHead_raises _ _ _ _ _ hs
  split at h
  · rename_i stop hs; cases h; exact readMany_raises (signedField_raises _) _ _ _ hs
  split at h
  · rename_i stop hs; cases h; exact precisionField_raises _ _ hs
  split at h
  · rename_i stop hs; cases h; exact shiftField_raises _ _ hs
  split at h
  · rename_i stop hs; cases h; exact readMany_raises (signedField_raises _) _ _ _ hs
  · cases h

theorem signedField_legal {n : Nat} (hn : n ≠ 0) (bits : List Bool) (v : Int) (rest : List Bool)
    (h : signedField n bits = .ok (v, rest)) : InSigned n v ∧ rest <:+ bits := by
  have := signedField_suffix h
  rwa [if_neg hn] at this

theorem signedField_legal32 {n : Nat} (hn : n ≤ 32) (bits : List Bool) (v : Int) (rest : List Bool)
    (h : signedField n bits = .ok (v, rest)) : InSigned 32 v ∧ rest <:+ bits := by
  obtain ⟨h1, h2⟩ := signedField_suffix h
  refine ⟨?_, h2⟩
  split_ifs at h1
  · subst h1; simp [InSigned]
  · exact inSigned_mono h1 hn

theorem precisionField_ok {bits rest : List Bool} {p : Nat} (h : precisionField bits = .ok (p, rest)) :
    1 ≤ p ∧ p ≤ 15 ∧ rest <:+ bits := by
  simp only [precisionField] at h
  split at h
  · cases h
  · rename_i v r hv
    split_ifs at h
    cases h
    obtain ⟨h1, h2⟩ := bitsField_suffix hv
    exact ⟨by omega, by omega, h2⟩

theorem shiftField_ok {bits rest : List Bool} {sh : Nat} (h : shiftField bits = .ok (sh, rest)) :
    sh ≤ 15 ∧ rest <:+ bits := by
  simp only [shiftField] at h
  split at h
  · cases h
  · rename_i v r hv
    split_ifs at h
    cases h
    obtain ⟨h1, h2⟩ := signedField_legal (by omega) _ _ _ hv
    simp only [InSigned] at h1
    exact ⟨by omega, h2⟩

theorem runElementWith_end {α : Type} {s : State} {read : List Bool → Reading α} {effect : α → State → State}
    (hr : RaisesLegal read)
    (hok : ∀ v rest, read (streamBits s) = .ok (v, rest) →
      ElementEnd s (.next (effect v (advance s ((streamBits s).length - rest.length))))) :
    ElementEnd s (runElementWith s read effect) := by
  rcases runElementWith_cases s read effect with ⟨v, rest, h, e⟩ | ⟨-, -, e⟩ | ⟨-, h, e⟩ | ⟨err, h, e⟩ <;> rw [e]
  · exact hok v rest h
  · exact .error _ (by simp [Raised])
  · exact .unwritten h
  · exact .error _ (hr _ _ h)

theorem fixedForm_end {order : Nat} (ho : order ≤ 4) (w : Bool) (s : State) :
    ElementEnd s (fixedForm order w s) := by
  simp only [fixedForm]
  split_ifs with hp
  · refine runElementWith_end (readFixed_raises _ _ _) (fun v rest h => ?_)
    simp only [readFixed] at h
    split at h
    · cases h
    rename_i hd r1 h1
    split at h
    · cases h
    rename_i vs r2 h2
    cases h
    obtain ⟨a1, a2, a3, a4⟩ := readHead_ok h1
    obtain ⟨b1, b2, b3⟩ := readMany_ok (signedField_legal (by omega)) h2
    exact .head _ vs [] _ (Nat.sub_le _ _) hp ⟨rfl, a1, a2, a3, b1, b2⟩ (.inl ⟨rfl, ho, rfl, rfl, rfl⟩)
  · exact .outOfPlace

theorem residualForm_end (method : BitVec 1) (porder : BitVec 4) (s : State) :
    ElementEnd s (residualForm method porder s) := by
  simp only [residualForm]
  split
  · rename_i a b f hp
    split_ifs with h1 h2
    · exact .error _ (by simp [Raised])
    · exact .error _ (by simp [Raised])
    · exact .layout _ f method porder hp rfl (Nat.dvd_of_mod_eq_zero (by simpa using h1))
        (by simpa [perPartition] using h2)
  · exact .outOfPlace

theorem partitionForm_end {method : BitVec 1} {field : List Bool → Reading Int} (hr : RaisesLegal field)
    (hf : ∀ bits v rest, field bits = .ok (v, rest) → InSigned 32 v ∧ rest <:+ bits) (s : State) :
    ElementEnd s (partitionForm method field s) := by
  simp only [partitionForm]
  split
  · rename_i a b f r hp
    split_ifs
    · refine runElementWith_end (readMany_raises hr _) (fun v rest h => ?_)
      obtain ⟨b1, b2, b3⟩ := readMany_ok hf h
      exact .partition _ f r v _ (Nat.sub_le _ _) hp rfl b1 b2
    · exact .outOfPlace
  · exact .outOfPlace

/-- Every way an instruction of the stream can end. -/
theorem exec_elementEnd {i : Instr} (hi : i.slot ≠ .command) (s : State) : ElementEnd s (exec i s) := by
  cases i with
  | sfConstant w =>
    simp only [exec, execSfConstant]
    split_ifs with hp
    · refine runElementWith_end (readConstant_raises _ _) (fun v rest h => ?_)
      simp only [readConstant] at h
      split at h
      · cases h
      rename_i hd r1 h1
      split at h
      · cases h
      rename_i c r2 h2
      cases h
      obtain ⟨a1, a2, a3, a4⟩ := readHead_ok h1
      obtain ⟨b1, b2⟩ := signedField_legal (by omega) _ _ _ h2
      exact .done (headOf s 0 w .constant 0 hd) c [] _ (Nat.sub_le _ _) hp ⟨rfl, rfl, rfl, rfl, a2, a3⟩
        (.inl ⟨rfl, rfl, b1⟩)
    · exact .outOfPlace
  | sfVerbatim w =>
    simp only [exec, execSfVerbatim]
    split_ifs with hp
    · refine runElementWith_end (readVerbatim_raises _ _) (fun v rest h => ?_)
      simp only [readVerbatim] at h
      split at h
      · cases h
      rename_i hd r1 h1
      split at h
      · cases h
      rename_i vs r2 h2
      cases h
      obtain ⟨a1, a2, a3, a4⟩ := readHead_ok h1
      obtain ⟨b1, b2, b3⟩ := readMany_ok (signedField_legal (by omega)) h2
      exact .done (headOf s 1 w .verbatim 0 hd) 0 vs _ (Nat.sub_le _ _) hp ⟨rfl, rfl, rfl, rfl, a2, a3⟩
        (.inr ⟨rfl, b1, rfl, b2⟩)
    · exact .outOfPlace
  | sfFixed0 w => exact fixedForm_end (by omega) w s
  | sfFixed1 w => exact fixedForm_end (by omega) w s
  | sfFixed2 w => exact fixedForm_end (by omega) w s
  | sfFixed3 w => exact fixedForm_end (by omega) w s
  | sfFixed4 w => exact fixedForm_end (by omega) w s
  | sfLpc o w =>
    simp only [exec, execSfLpc]
    split_ifs with hp
    · refine runElementWith_end (readLpc_raises _ _ _) (fun v rest h => ?_)
      simp only [readLpc] at h
      split at h
      · cases h
      rename_i hd r1 h1
      split at h
      · cases h
      rename_i ws r2 h2
      split at h
      · cases h
      rename_i prec r3 h3
      split at h
      · cases h
      rename_i sh r4 h4
      split at h
      · cases h
      rename_i cs r5 h5
      cases h
      obtain ⟨a1, a2, a3, a4⟩ := readHead_ok h1
      obtain ⟨b1, b2, b3⟩ := readMany_ok (signedField_legal (by omega)) h2
      obtain ⟨c1, c2, c3⟩ := precisionField_ok h3
      obtain ⟨d1, d2⟩ := shiftField_ok h4
      obtain ⟨e1, e2, e3⟩ := readMany_ok (signedField_legal (by omega)) h5
      have := o.isLt
      exact .head _ ws cs _ (Nat.sub_le _ _) hp ⟨rfl, a1, a2, a3, b1, b2⟩
        (.inr ⟨rfl, Nat.succ_le_succ (Nat.zero_le _), by simp only [headOf]; omega, e1, c1, c2, d1, e2⟩)
    · exact .outOfPlace
  | resRice4 p => exact residualForm_end 0 p s
  | resRice5 p => exact residualForm_end 1 p s
  | partRice4 k => exact partitionForm_end (riceField_raises _) (fun _ _ _ h => riceField_suffix h) s
  | partRice5 k => exact partitionForm_end (riceField_raises _) (fun _ _ _ h => riceField_suffix h) s
  | partEsc4 n =>
    exact partitionForm_end (signedField_raises _) (signedField_legal32 (by have := n.isLt; omega)) s
  | partEsc5 n =>
    exact partitionForm_end (signedField_raises _) (signedField_legal32 (by have := n.isLt; omega)) s
  | cmdNop => exact absurd rfl hi
  | cmdParseSubframe => exact absurd rfl hi
  | cmdReconstruct => exact absurd rfl hi
  | cmdVerifyCrc16 => exact absurd rfl hi
  | cmdSoftReset => exact absurd rfl hi

end Sys2Proof.Machine
end

