-- ==== Sys2Proof/Laws/Parse.lean ====
section
/-! SUPPORT. Parse laws: every way one piece of PARSE_SUBFRAME can end, and the run of the pieces
(spec/40_subframe.md R150; spec/44_host_commands.md R270). -/

namespace Sys2Proof.Machine

theorem slotAt_ne_command (phase : ParsePhase) : slotAt phase ≠ .command := by
  cases phase with
  | header => simp [slotAt]
  | residual f => simp [slotAt]
  | partition f r => simp only [slotAt]; split_ifs <;> simp

theorem formOfType_slot {t : Nat} {w : Bool} {i : Instr} (h : formOfType t w = some i) : i.slot = .header := by
  simp only [formOfType] at h; split_ifs at h <;> cases h <;> rfl

/-- A decoder answers instructions of its slot. -/
theorem decode_slot {slot : Slot} {bits rest : List Bool} {i : Instr} (h : decode slot bits = .ok (i, rest)) :
    i.slot = slot := by
  cases slot with
  | command =>
    simp only [decode, decodeCommand] at h
    split at h
    · cases h
    · split at h
      · cases h
      · rename_i j hj; cases h; simp only [commandOfWord] at hj; split_ifs at hj <;> cases hj <;> rfl
  | header =>
    simp only [decode, decodeHeader] at h
    split at h
    · cases h
    split_ifs at h
    split at h
    · cases h
    split at h
    · cases h
    split at h
    · cases h
    split at h
    · cases h
    · rename_i j hj; cases h; exact formOfType_slot hj
  | residual =>
    simp only [decode, decodeResidual] at h
    split at h
    · cases h
    split_ifs at h
    all_goals
      split at h
      · cases h
      · cases h; rfl
  | partition4 =>
    simp only [decode, decodePartition4] at h
    split at h
    · cases h
    split_ifs at h
    · split at h
      · cases h
      · cases h; rfl
    · cases h; rfl
  | partition5 =>
    simp only [decode, decodePartition5] at h
    split at h
    · cases h
    split_ifs at h
    · split at h
      · cases h
      · cases h; rfl
    · cases h; rfl

/-- The decoder of a stream element rejects nothing as a command. -/
theorem decode_error {slot : Slot} (hs : slot ≠ .command) {bits : List Bool} {e : DecodeError}
    (h : decode slot bits = .error e) : e ≠ .invalidCommand := by
  rintro rfl
  cases slot with
  | command => exact hs rfl
  | header =>
    simp only [decode, decodeHeader] at h
    split at h
    · cases h
    split_ifs at h
    · cases h
    split at h
    · cases h
    split at h
    · cases h
    split at h
    · cases h
    split at h <;> cases h
  | residual =>
    simp only [decode, decodeResidual] at h
    split at h
    · cases h
    split_ifs at h
    · cases h
    · split at h <;> cases h
    · split at h <;> cases h
  | partition4 =>
    simp only [decode, decodePartition4] at h
    split at h
    · cases h
    split_ifs at h
    split at h <;> cases h
  | partition5 =>
    simp only [decode, decodePartition5] at h
    split at h
    · cases h
    split_ifs at h
    split at h <;> cases h

theorem runElementWith_ne_refused {α : Type} (s : State) (read : List Bool → Reading α) (effect : α → State → State)
    (r : Refusal) : runElementWith s read effect ≠ .refused r := by
  rcases runElementWith_cases s read effect with ⟨v, rest, -, e⟩ | ⟨-, -, e⟩ | ⟨-, -, e⟩ | ⟨err, -, e⟩ <;>
    rw [e] <;> simp

/-- An instruction of the slot the engine stands at is in place. -/
theorem exec_ne_refused {s : State} {p : ParseRun} {i : Instr} (hp : s.parse = some p)
    (hi : i.slot = slotAt p.phase) (r : Refusal) : exec i s ≠ .refused r := by
  obtain ⟨a, b, phase⟩ := p
  cases phase with
  | header =>
    have hh : atHeader s = true := by simp [atHeader, hp]
    cases i <;> first
      | (simp [slotAt, Instr.slot] at hi; done)
      | (simp only [exec, execSfConstant, execSfVerbatim, execSfFixed0, execSfFixed1, execSfFixed2, execSfFixed3,
          execSfFixed4, fixedForm, execSfLpc, hh, if_true]; exact runElementWith_ne_refused _ _ _ _)
  | residual f =>
    cases i <;> first
      | (simp [slotAt, Instr.slot] at hi; done)
      | (simp only [exec, execResRice4, execResRice5, residualForm, hp]; split_ifs <;> simp)
  | partition f r' =>
    have hm : r'.method = 0 ∨ r'.method = 1 := by
      have := r'.method.isLt
      rcases Nat.lt_or_ge r'.method.toNat 1 with h | h
      · exact .inl (BitVec.eq_of_toNat_eq (by simp; omega))
      · exact .inr (BitVec.eq_of_toNat_eq (by simp; omega))
    rcases hm with hm | hm <;> cases i <;> first
      | (simp [slotAt, Instr.slot, hm] at hi; done)
      | (simp only [exec, execPartRice4, execPartRice5, execPartEsc4, execPartEsc5, partitionForm, hp, hm, if_true]
         exact runElementWith_ne_refused _ _ _ _)

/-- Everything fetching an element can do. -/
theorem fetchElement_cases (s : State) (p : ParseRun) :
    (∃ i n, n ≤ (streamBits s).length ∧ i.slot = slotAt p.phase ∧ fetchElement p s = exec i (advance s n))
      ∨ (∃ e, Raised e ∧ fetchElement p s = .next (parseFault e s))
      ∨ (streamEnd s = .unwrittenByte ∧ fetchElement p s = .fault (.unwrittenRead .ibuf)) := by
  have hx : (∃ e, Raised e ∧ streamExhausted s = .next (parseFault e s))
      ∨ (streamEnd s = .unwrittenByte ∧ streamExhausted s = .fault (.unwrittenRead .ibuf)) := by
    cases h : streamEnd s with
    | bufferEnd => exact .inl ⟨.truncatedStream, by simp [Raised], by simp [streamExhausted, h]⟩
    | unwrittenByte => exact .inr ⟨rfl, by simp [streamExhausted, h]⟩
  cases h : decode (slotAt p.phase) (streamBits s) with
  | ok r =>
    obtain ⟨i, rest⟩ := r
    have hs := decode_slot h
    refine .inl ⟨i, (streamBits s).length - rest.length, Nat.sub_le _ _, hs, ?_⟩
    simp only [fetchElement, h]
    exact execElement_eq_exec (hs ▸ slotAt_ne_command _) _
  | error e =>
    simp only [fetchElement, h]
    cases e with
    | truncated => exact .inr hx
    | flagMissing form =>
      simp only [elementRejected]
      split_ifs
      · exact .inr (.inl ⟨.invalidOrder, by simp [Raised], rfl⟩)
      · exact .inr hx
    | subframePadding => exact .inr (.inl ⟨.subframePadding, by simp [Raised], rfl⟩)
    | invalidCode => exact .inr (.inl ⟨.invalidCode, by simp [Raised], rfl⟩)
    | invalidCommand => exact absurd rfl (decode_error (slotAt_ne_command _) h)

/-- Everything one piece of a running PARSE_SUBFRAME can do. -/
theorem parsePiece_cases (s : State) :
    (s.parse = none ∧ parseConfigLegal s = true ∧ parsePiece s = .next (startParse s))
      ∨ (∃ e, Raised e ∧ parsePiece s = .next (parseFault e s))
      ∨ (streamEnd s = .unwrittenByte ∧ parsePiece s = .fault (.unwrittenRead .ibuf))
      ∨ ∃ p i n, s.parse = some p ∧ n ≤ (streamBits s).length ∧ i.slot = slotAt p.phase
          ∧ parsePiece s = exec i (advance s n) := by
  cases hp : s.parse with
  | none =>
    by_cases hc : parseConfigLegal s = true
    · exact .inl ⟨rfl, hc, by simp [parsePiece, hp, hc]⟩
    · exact .inr (.inl ⟨.invalidConfig, by simp [Raised], by simp [parsePiece, hp, hc]⟩)
  | some p =>
    have hf : parsePiece s = fetchElement p s := by simp [parsePiece, hp]
    rcases fetchElement_cases s p with ⟨i, n, hn, hi, e⟩ | ⟨e, he, h⟩ | ⟨h, e⟩
    · exact .inr (.inr (.inr ⟨p, i, n, rfl, hn, hi, hf.trans e⟩))
    · exact .inr (.inl ⟨e, he, hf.trans h⟩)
    · exact .inr (.inr (.inl ⟨h, hf.trans e⟩))

/-! ## The run of the pieces -/

/-- The most pieces that are left of a PARSE_SUBFRAME. -/
def piecesLeft (s : State) : Nat :=
  match s.parse with
  | none => 32771
  | some ⟨_, _, .header⟩ => 32770
  | some ⟨_, _, .residual _⟩ => 32769
  | some ⟨_, _, .partition _ r⟩ => max 1 (2 ^ r.porder.toNat - r.part)

theorem piecesLeft_pos (s : State) : 1 ≤ piecesLeft s := by
  unfold piecesLeft; split <;> omega

/-- A piece ends the command, stops at an unwritten byte, or leaves fewer pieces. -/
theorem parsePiece_progress {s : State} (hb : s.blockState = .busy) :
    (∃ t, parsePiece s = .next t ∧ (t.blockState = .done ∨ t.blockState = .fault
        ∨ t.blockState = .busy ∧ t.pending = s.pending ∧ piecesLeft t < piecesLeft s))
      ∨ parsePiece s = .fault (.unwrittenRead .ibuf) := by
  rcases parsePiece_cases s with ⟨hp, -, e⟩ | ⟨er, -, e⟩ | ⟨-, e⟩ | ⟨p, i, n, hp, hn, hi, e⟩
  · refine .inl ⟨_, e, .inr (.inr ⟨hb, rfl, ?_⟩)⟩
    simp [piecesLeft, startParse, hp]
  · exact .inl ⟨_, e, .inr (.inl rfl)⟩
  · exact .inr e
  · have hp' : (advance s n).parse = some p := hp
    have hr := exec_ne_refused hp' hi
    have hend := exec_elementEnd (hi ▸ slotAt_ne_command _) (advance s n)
    rw [e]
    generalize exec i (advance s n) = o at hr hend
    rcases hend with ⟨f, c, vs, m, hm, hat, hf, hk⟩ | ⟨f, warm, coef, m, hm, hat, hf, hk⟩
      | ⟨q, f, method, porder, hq, hph, ha, ho⟩ | ⟨q, f, r, vs, m, hm, hq, hph, hl, hv⟩ | ⟨er, he⟩ | hx | _
    · exact .inl ⟨_, rfl, .inl rfl⟩
    · refine .inl ⟨_, rfl, .inr (.inr ⟨hb, rfl, ?_⟩)⟩
      obtain ⟨a, b, phase⟩ := p
      have : phase = .header := by
        simp only [atHeader, hp'] at hat
        cases phase <;> simp_all
      subst this
      simp [piecesLeft, moveTo, loadFiles, hp]
    · refine .inl ⟨_, rfl, .inr (.inr ⟨hb, rfl, ?_⟩)⟩
      rw [hp'] at hq; cases hq
      obtain ⟨a, b, phase⟩ := p
      simp only at hph; subst hph
      have : 2 ^ porder.toNat ≤ 2 ^ 15 := Nat.pow_le_pow_right (by omega) (by have := porder.isLt; omega)
      simp only [piecesLeft, moveTo, advance_parse, hp, Option.map_some]
      omega
    · refine .inl ⟨_, rfl, ?_⟩
      rw [hp'] at hq; cases hq
      obtain ⟨a, b, phase⟩ := p
      simp only at hph; subst hph
      simp only [closePartition]
      split_ifs with hlast
      · refine .inr (.inr ⟨hb, rfl, ?_⟩)
        simp only [piecesLeft, moveTo, storeResiduals, advance_parse, hp, Option.map_some]
        omega
      · exact .inl rfl
    · exact .inl ⟨_, rfl, .inr (.inl rfl)⟩
    · exact .inr rfl
    · exact absurd rfl (hr _)

/-- The run of the pieces ends within the pieces that are left. -/
theorem runPieces_ends {s : State} (hb : s.blockState = .busy) {n : Nat} (hn : piecesLeft s ≤ n) :
    (∃ t, runPieces n s = .next t ∧ (t.blockState = .done ∨ t.blockState = .fault))
      ∨ runPieces n s = .fault (.unwrittenRead .ibuf) := by
  induction n generalizing s with
  | zero => have := piecesLeft_pos s; omega
  | succ n ih =>
    rcases parsePiece_progress hb with ⟨t, e, h | h | ⟨h, -, hl⟩⟩ | e
    · exact .inl ⟨t, by simp [runPieces, e, h], .inl h⟩
    · exact .inl ⟨t, by simp [runPieces, e, h], .inr h⟩
    · simp only [runPieces, e, h, if_true]; exact ih h (by omega)
    · exact .inr (by simp [runPieces, e])

/-- PARSE_SUBFRAME ends. -/
theorem runParse_ends {s : State} (hb : s.blockState = .busy) :
    (∃ t, runParse s = .next t ∧ (t.blockState = .done ∨ t.blockState = .fault))
      ∨ runParse s = .fault (.unwrittenRead .ibuf) := by
  refine runPieces_ends hb ?_
  unfold piecesLeft maxPieces
  split
  · omega
  · omega
  · omega
  · rename_i r _
    have : 2 ^ r.porder.toNat ≤ 2 ^ 15 := Nat.pow_le_pow_right (by omega) (by have := r.porder.isLt; omega)
    omega

/-- What every piece keeps, their run keeps. -/
theorem runPieces_keeps {P : State → Prop}
    (hP : ∀ s t, s.blockState = .busy → P s → parsePiece s = .next t → P t) {n : Nat} {s t : State}
    (hb : s.blockState = .busy) (hs : P s) (h : runPieces n s = .next t) : P t ∧ t.blockState ≠ .busy := by
  induction n generalizing s with
  | zero => cases h
  | succ n ih =>
    simp only [runPieces] at h
    split at h
    · rename_i u hu
      have hu' := hP s u hb hs hu
      split_ifs at h with hbu
      · exact ih hbu hu' h
      · cases h; exact ⟨hu', hbu⟩
    · cases h
    · cases h

end Sys2Proof.Machine
end

