-- ==== Sys2Proof/Laws/Commands.lean ====
section
/-! SUPPORT. Command laws: every way RECONSTRUCT and VERIFY_CRC16 can end, and the predictor's sums
(spec/42_reconstruct.md R210 to R222; spec/43_crc16.md R240). -/

namespace Sys2Proof.Machine

theorem length_predictAll {coefs : List Int} {shift : Nat} {history residuals out : List Int}
    (h : predictAll coefs shift history residuals = some out) : out.length = history.length + residuals.length := by
  induction residuals generalizing history with
  | nil => cases h; rfl
  | cons r rs ih =>
    simp only [predictAll] at h
    split at h
    · rename_i v hv
      rw [ih h]; simp only [List.length_cons]; omega
    · cases h

theorem length_predicted {coefs : List Int} {shift : Nat} {warm residuals out : List Int} {count : Nat}
    (h : predicted coefs shift warm residuals count = .ok out) (hl : residuals.length ≤ count) :
    out.length = warm.length + count := by
  simp only [predicted] at h
  split at h
  · cases h
  · rename_i l hp
    split_ifs at h with hc
    cases h
    rw [List.length_reverse, length_predictAll hp, List.length_reverse]; omega

theorem length_residualsHeld_le (s : State) (n : Nat) : (residualsHeld s n).length ≤ n := by
  rw [residualsHeld, List.length_map]; exact length_slice_le _ _ _

theorem length_fileTake {w : Nat} (f : Vector (BitVec w) 32) {k : Nat} (hk : k ≤ 32) : (fileTake f k).length = k := by
  simp [fileTake]; omega

/-- A held kind's registers name elements that exist. -/
theorem heldKind_bounds {s : State} {kind : Kind} (h : heldKind s = some kind) :
    kindOf s.sfKind = some kind ∧ s.sfBlocksize.toNat ≤ Config.maxBlock
      ∧ (kind = .fixed → s.sfOrder.toNat ≤ 4 ∧ s.sfOrder.toNat ≤ s.sfBlocksize.toNat)
      ∧ (kind = .lpc → s.sfOrder.toNat ≤ 32 ∧ s.sfOrder.toNat ≤ s.sfBlocksize.toNat) := by
  simp only [heldKind] at h
  split at h
  · cases h
  · rename_i k hk
    split_ifs at h with hb
    cases h
    refine ⟨hk, by simp only [Bool.and_eq_true, decide_eq_true_eq] at hb; exact hb.1, ?_, ?_⟩ <;>
      (rintro rfl; simp only [Bool.and_eq_true, decide_eq_true_eq] at hb; exact hb.2)

/-- A block's samples are as many as the block size. -/
theorem length_unshifted {s : State} {kind : Kind} {out : List Int} (hk : heldKind s = some kind)
    (h : unshifted s kind = .ok out) : out.length = s.sfBlocksize.toNat := by
  obtain ⟨-, -, hf, hl⟩ := heldKind_bounds hk
  cases kind with
  | constant => cases h; simp
  | verbatim =>
    simp only [unshifted] at h
    split_ifs at h with hc
    cases h
    have := length_residualsHeld_le s s.sfBlocksize.toNat
    omega
  | fixed =>
    have hb := hf rfl
    rw [length_predicted h (length_residualsHeld_le _ _), length_fileTake _ (by omega)]; omega
  | lpc =>
    have hb := hl rfl
    rw [length_predicted h (length_residualsHeld_le _ _), length_fileTake _ (by omega)]; omega

/-- Everything RECONSTRUCT can do. -/
theorem runReconstruct_cases (s : State) :
    (s.sfValid = false ∧ runReconstruct s = .next (reconstructFault .noSubframe s))
      ∨ (s.sfValid = true ∧ heldKind s = none ∧ runReconstruct s = .fault .heldSubframeMalformed)
      ∨ (∃ kind, s.sfValid = true ∧ heldKind s = some kind ∧ unshifted s kind = .error .unwritten
        ∧ runReconstruct s = .fault (.unwrittenRead .resbuf))
      ∨ (s.sfValid = true ∧ runReconstruct s = .next (reconstructFault .arithmeticOverflow s))
      ∨ ∃ kind samples, s.sfValid = true ∧ heldKind s = some kind ∧ unshifted s kind = .ok samples
          ∧ samples.length = s.sfBlocksize.toNat
          ∧ (∀ v ∈ samples, fits64 (v * 2 ^ s.sfWasted.toNat) = true)
          ∧ runReconstruct s = .next (finish { s with
              obuf := s.obuf.writeRun 0 ((samples.map (fun v => v * 2 ^ s.sfWasted.toNat)).map (BitVec.ofInt 64)) }) := by
  cases hv : s.sfValid with
  | false => exact .inl ⟨rfl, by simp [runReconstruct, hv]⟩
  | true =>
    cases hk : heldKind s with
    | none => exact .inr (.inl ⟨rfl, rfl, by simp [runReconstruct, hv, hk]⟩)
    | some kind =>
      cases hu : unshifted s kind with
      | error stop =>
        cases stop with
        | overflow => exact .inr (.inr (.inr (.inl ⟨rfl, by simp [runReconstruct, hv, hk, hu]⟩)))
        | unwritten => exact .inr (.inr (.inl ⟨kind, rfl, rfl, hu, by simp [runReconstruct, hv, hk, hu]⟩))
      | ok samples =>
        by_cases hall : (samples.all (fun v => fits64 (v * 2 ^ s.sfWasted.toNat))) = true
        · refine .inr (.inr (.inr (.inr ⟨kind, samples, rfl, rfl, hu, length_unshifted hk hu, ?_, ?_⟩)))
          · simpa using hall
          · simp only [runReconstruct, hv, hk, hu, restoreWasted, hall, Bool.not_true, Bool.false_eq_true, if_false,
              if_true]
        · refine .inr (.inr (.inr (.inl ⟨rfl, ?_⟩)))
          simp only [runReconstruct, hv, hk, hu, restoreWasted, hall, Bool.not_true, Bool.false_eq_true, if_false]

/-- Everything VERIFY_CRC16 can do. -/
theorem runVerify_cases (s : State) :
    (∃ e, Raised e ∧ runVerify s = .next (verifyFault e s)) ∨ runVerify s = .fault (.unwrittenRead .ibuf)
      ∨ ∃ c x, runVerify s = .next (finish { s with
          crcCalc := c, crcExpect := x, crcOk := crcOkFlag c x, crcValid := true }) := by
  simp only [runVerify, verifySpan]
  split_ifs
  · exact .inl ⟨_, by simp [Raised], rfl⟩
  · exact .inl ⟨_, by simp [Raised], rfl⟩
  · exact .inl ⟨_, by simp [Raised], rfl⟩
  · exact .inr (.inl rfl)
  · exact .inr (.inr ⟨_, _, rfl⟩)

end Sys2Proof.Machine
end

