-- ==== Sys2Proof/Laws/PerInstr.lean ====
section
/-! SUPPORT. Laws of every instruction as syntax: how many bits its encoding has (spec/30_encoding.md R111, R122, R125,
R130). -/

namespace Sys2Proof.Laws.EncodingWidth

/-- The bits of an instruction's row: 8 for a subframe header, 6 for a residual header, the parameter field and, for an
escape, the 5-bit width for a partition header, and 32 for a command word. -/
def width : Instr → Nat
  | .sfConstant _ => 8
  | .sfVerbatim _ => 8
  | .sfFixed0 _ => 8
  | .sfFixed1 _ => 8
  | .sfFixed2 _ => 8
  | .sfFixed3 _ => 8
  | .sfFixed4 _ => 8
  | .sfLpc _ _ => 8
  | .resRice4 _ => 6
  | .resRice5 _ => 6
  | .partEsc4 _ => 9
  | .partRice4 _ => 4
  | .partEsc5 _ => 10
  | .partRice5 _ => 5
  | .cmdNop => 32
  | .cmdParseSubframe => 32
  | .cmdReconstruct => 32
  | .cmdVerifyCrc16 => 32
  | .cmdSoftReset => 32

/-- An instruction's encoding has its row's bits. -/
def Statement (i : Instr) : Prop := (encode i).length = width i

theorem sfConstant (w : Bool) : Statement (.sfConstant w) := by simp [Statement, encode, headerBits, width]

theorem sfVerbatim (w : Bool) : Statement (.sfVerbatim w) := by simp [Statement, encode, headerBits, width]

theorem sfFixed0 (w : Bool) : Statement (.sfFixed0 w) := by simp [Statement, encode, headerBits, width]

theorem sfFixed1 (w : Bool) : Statement (.sfFixed1 w) := by simp [Statement, encode, headerBits, width]

theorem sfFixed2 (w : Bool) : Statement (.sfFixed2 w) := by simp [Statement, encode, headerBits, width]

theorem sfFixed3 (w : Bool) : Statement (.sfFixed3 w) := by simp [Statement, encode, headerBits, width]

theorem sfFixed4 (w : Bool) : Statement (.sfFixed4 w) := by simp [Statement, encode, headerBits, width]

theorem sfLpc (o : BitVec 5) (w : Bool) : Statement (.sfLpc o w) := by simp [Statement, encode, headerBits, width]

theorem resRice4 (p : BitVec 4) : Statement (.resRice4 p) := by simp [Statement, encode, width]

theorem resRice5 (p : BitVec 4) : Statement (.resRice5 p) := by simp [Statement, encode, width]

theorem partEsc4 (n : BitVec 5) : Statement (.partEsc4 n) := by simp [Statement, encode, width]

theorem partRice4 (k : BitVec 4) : Statement (.partRice4 k) := by simp [Statement, encode, width]

theorem partEsc5 (n : BitVec 5) : Statement (.partEsc5 n) := by simp [Statement, encode, width]

theorem partRice5 (k : BitVec 5) : Statement (.partRice5 k) := by simp [Statement, encode, width]

theorem cmdNop : Statement .cmdNop := by simp [Statement, encode, width]

theorem cmdParseSubframe : Statement .cmdParseSubframe := by simp [Statement, encode, width]

theorem cmdReconstruct : Statement .cmdReconstruct := by simp [Statement, encode, width]

theorem cmdVerifyCrc16 : Statement .cmdVerifyCrc16 := by simp [Statement, encode, width]

theorem cmdSoftReset : Statement .cmdSoftReset := by simp [Statement, encode, width]

end Sys2Proof.Laws.EncodingWidth
end

