-- ==== Sys2Proof/Laws/Safety.lean ====
section
/-! SUPPORT. Safety laws: what the legal states and the held subframe depend on, and the faults and small updates that
keep a state legal. -/

namespace Sys2Proof.Machine

/-- What a held subframe is made of. -/
abbrev heldPart (s : State) :=
  ((s.sfKind, s.sfOrder, s.sfWasted, s.sfWidth, s.sfBlocksize, s.lpcPrec, s.lpcShift, s.resMethod, s.resPorder),
    s.sfConst, s.warm, s.coef, s.resbuf)

/-- A held subframe depends on its own registers and buffers alone. -/
theorem held_of_eq {s t : State} {kind : Kind} (h : Held s kind) (e : heldPart t = heldPart s) : Held t kind := by
  simp only [heldPart, Prod.mk.injEq] at e
  obtain ⟨⟨e1, e2, e3, e4, e5, e6, e7, e8, e9⟩, e10, e11, e12, e13⟩ := e
  constructor
  · rw [e1]; exact h.kindIs
  · rw [e5]; exact h.block
  · rw [e4, e3]; exact h.width
  · rw [e2]; exact h.order
  · rw [e2, e5]; exact h.orderFits
  · rw [e13, e5, e2, e4]; exact h.residuals
  · rw [e11, e2, e4]; exact h.warm
  · rw [e12, e2, e6]; exact h.coef
  · rw [e6]; exact h.prec
  · rw [e7]; exact h.shift
  · rw [e8, e9]; exact h.method
  · rw [e4, e10]; exact h.sample

theorem exists_held_of_eq {s t : State} (h : ∃ kind, Held s kind) (e : heldPart t = heldPart s) :
    ∃ kind, Held t kind :=
  let ⟨kind, hk⟩ := h
  ⟨kind, held_of_eq hk e⟩

/-- A running PARSE_SUBFRAME's place depends on WARM, COEF and RESBUF alone. -/
theorem phaseLegal_of_eq {s t : State} {phase : ParsePhase} (h : PhaseLegal s phase)
    (e : (t.warm, t.coef, t.resbuf) = (s.warm, s.coef, s.resbuf)) : PhaseLegal t phase := by
  simp only [Prod.mk.injEq] at e
  obtain ⟨e1, e2, e3⟩ := e
  have head : ∀ f, HeadLegal s f → HeadLegal t f := fun f h =>
    ⟨h.kindIs, h.order, h.orderFits, h.block, h.width, h.prec, h.shift, by rw [e1]; exact h.warm, by rw [e2]; exact h.coef⟩
  cases phase with
  | header => trivial
  | residual f => exact head f h
  | partition f r =>
    exact ⟨head f h.1, h.2.aligned, h.2.orderFits, h.2.part, h.2.idx, by rw [e3]; exact h.2.residuals⟩

/-- The legal states depend on the spec's state alone, and not on REFUSED. -/
theorem inv_of_eq {s t : State} (h : Inv s)
    (e : t = { s with
      refused := t.refused, host := t.host, turns := t.turns, readData := t.readData, draws := t.draws }) : Inv t := by
  rw [e]
  exact ⟨h.ibufForm, h.resbufForm, h.obufForm, h.errcode, h.faultFlags, h.pending, h.crcFlags,
    fun v => exists_held_of_eq (h.held v) rfl,
    fun p hp => let ⟨a, b, c, d⟩ := h.parse p hp; ⟨a, b, phaseLegal_of_eq c rfl, d⟩⟩

/-- The buffers of a legal state. -/
structure BuffersLegal (s : State) : Prop where
  ibuf : s.ibuf.wf ∧ ∀ c ∈ s.ibuf, c.1 < Config.ibufBytes
  resbuf : s.resbuf.wf ∧ ∀ c ∈ s.resbuf, c.1 < Config.maxBlock
  obuf : s.obuf.wf ∧ ∀ c ∈ s.obuf, c.1 < Config.maxBlock

theorem inv_buffers {s : State} (h : Inv s) : BuffersLegal s := ⟨h.ibufForm, h.resbufForm, h.obufForm⟩

theorem length_freeRun (d : Nat) (slot : Nat → FreeSlot) (n : Nat) : (freeRun d slot n).length = n := by simp [freeRun]

/-- A fault entry with an error the block raises leaves a legal state. -/
theorem inv_faultEntry {s : State} (h : BuffersLegal s) {e : ErrorCode} (he : Raised e) : Inv (faultEntry e s) where
  ibufForm := h.ibuf
  resbufForm := h.resbuf
  obufForm := h.obuf
  errcode := by simp only [faultEntry, if_true]; exact ⟨e, he, rfl⟩
  faultFlags := fun _ => ⟨rfl, rfl, rfl⟩
  pending := by simp [faultEntry]
  crcFlags := by simp [faultEntry]
  held := by simp [faultEntry]
  parse := by simp [faultEntry]

theorem inv_parseFault {s : State} (h : BuffersLegal s) {e : ErrorCode} (he : Raised e) : Inv (parseFault e s) := by
  unfold parseFault
  refine inv_faultEntry ?_ he
  refine ⟨h.ibuf, ⟨writeRun_wf h.resbuf.1 _ _, writeRun_bound h.resbuf.2 _ _ ?_⟩, h.obuf⟩
  rw [length_freeRun]; omega

theorem inv_reconstructFault {s : State} (h : BuffersLegal s) {e : ErrorCode} (he : Raised e) :
    Inv (reconstructFault e s) := by
  unfold reconstructFault
  refine inv_faultEntry ?_ he
  refine ⟨h.ibuf, h.resbuf, ⟨writeRun_wf h.obuf.1 _ _, writeRun_bound h.obuf.2 _ _ ?_⟩⟩
  rw [length_freeRun]; omega

theorem inv_verifyFault {s : State} (h : BuffersLegal s) {e : ErrorCode} (he : Raised e) : Inv (verifyFault e s) := by
  unfold verifyFault
  refine inv_faultEntry ?_ he
  exact ⟨h.ibuf, h.resbuf, h.obuf⟩

/-- While not BUSY a legal state has no command, and no PARSE_SUBFRAME running. -/
theorem inv_notBusy {s : State} (h : Inv s) (hb : s.blockState ≠ .busy) : s.parse = none ∧ s.pending = none := by
  have h1 : s.pending = none := by
    cases hp : s.pending with
    | none => rfl
    | some op => exact absurd (h.pending.2 (by rw [hp]; rfl)) hb
  refine ⟨?_, h1⟩
  cases hp : s.parse with
  | none => rfl
  | some p => have := (h.parse p hp).1; rw [h1] at this; cases this

theorem inv_advance {s : State} (h : Inv s) (n : Nat) : Inv (advance s n) :=
  ⟨h.ibufForm, h.resbufForm, h.obufForm, h.errcode, h.faultFlags, h.pending, h.crcFlags,
    fun v => exists_held_of_eq (h.held v) rfl,
    fun p hp => let ⟨a, b, c, d⟩ := h.parse p hp; ⟨a, b, phaseLegal_of_eq c rfl, d⟩⟩

/-- A run of residuals extends the written ones. -/
theorem writtenBelow_writeRun {m : Memory Long} {i width : Nat} {vs : List Int} (h : WrittenBelow m i width)
    (hv : ∀ v ∈ vs, InSigned width v) (hw : width ≤ 64) :
    WrittenBelow (m.writeRun i (vs.map (BitVec.ofInt 64))) (i + vs.length) width := by
  intro j hj
  rcases Nat.lt_or_ge j i with h1 | h1
  · rw [read_writeRun_outside _ _ _ _ (.inl h1)]; exact h j h1
  · obtain ⟨k, rfl⟩ : ∃ k, j = i + k := ⟨j - i, by omega⟩
    have hk : k < vs.length := by omega
    refine ⟨BitVec.ofInt 64 vs[k], by rw [read_writeRun_inside _ _ _ _ (by simpa using hk)]; simp, ?_⟩
    rw [toInt_ofInt_of_inSigned (by omega) (inSigned_mono (hv _ (List.getElem_mem hk)) hw)]
    exact hv _ (List.getElem_mem hk)

/-- A register file of the values given is legal. -/
theorem fileLegal_fileOf {w width : Nat} {vs : List Int} (hw : width ≤ w) (h0 : w ≠ 0)
    (hv : ∀ v ∈ vs, InSigned width v) : FileLegal (fileOf w vs) vs.length width := by
  intro i
  rw [getElem_fileOf]
  refine ⟨fun h => ?_, fun h => ?_⟩
  · rw [List.getD_eq_getElem?_getD, List.getElem?_eq_getElem h, Option.getD_some]
    have := hv _ (List.getElem_mem h)
    rw [toInt_ofInt_of_inSigned h0 (inSigned_mono this hw)]; exact this
  · rw [List.getD_eq_getElem?_getD, List.getElem?_eq_none h]; rfl

end Sys2Proof.Machine
end

