-- ==== Sys2Proof/Tests/Slice0.lean ====
section
/-! SUPPORT. Tests: words written out from the spec's encodings, the vectors of spec/95_test_vectors.md, and for each
obligation with hypotheses a state that meets them. Every expected value is the spec's. -/

namespace Sys2Proof.Tests

open Sys2Proof Sys2Proof.Machine Sys2Proof.Claims

-- One declaration after another: each waits for the kernel, and in parallel their stacks add up.
set_option Elab.async false

/-! ## Which instructions are well formed (R125, R192) -/

theorem test_wellFormed_partRice4_refuses_escape : (Instr.partRice4 15).wellFormed = false := by decide

theorem test_wellFormed_partRice5_refuses_escape : (Instr.partRice5 31).wellFormed = false := by decide

theorem test_wellFormed_rice_parameters : ((Instr.partRice4 14).wellFormed && (Instr.partRice5 30).wellFormed
    && (Instr.partRice4 0).wellFormed && (Instr.partRice5 15).wellFormed) = true := by decide

/-! ## Decoding: each form's word, bit by bit from its row of the encoding tables (R112, R123, R125, R131) -/

theorem test_decode_sfConstant :
    decode .header [false, false, false, false, false, false, false, true] = .ok (.sfConstant true, []) := by rfl

theorem test_decode_sfVerbatim :
    decode .header [false, false, false, false, false, false, true, false] = .ok (.sfVerbatim false, []) := by rfl

theorem test_decode_sfFixed0 :
    decode .header [false, false, false, true, false, false, false, false] = .ok (.sfFixed0 false, []) := by rfl

theorem test_decode_sfFixed1 :
    decode .header [false, false, false, true, false, false, true, true] = .ok (.sfFixed1 true, []) := by rfl

theorem test_decode_sfFixed2 :
    decode .header [false, false, false, true, false, true, false, false] = .ok (.sfFixed2 false, []) := by rfl

theorem test_decode_sfFixed3 :
    decode .header [false, false, false, true, false, true, true, false] = .ok (.sfFixed3 false, []) := by rfl

theorem test_decode_sfFixed4 :
    decode .header [false, false, false, true, true, false, false, true] = .ok (.sfFixed4 true, []) := by rfl

/-- Order 19 is TYPE 50. -/
theorem test_decode_sfLpc :
    decode .header [false, true, true, false, false, true, false, true] = .ok (.sfLpc 18 true, []) := by rfl

theorem test_decode_resRice4 :
    decode .residual [false, false, true, false, false, false] = .ok (.resRice4 8, []) := by rfl

theorem test_decode_resRice5 :
    decode .residual [false, true, false, false, false, true] = .ok (.resRice5 1, []) := by rfl

theorem test_decode_partEsc4 :
    decode .partition4 [true, true, true, true, true, false, false, false, false] = .ok (.partEsc4 16, []) := by rfl

theorem test_decode_partRice4 :
    decode .partition4 [true, true, true, false] = .ok (.partRice4 14, []) := by rfl

theorem test_decode_partEsc5 :
    decode .partition5 [true, true, true, true, true, false, false, false, true, true] = .ok (.partEsc5 3, []) := by rfl

theorem test_decode_partRice5 :
    decode .partition5 [false, true, true, true, true] = .ok (.partRice5 15, []) := by rfl

theorem test_decode_cmdNop : decode .command (List.replicate 32 false) = .ok (.cmdNop, []) := by rfl

theorem test_decode_cmdParseSubframe :
    decode .command (List.replicate 31 false ++ [true]) = .ok (.cmdParseSubframe, []) := by rfl

theorem test_decode_cmdReconstruct :
    decode .command (List.replicate 30 false ++ [true, false]) = .ok (.cmdReconstruct, []) := by rfl

theorem test_decode_cmdVerifyCrc16 :
    decode .command (List.replicate 30 false ++ [true, true]) = .ok (.cmdVerifyCrc16, []) := by rfl

theorem test_decode_cmdSoftReset :
    decode .command (List.replicate 28 false ++ [true, true, true, true]) = .ok (.cmdSoftReset, []) := by rfl

/-- R113: PAD is judged before TYPE, and R304: a bad field before the end of the bits. -/
theorem test_decode_refusals :
    decode .header [true] = .error .subframePadding
      ∧ decode .header [false, false, false, true, true, false, true] = .error .invalidCode
      ∧ decode .residual [true, true] = .error .invalidCode
      ∧ decode .command (List.replicate 27 false ++ [true, false, false, false, true]) = .error .invalidCommand := by
  refine ⟨?_, ?_, ?_, ?_⟩ <;> rfl

/-! ## States and readings for the vectors -/

/-- A value of the state a step answers. -/
def view {α : Type} (f : State → α) : Result → Option α
  | .next s => some (f s)
  | .fault _ => none
  | .refused _ => none

/-- PARSE_SUBFRAME accepted and past its entry checks, with the bytes in IBUF from 0 and the cursor at (0, 0). -/
def parsing (bytes : List Byte) (blocksize samplesize : Word) : State :=
  { State.reset with
    blockState := .busy
    ibuf := cellsFrom 0 bytes
    ibufLen := BitVec.ofNat 32 bytes.length
    blocksize := blocksize
    samplesize := samplesize
    pending := some .parse
    parse := some ⟨0, 0, .header⟩ }

/-- The same, with the bytes after the header's 8 bits. -/
def pastHeader (bytes : List Byte) (blocksize samplesize : Word) : State :=
  { parsing bytes blocksize samplesize with curByte := 1 }

/-- STATUS and the cursor. -/
def statusAndCursor (s : State) : Word × Word × BitVec 3 := (statusWord s, s.curByte, s.curBit)

/-- The first n elements of a buffer, as signed values. -/
def firstOf (m : Memory Long) (n : Nat) : List Int := (m.slice 0 n).map BitVec.toInt

/-- STATUS after a whole PARSE_SUBFRAME. -/
def statusOf (bytes : List Byte) (blocksize samplesize : Word) : Option Word :=
  view statusWord (step (parsing bytes blocksize samplesize))

/-- STATUS, the cursor and the first residuals after a whole PARSE_SUBFRAME. -/
def residualsOf (bytes : List Byte) (blocksize samplesize : Word) (n : Nat) :
    Option ((Word × Word × BitVec 3) × List Int) :=
  view (fun s => (statusAndCursor s, firstOf s.resbuf n)) (step (parsing bytes blocksize samplesize))

/-! ## Subframe forms (spec/95_test_vectors.md §2.2 to §2.5) -/

/-- C1 -/
theorem test_sfConstant_C1 :
    view (fun s => (statusAndCursor s, s.sfKind, s.sfWidth, s.sfConst.toInt)) (step (parsing [0x00, 0xFF, 0xFB] 4 16))
      = some ((0x06, 3, 0), 1, 16, -5) := by decide +kernel

/-- C6 -/
theorem test_sfConstant_C6_truncated : statusOf [0x00, 0x00] 1 16 = some 0x0203 := by decide +kernel

/-- V1 -/
theorem test_sfVerbatim_V1 :
    residualsOf [0x02, 0x01, 0xFF, 0x7F] 3 8 3 = some ((0x06, 4, 0), [1, -1, 127]) := by decide +kernel

/-- V2 -/
theorem test_sfVerbatim_V2_truncated : statusOf [0x02, 0x01] 2 8 = some 0x0203 := by decide +kernel

/-- F0, the source's own example E4 -/
theorem test_sfFixed0_F0 :
    residualsOf [0x10, 0x00, 0xE2, 0x6A, 0xF0] 5 16 5 = some ((0x06, 4, 6), [0, -1, 1, -2, 2]) := by decide +kernel

/-- F1 -/
theorem test_sfFixed1_F1 :
    view (fun s => (statusAndCursor s, s.sfOrder, s.warm[0].toInt, firstOf s.resbuf 4))
        (step (parsing [0x12, 0x0A, 0x00, 0xB2, 0x28] 4 8))
      = some ((0x06, 4, 5), 1, 10, [1, 2, -3]) := by decide +kernel

/-- F2 -/
theorem test_sfFixed2_F2 :
    residualsOf [0x14, 0x01, 0x02, 0x00, 0x69, 0x00] 5 8 3 = some ((0x06, 5, 1), [0, 0, 1]) := by decide +kernel

/-- F3 -/
theorem test_sfFixed3_F3 :
    view (fun s => (statusAndCursor s, fileTake s.warm 4)) (step (parsing [0x16, 0x00, 0x01, 0x04, 0x00, 0x30] 5 8))
      = some ((0x06, 5, 4), [0, 1, 4, 0]) := by decide +kernel

/-- F4 -/
theorem test_sfFixed4_F4 :
    view (fun s => (statusAndCursor s, fileTake s.warm 5))
        (step (parsing [0x18, 0x00, 0x01, 0x08, 0x1B, 0x00, 0x30] 6 8))
      = some ((0x06, 6, 4), [0, 1, 8, 27, 0]) := by decide +kernel

/-- H6: the order check comes before the flag -/
theorem test_sfFixed4_H6_order : statusOf [0x18, 0, 0, 0, 0, 0, 0, 0, 0] 3 16 = some 0x1103 := by decide +kernel

/-- L2: the parameters; then the rest. -/
theorem test_sfLpc_L2_parameters :
    view (fun s => (s.sfOrder, s.lpcPrec, s.lpcShift, fileTake s.coef 3))
        (step (parsing [0x42, 0x04, 0x06, 0x40, 0x8F, 0xE0, 0x0A, 0x70] 5 8))
      = some (2, 5, 1, [3, -1, 0]) := by decide +kernel

theorem test_sfLpc_L2_samples :
    view (fun s => (statusAndCursor s, s.sfKind, fileTake s.warm 3, firstOf s.resbuf 3))
        (step (parsing [0x42, 0x04, 0x06, 0x40, 0x8F, 0xE0, 0x0A, 0x70] 5 8))
      = some ((0x06, 7, 5), 4, [4, 6, 0], [1, -2, 0]) := by decide +kernel

/-- L4 and L5, faults of LPC's fields -/
theorem test_precision_and_shift_L4_L5 :
    statusOf [0x40, 0x03, 0xF0, 0, 0, 0, 0, 0] 3 8 = some 0x0503
      ∧ statusOf [0x40, 0x03, 0x1F, 0x80, 0, 0, 0, 0, 0] 3 8 = some 0x1303 := by decide +kernel

/-! ## Residuals (spec/95_test_vectors.md §2.6) -/

/-- R2 -/
theorem test_partRice5_R2 : residualsOf [0x10, 0x40, 0x14, 0x80] 3 8 3 = some ((0x06, 3, 1), [0, -1, 1]) := by
  decide +kernel

/-- R3 -/
theorem test_partEsc4_R3 :
    residualsOf [0x10, 0x03, 0xCB, 0x07, 0x80] 3 8 3 = some ((0x06, 4, 6), [-16, 15, 0]) := by decide +kernel

/-- R4: an escape of width 0 reads nothing -/
theorem test_partEsc4_R4 : residualsOf [0x10, 0x03, 0xC0] 3 8 3 = some ((0x06, 2, 7), [0, 0, 0]) := by decide +kernel

/-- R7 -/
theorem test_resRice4_R7_alignment : statusOf [0x10, 0x08, 0x00, 0x00] 6 8 = some 0x0603 := by decide +kernel

/-- R8 -/
theorem test_resRice4_R8_count : statusOf [0x14, 0x00, 0x00, 0x0C, 0x00, 0x00] 8 8 = some 0x1403 := by decide +kernel

/-- R9 and R10, the two sides of 2^32 -/
theorem test_partRice5_R9_R10 :
    statusOf [0x10, 0x43, 0xC1, 0, 0, 0, 0] 1 8 = some 0x1503
      ∧ residualsOf [0x10, 0x43, 0xC3, 0xFF, 0xFF, 0xFF, 0xF8] 1 8 1 = some ((0x06, 6, 5), [-2147483648]) := by
  decide +kernel

/-- R11 -/
theorem test_partEsc5_R11 :
    residualsOf [0x10, 0x43, 0xFF, 0x80, 0, 0, 0] 1 8 1 = some ((0x06, 6, 7), [-1073741824]) := by decide +kernel

/-- R14: four partitions of three widths -/
theorem test_partRice4_R14 :
    residualsOf [0x10, 0x08, 0x0F, 0x8E, 0x74, 0x00, 0x1F, 0x00] 4 8 4 = some ((0x06, 7, 5), [1, -4, -1, 0]) := by
  decide +kernel

/-- R2's residual header: METHOD 1 and PORDER 0 into the result registers -/
theorem test_resRice5_R2_registers :
    view (fun s => (s.resMethod, s.resPorder)) (step (parsing [0x10, 0x40, 0x14, 0x80] 3 8)) = some (1, 0) := by
  decide +kernel

/-! ## RECONSTRUCT -/

/-- A held subframe, and RECONSTRUCT accepted. -/
def holding (kind order blocksize : Word) (warm coef residuals : List Int) (shift wasted : Word) : State :=
  { State.reset with
    blockState := .busy
    pending := some .reconstruct
    sfValid := true
    sfKind := kind
    sfOrder := order
    sfBlocksize := blocksize
    sfWidth := 8
    sfWasted := wasted
    lpcShift := shift
    warm := fileOf 64 warm
    coef := fileOf 32 coef
    resbuf := cellsFrom 0 (residuals.map (BitVec.ofInt 64)) }

/-- OBUF and STATUS after RECONSTRUCT. -/
def output (s : State) (n : Nat) : Option (Word × List Int) :=
  view (fun t => (statusWord t, firstOf t.obuf n)) (step s)

/-- F2's and L7's output: the most recent sample's coefficient first, and a floor shift. -/
theorem test_cmdReconstruct_F2_L7 :
    output (holding 3 2 5 [1, 2] [] [0, 0, 1] 0 0) 6 = some (0x06, [1, 2, 3, 4, 6])
      ∧ output (holding 4 1 3 [-7] [3] [0, 0] 2 0) 4 = some (0x06, [-7, -6, -5]) := by decide +kernel

/-- L6's overflow, and X10's missing subframe. -/
theorem test_cmdReconstruct_L6_X10 :
    view statusWord (step (holding 4 1 4 [-4294967296] [-16384] [0, 0, 0] 0 0)) = some 0x1603
      ∧ view statusWord (step { State.reset with blockState := .busy, pending := some .reconstruct })
        = some 0x2103 := by decide +kernel

/-! ## VERIFY_CRC16 -/

/-- VERIFY_CRC16 accepted. -/
def verifying (bytes : List Byte) (start stop : Word) : State :=
  { State.reset with
    blockState := .busy
    pending := some .verify
    ibuf := cellsFrom 0 bytes
    ibufLen := BitVec.ofNat 32 bytes.length
    crcStart := start
    crcEnd := stop }

/-- STATUS and the CRC registers past the IBUF_LEN check, which depends on `P_IBUF_BYTES`. -/
def crcOf (bytes : List Byte) (start stop : Word) : Option (Word × BitVec 16 × BitVec 16) :=
  view (fun t => (statusWord t, t.crcCalc, t.crcExpect)) (verifySpan (verifying bytes start stop))

/-- K1 and K7 -/
theorem test_cmdVerifyCrc16_K1_K7 :
    crcOf [0x31, 0x32, 0x33, 0x34, 0x35, 0x36, 0x37, 0x38, 0x39, 0xFE, 0xE8] 0 9 = some (0x1A, 0xFEE8, 0xFEE8)
      ∧ crcOf [0x01, 0x80, 0x04] 0 1 = some (0x0A, 0x8005, 0x8004) := by decide +kernel

/-- K10 and K11 -/
theorem test_cmdVerifyCrc16_K10_K11 :
    view statusWord (verifySpan (verifying [0x01, 0x80, 0x05] 2 1)) = some 0x2003
      ∧ view statusWord (verifySpan (verifying [0x01, 0x80] 0 1)) = some 0x0203 := by decide +kernel

/-! ## Command control (spec/95_test_vectors.md §2.10) -/

/-- A host about to do one action, from reset but for what is given. -/
def hostDoes (a : HostAction) (s : State) : State := { s with host := [a] }

/-- The state after vector F1's PARSE_SUBFRAME, as far as the tests look. -/
def parsedF1 : State :=
  { State.reset with blockState := .done, sfValid := true, curByte := 4, curBit := 5, warm := fileOf 64 [10] }

/-- M1 -/
theorem test_cmdNop_M1 : view statusAndCursor (step (hostDoes (.writeReg 0 0) parsedF1)) = some (0x06, 4, 5) := by
  decide +kernel

/-- M2, M4 and M5 -/
theorem test_reserved_words_M2_M4_M5 :
    view statusWord (step (hostDoes (.writeReg 0 4) State.reset)) = some 0x2203
      ∧ view statusWord (step (hostDoes (.writeReg 0 0x11) State.reset)) = some 0x2203
      ∧ view statusWord (step (hostDoes (.writeReg 0 0xFFFFFFFF) State.reset)) = some 0x2203 := by decide +kernel

/-- M6 and M7 -/
theorem test_fault_is_sticky_M6_M7 :
    view statusWord (step (hostDoes (.writeReg 0 1) (faultEntry .invalidCommand State.reset))) = some 0x2203
      ∧ view statusWord (step (hostDoes (.writeReg 0 0x1F) (faultEntry .invalidCommand State.reset)))
        = some 0x2203 := by decide +kernel

/-- M9 -/
theorem test_cmdSoftReset_M9 :
    view (fun s => (statusAndCursor s, s.warm[0].toInt)) (step (hostDoes (.writeReg 0 0x0F) parsedF1))
      = some ((0, 4, 5), 10) := by decide +kernel

/-- M8, with a subframe's registers to keep. -/
theorem test_cmdSoftReset_M8 :
    view (fun s => (statusWord s, s.sfType, s.sfKind))
        (step (hostDoes (.writeReg 0 0x0F) (faultEntry .invalidCommand { parsedF1 with sfType := 9, sfKind := 3 })))
      = some (0, 9, 3) := by decide +kernel

/-- X9 -/
theorem test_curBit_stores_three_bits_X9 :
    (view (fun s => readReg s 4) (step (hostDoes (.writeReg 4 0x0D) State.reset)))
      = some (.word 5) := by decide +kernel

/-- PARSE_SUBFRAME accepted, with IBUF_LEN = 0, which is legal for every `P_IBUF_BYTES`. -/
def accepted (blocksize samplesize curByte : Word) : State :=
  { State.reset with
    blockState := .busy, pending := some .parse, blocksize := blocksize, samplesize := samplesize, curByte := curByte }

/-- X1, X2, X4, X5 and X6 -/
theorem test_cmdParseSubframe_X1_to_X6 :
    view statusWord (step (accepted 0 16 0)) = some 0x2003
      ∧ view statusWord (step (accepted 65537 16 0)) = some 0x2003
      ∧ view statusWord (step (accepted 4 0 0)) = some 0x2003
      ∧ view statusWord (step (accepted 4 34 0)) = some 0x2003
      ∧ view statusWord (step (accepted 4 16 1)) = some 0x2003 := by decide +kernel

/-- X7: the entry checks pass with the cursor at IBUF_LEN, and the first read is cut off. -/
theorem test_cmdParseSubframe_X7 : view statusWord (step (accepted 65536 33 0)) = some 0x0203 := by decide +kernel

/-! ## Placing a word (log entry 19) -/

theorem test_decodeTableWord :
    [decodeTableWord 8 0x02, decodeTableWord 8 0x7E, decodeTableWord 6 0x10, decodeTableWord 4 0x0F,
      decodeTableWord 5 0x1F, decodeTableWord 4 0x03, decodeTableWord 32 2]
      = [some (.sfVerbatim false), some (.sfLpc 31 false), some (.resRice5 0), some (.partEsc4 0),
        some (.partEsc5 0), some (.partRice4 3), some .cmdReconstruct] := by decide +kernel

theorem test_withFetchWord :
    view (fun s => (statusWord s, s.sfKind)) (step (State.reset.withFetchWord 8 0x00)) = some (0x06, 1)
      ∧ view (fun s => s.parse.map (fun p => slotAt p.phase)) (step (State.reset.withFetchWord 6 0x10))
        = some (some .partition5)
      ∧ view (fun s => (statusWord s, s.resMethod)) (step (State.reset.withFetchWord 5 0x1F)) = some (0x06, 1)
      ∧ view (fun s => s.pending) (step (State.reset.withFetchWord 32 3)) = some (some .verify) := by decide +kernel

/-! ## Witnesses: states and operands that meet the hypotheses of each obligation, clause by clause -/

/-- The engine's next move is one stream element. -/
def turned (s : State) : State := { s with turns := [.element] }

/-- A host about to do one action while the block is BUSY. -/
def hostTurn (a : HostAction) : State :=
  { State.reset with blockState := .busy, pending := some .verify, turns := [.host], host := [a] }

/-- The block in FAULT, and a host about to do one action. -/
def hostInFault (a : HostAction) : State := hostDoes a (faultEntry .truncatedStream State.reset)

/-- The engine at a residual header or a partition, past the header's bits, with what it knows of a subframe. -/
def inside (bytes : List Byte) (curBit : BitVec 3) (phase : ParsePhase) : State :=
  { parsing bytes 4 8 with curByte := 0, curBit := curBit, parse := some ⟨0, 0, phase⟩ }

/-- A FIXED subframe of an order and a block size. -/
def known (order blocksize : Nat) : Subframe := ⟨BitVec.ofNat 6 (8 + order), false, .fixed, order, 0, 8, blocksize, 0, 0⟩

theorem next_of_view {α : Type} {f : State → α} {r : Result} {a : α} (h : view f r = some a) :
    ∃ t, r = .next t ∧ f t = a := by
  cases r <;> simp_all [view]

/-- The fault a step answers. -/
def faultOf : Result → Option Fault
  | .next _ => none
  | .fault r => some r
  | .refused _ => none

theorem fault_of_faultOf {r : Result} {e : Fault} (h : faultOf r = some e) : r = .fault e := by
  cases r <;> simp_all [faultOf]

theorem one_le_ibufBytes : 1 ≤ Config.ibufBytes := Nat.le_add_left _ _

theorem wastedBias_le_one : Config.wastedBias ≤ 1 := Bool.toNat_le _

theorem ibufBytes_bound : Config.ibufBytes ≤ 4294967295 := Config.ibufBytesLessOne.isLt

theorem inv_accepted (blocksize samplesize curByte : Word) : Inv (accepted blocksize samplesize curByte) := by
  constructor <;> simp [accepted, State.reset, Memory.wf]

/-! ### Encodings and fields -/

theorem witness_DecodeOfEncodeIsTheInstruction :
    (Instr.partRice5 30).wellFormed = true ∧ (Instr.sfLpc 31 true).wellFormed = true := by decide

theorem witness_DecodeAcceptsOnlyEncodings :
    decode .partition4 [true, true, true, false, true] = .ok (.partRice4 14, [true]) := by rfl

theorem witness_ReservedStreamCodesFault :
    (Running .parse (turned (parsing [0x80] 4 16)) ∧ (turned (parsing [0x80] 4 16)).parse = some ⟨0, 0, .header⟩
      ∧ (turned (parsing [0x80] 4 16)).turns = [.element]
      ∧ streamBits (turned (parsing [0x80] 4 16)) = true :: List.replicate 7 false)
    ∧ (∀ t ∈ [2, 7, 13, 31], (2 ≤ t ∧ t ≤ 7 ∨ 13 ≤ t ∧ t ≤ 31)
      ∧ streamBits (turned (parsing [BitVec.ofNat 8 (2 * t)] 4 16)) = false :: natBits 6 t ++ [false])
    ∧ streamBits (turned (inside [0x80] 0 (.residual (known 0 4)))) = true :: false :: List.replicate 6 false
    ∧ streamBits (turned (inside [0xC0] 0 (.residual (known 0 4)))) = true :: true :: List.replicate 6 false := by
  unfold Running; decide +kernel

theorem witness_ReadBitsTakesBitsMostSignificantFirst :
    2 ≤ [true, false].length ∧ 1 < 2 ∧ [true, false].length < 3 := by decide

theorem witness_ReadSignedIsTwosComplement :
    FieldValue 0 0 ∧ FieldValue 1 (-1) ∧ FieldValue 33 (-4294967296) ∧ FieldValue 33 4294967295
      ∧ signedField 5 [true, false, false, false, false] = .ok (-16, []) := by
  refine ⟨?_, ?_, ?_, ?_, by rfl⟩ <;> unfold FieldValue <;> decide

theorem witness_ZigZagIsOntoSigned32 :
    (2 ^ 32 - 1) % 2 = 1 ∧ (2 ^ 32 - 2) % 2 = 0 ∧ InSigned 32 (-2147483648) ∧ InSigned 32 2147483647 := by
  decide

theorem witness_RiceCodewordRoundTrip : InSigned 32 (-2147483648) ∧ InSigned 32 2147483647 ∧ InSigned 32 0 := by
  decide

theorem witness_RiceOverflowNeedsTheWholeCodeword :
    0 < 2 ^ 30 ∧ 2 ^ 32 ≤ 4 * 2 ^ 30 + 0 ∧ 34 < 4 + 1 + 30 ∧ 0 < 4 + 1 + 30 := by norm_num

theorem witness_StreamIsIbufFromTheCursor :
    (parsing [0xA5, 0x3C] 4 8).ibuf.wf ∧ (streamBits (parsing [0xA5, 0x3C] 4 8))[15]? = some false
      ∧ streamEnd (parsing [0xA5, 0x3C] 4 8) = .bufferEnd
      ∧ streamEnd { parsing [0xA5, 0x3C] 4 8 with ibufLen := 3 } = .unwrittenByte := by
  decide +kernel

/-! ### Steps and commands -/

theorem witness_StepExecutesTheDecodedInstruction :
    ((hostDoes (.writeReg 0 0x0F) State.reset).blockState ≠ .busy
      ∧ (hostDoes (.writeReg 0 0x0F) State.reset).host = [.writeReg 0 0x0F]
      ∧ decoded? (decode .command (natBits 32 (0x0F#32).toNat)) = some .cmdSoftReset)
    ∧ (Running .parse (turned (parsing [0x7F] 4 16)) ∧ (turned (parsing [0x7F] 4 16)).turns = [.element]
      ∧ decoded? (decode (slotAt .header) (streamBits (turned (parsing [0x7F] 4 16)))) = some (.sfLpc 31 true))
    ∧ (∀ op, ∃ s : State, s.turns = [] ∧ Running op s)
    ∧ (State.reset.blockState ≠ .busy ∧ State.reset.host = []) := by
  refine ⟨by decide +kernel, ⟨⟨rfl, rfl⟩, by decide +kernel⟩, fun op => ?_, by decide⟩
  exact ⟨{ State.reset with blockState := .busy, pending := some op }, rfl, rfl, rfl⟩

theorem witness_WholeParseIsTheRunOfItsElements :
    (Running .parse (parsing [0x00, 0xFF, 0xFB] 4 16) ∧ (parsing [0x00, 0xFF, 0xFB] 4 16).turns = []
      ∧ ∃ t, step (parsing [0x00, 0xFF, 0xFB] 4 16) = .next t ∧ t.blockState = .done)
    ∧ (Running .parse { parsing [0x00] 4 16 with ibufLen := 2 } ∧ ({ parsing [0x00] 4 16 with ibufLen := 2 }).turns = []
      ∧ step { parsing [0x00] 4 16 with ibufLen := 2 } = .fault (.unwrittenRead .ibuf)) := by
  refine ⟨⟨⟨rfl, rfl⟩, rfl, ?_⟩, ⟨⟨rfl, rfl⟩, rfl, fault_of_faultOf (by decide +kernel)⟩⟩
  exact next_of_view (f := State.blockState) (by decide +kernel)

theorem witness_EngineStepEndsTheCommand :
    Inv (accepted 4 16 0) ∧ (accepted 4 16 0).blockState = .busy ∧ (accepted 4 16 0).turns = [] :=
  ⟨inv_accepted _ _ _, rfl, rfl⟩

theorem witness_EngineCommandsAreAccepted :
    State.reset.blockState = .idle ∧ parsedF1.blockState = .done := by decide

theorem witness_CommandAcceptance :
    ((hostInFault (.writeReg 0 1)).blockState = .fault ∧ (1#32 ≠ 0x0000000F)
      ∧ (hostInFault (.writeReg 0 1)).host = [.writeReg 0 1])
    ∧ (∀ n ∈ [0, 1, 2, 3, 4, 14, 15, 16, 0xFFFFFFFF],
      (hostDoes (.writeReg 0 (BitVec.ofNat 32 n)) State.reset).blockState ≠ .busy
        ∧ (hostDoes (.writeReg 0 (BitVec.ofNat 32 n)) State.reset).blockState ≠ .fault
        ∧ (hostDoes (.writeReg 0 (BitVec.ofNat 32 n)) State.reset).host = [.writeReg 0 (BitVec.ofNat 32 n)])
    ∧ (∀ n ∈ [16, 31, 0xFFFFFFFF], (BitVec.ofNat 32 n).extractLsb' 4 28 ≠ 0)
    ∧ ∀ n ∈ [4, 14], 4 ≤ ((BitVec.ofNat 32 n).extractLsb' 0 4).toNat
      ∧ ((BitVec.ofNat 32 n).extractLsb' 0 4).toNat ≤ 14 := by
  decide +kernel

theorem witness_NopChangesNothing :
    (hostInFault (.writeReg 0 0)).blockState ≠ .busy
      ∧ (hostInFault (.writeReg 0 0)).host = [.writeReg 0 0x00000000] := by decide +kernel

theorem witness_SoftResetClearsStatusAndKeepsTheRest :
    (hostInFault (.writeReg 0 15)).blockState ≠ .busy
      ∧ (hostInFault (.writeReg 0 15)).host = [.writeReg 0 0x0000000F] := by decide +kernel

theorem witness_ReservedCommandFaults :
    ∀ n ∈ [4, 14, 16, 0xFFFFFFFF], (BitVec.ofNat 32 n).toNat ∉ [0, 1, 2, 3, 15]
      ∧ (hostDoes (.writeReg 0 (BitVec.ofNat 32 n)) parsedF1).blockState = .done
      ∧ (hostDoes (.writeReg 0 (BitVec.ofNat 32 n)) State.reset).blockState = .idle
      ∧ (hostDoes (.writeReg 0 (BitVec.ofNat 32 n)) State.reset).host = [.writeReg 0 (BitVec.ofNat 32 n)] := by
  decide +kernel

theorem witness_FaultIsSticky :
    (∀ a ∈ [HostAction.writeReg 0 0x1F, .writeReg 0 0x0F, .reset, .writeReg 1 0, .writeReg 8 7, .writeIbuf 0 9],
      (hostInFault a).blockState = .fault ∧ (hostInFault a).host = [a])
    ∧ (0x1F#32 ≠ 0x0000000F) ∧ 0 < Config.ibufBytes
    ∧ ∀ a ∈ [HostAction.readReg 1, .readBuf .warm 0, .readBuf .obuf 65536],
      ∃ t, step (hostInFault a) = .next t ∧ (t.blockState, t.errcode) = (.fault, 0x02) := by
  refine ⟨by decide +kernel, by decide, one_le_ibufBytes, fun a ha => ?_⟩
  simp only [List.mem_cons, List.not_mem_nil, or_false] at ha
  rcases ha with rfl | rfl | rfl <;>
    exact next_of_view (f := fun t => (t.blockState, t.errcode)) (by decide +kernel)

/-! ### The host port -/

theorem witness_HostWritesWhileBusyAreRefused :
    (∀ a ∈ [HostAction.writeReg 0 0x0F, .writeIbuf 0 1], (hostTurn a).blockState = .busy
      ∧ (hostTurn a).turns = [.host] ∧ (hostTurn a).host = [a])
    ∧ IsWrite (.writeReg 0 0x0F) ∧ IsWrite (.writeIbuf 0 1) :=
  ⟨by decide +kernel, .inl ⟨_, _, rfl⟩, .inr ⟨_, _, rfl⟩⟩

theorem witness_RefusedActionsDoNothingElse :
    (∀ a ∈ [HostAction.writeIbuf 4294967295 1, .readBuf .ibuf 4294967295, .readBuf .resbuf 65536,
        .readBuf .obuf 65536, .readBuf .warm 32, .readBuf .coef 32],
      (hostDoes a State.reset).blockState ≠ .busy ∧ (hostDoes a State.reset).host = [a])
    ∧ Config.ibufBytes ≤ 4294967295
    ∧ (hostTurn (.writeReg 2 0)).blockState = .busy ∧ (hostTurn (.writeReg 2 0)).turns = [.host]
    ∧ IsWrite (.writeReg 2 0) :=
  ⟨by decide +kernel, ibufBytes_bound, rfl, rfl, .inl ⟨_, _, rfl⟩⟩

theorem witness_HostReadsWhileBusyChangeNothing :
    ∀ a ∈ [HostAction.readReg 0, .readReg 1, .readReg 20, .readReg 21, .readReg 22, .readBuf .ibuf 0, .readBuf .coef 31,
        .readBuf .warm 31, .readBuf .resbuf 65535, .readBuf .obuf 0],
      (hostTurn a).blockState = .busy ∧ (hostTurn a).turns = [.host] ∧ (hostTurn a).host = [a] := by decide +kernel

theorem witness_ReservedRegisterNumbers :
    ∀ a ∈ [HostAction.readReg 22, .writeReg 22 5],
      (hostDoes a State.reset).blockState ≠ .busy ∧ (hostDoes a State.reset).host = [a] := by decide +kernel

theorem witness_HostRegisterWrites :
    ∀ r ∈ [1, 2, 3, 4, 5, 6, 7, 8, 9, 21], r ≠ 0
      ∧ (hostDoes (.writeReg r 0xFFFFFFFF) State.reset).blockState ≠ .busy
      ∧ (hostDoes (.writeReg r 0xFFFFFFFF) State.reset).host = [.writeReg r 0xFFFFFFFF] := by decide +kernel

theorem witness_HostRegisterReads :
    ∀ r ∈ List.range 23, (hostDoes (.readReg r) parsedF1).blockState ≠ .busy
      ∧ (hostDoes (.readReg r) parsedF1).host = [.readReg r] := by decide +kernel

theorem witness_HostIbufWrites :
    (∀ i ∈ [0, 4294967295], (hostDoes (.writeIbuf i 0) State.reset).blockState ≠ .busy
      ∧ (hostDoes (.writeIbuf i 0) State.reset).host = [.writeIbuf i 0])
    ∧ 0 < Config.ibufBytes ∧ Config.ibufBytes ≤ 4294967295 :=
  ⟨by decide +kernel, one_le_ibufBytes, ibufBytes_bound⟩

/-- Buffers with their first or last element written. -/
def filled : State := { State.reset with ibuf := [(0, 7)], resbuf := [(65535, 8)], obuf := [(0, 9)] }

theorem witness_HostBufferReads :
    (∀ a ∈ [HostAction.readBuf .ibuf 0, .readBuf .resbuf 65535, .readBuf .resbuf 65536, .readBuf .obuf 0,
        .readBuf .obuf 65535, .readBuf .warm 31, .readBuf .warm 32, .readBuf .coef 0, .readBuf .ibuf 4294967295],
      (hostDoes a filled).blockState ≠ .busy ∧ (hostDoes a filled).host = [a])
    ∧ filled.ibuf.read 0 = some 7 ∧ filled.resbuf.read 65535 = some 8 ∧ filled.obuf.read 0 = some 9
    ∧ State.reset.ibuf.read 0 = none ∧ filled.resbuf.read 0 = none ∧ filled.obuf.read 65535 = none
    ∧ 0 < Config.ibufBytes ∧ Config.ibufBytes ≤ 4294967295 := by
  refine ⟨by decide +kernel, by decide, by decide, by decide, by decide, by decide, by decide, ?_⟩
  exact ⟨one_le_ibufBytes, ibufBytes_bound⟩

theorem witness_ResetClearsTheBlock :
    ((hostTurn .reset).host = [.reset] ∧ (hostTurn .reset).blockState = .busy ∧ (hostTurn .reset).turns = [.host])
    ∧ (hostDoes .reset parsedF1).host = [.reset] ∧ (hostDoes .reset parsedF1).blockState ≠ .busy
    ∧ (hostDoes .reset parsedF1).turns = [] := by decide +kernel

theorem witness_FaultEntryKeepsWhatTheCommandDoesNotWrite :
    65535 < min (accepted 65536 16 0).blocksize.toNat 65536 ∧ min (accepted 65536 16 0).blocksize.toNat 65536 ≤ 65536
      ∧ min State.reset.sfBlocksize.toNat 65536 ≤ 0
      ∧ 65535 < min { State.reset with sfBlocksize := 65537 }.sfBlocksize.toNat 65536 := by decide +kernel

/-! ### PARSE_SUBFRAME -/

theorem witness_ParseEntryChecksTheRegisters :
    (Running .parse (turned (accepted 0 16 0)) ∧ (turned (accepted 0 16 0)).parse = none
      ∧ (turned (accepted 0 16 0)).turns = [.element])
    ∧ ¬ EntryLegal (accepted 0 16 0) ∧ ¬ EntryLegal (accepted 65537 16 0) ∧ ¬ EntryLegal (accepted 4 0 0)
    ∧ ¬ EntryLegal (accepted 4 34 0) ∧ ¬ EntryLegal (accepted 4 16 1)
    ∧ EntryLegal (accepted 1 1 0) ∧ EntryLegal (accepted 65536 33 0) := by
  unfold EntryLegal SizesLegal Running; decide +kernel

theorem witness_SubframeFormsCheckOrderAndWidth :
    (AtHeader ⟨0, 0, .header⟩ (pastHeader [0x7E] 31 16) ∧ (Instr.sfLpc 31 false).slot = .header
      ∧ (pastHeader [0x7E] 31 16).blocksize.toNat < predictorOrder (.sfLpc 31 false)
      ∧ (pastHeader [0x18] 3 16).blocksize.toNat < predictorOrder (.sfFixed4 false))
    ∧ (AtHeader ⟨0, 0, .header⟩ (pastHeader [0x01, 0x40] 1 1)
      ∧ predictorOrder (.sfConstant true) ≤ (pastHeader [0x01, 0x40] 1 1).blocksize.toNat
      ∧ streamBits (pastHeader [0x01, 0x40] 1 1) = wastedBits true 1 ++ List.replicate 6 false
      ∧ (pastHeader [0x01, 0x40] 1 1).samplesize.toNat ≤ wastedOf true 1) := by
  unfold AtHeader SizesLegal
  exact ⟨by decide +kernel, by decide +kernel, by decide +kernel, by decide +kernel,
    Nat.le_add_right 1 Config.wastedBias⟩

theorem witness_ConstantSubframeIsParsed :
    (AtHeader ⟨0, 0, .header⟩ (pastHeader [0x00, 0x80, 0, 0, 0, 0] 2 33)
      ∧ wastedOf false 0 < (pastHeader [0x00, 0x80, 0, 0, 0, 0] 2 33).samplesize.toNat
      ∧ InSigned (widthOf (pastHeader [0x00, 0x80, 0, 0, 0, 0] 2 33) false 0) (-4294967296)
      ∧ streamBits (pastHeader [0x00, 0x80, 0, 0, 0, 0] 2 33)
        = wastedBits false 0 ++ signedBits (widthOf (pastHeader [0x00, 0x80, 0, 0, 0, 0] 2 33) false 0) (-4294967296)
          ++ List.replicate 7 false)
    ∧ AtHeader ⟨0, 0, .header⟩ (pastHeader [0x01, 0xFF, 0xFF] 65536 8)
      ∧ wastedOf true 0 < (pastHeader [0x01, 0xFF, 0xFF] 65536 8).samplesize.toNat
      ∧ InSigned (widthOf (pastHeader [0x01, 0xFF, 0xFF] 65536 8) true 0) (-1)
      ∧ ∃ rest, streamBits (pastHeader [0x01, 0xFF, 0xFF] 65536 8)
        = wastedBits true 0 ++ signedBits (widthOf (pastHeader [0x01, 0xFF, 0xFF] 65536 8) true 0) (-1) ++ rest := by
  unfold AtHeader SizesLegal widthOf wastedOf Config.wastedBias
  refine ⟨by decide +kernel, ?_⟩
  cases Config.wastedBiasBit
  · exact ⟨by decide +kernel, by decide +kernel, by decide +kernel, List.replicate 7 true, by decide +kernel⟩
  · exact ⟨by decide +kernel, by decide +kernel, by decide +kernel, List.replicate 8 true, by decide +kernel⟩

theorem witness_VerbatimSubframeIsParsed :
    AtHeader ⟨0, 0, .header⟩ (pastHeader [0x02, 0x80, 0xFF, 0x7F] 3 8)
      ∧ wastedOf false 0 < (pastHeader [0x02, 0x80, 0xFF, 0x7F] 3 8).samplesize.toNat
      ∧ [-128, -1, 127].length = (pastHeader [0x02, 0x80, 0xFF, 0x7F] 3 8).blocksize.toNat
      ∧ (∀ v ∈ [-128, -1, 127], InSigned (widthOf (pastHeader [0x02, 0x80, 0xFF, 0x7F] 3 8) false 0) v)
      ∧ streamBits (pastHeader [0x02, 0x80, 0xFF, 0x7F] 3 8) = wastedBits false 0
        ++ [-128, -1, 127].flatMap (signedBits (widthOf (pastHeader [0x02, 0x80, 0xFF, 0x7F] 3 8) false 0)) ++ [] := by
  unfold AtHeader SizesLegal; decide +kernel

/-- An element whose body is cut off, and what ends the bits. -/
def CutsOff (s : State) (i : Instr) (e : StreamEnd) : Prop :=
  ∃ p, s.parse = some p ∧ CutOffBody s p (streamBits s) i ∧ streamEnd s = e

/-- A partition of three residuals, with the bits at hand. -/
def atPartition (method : BitVec 1) (bytes : List Byte) : State :=
  inside bytes 0 (.partition (known 1 4) ⟨method, 0, 0, 0⟩)

/-- Cut off inside the run of wasted bits. -/
theorem cutsOff_wasted : CutsOff (pastHeader [0x01, 0x00] 1 16) (.sfConstant true) .bufferEnd
    ∧ CutsOff (pastHeader [0x11, 0x00] 1 16) (.sfFixed0 true) .bufferEnd := by
  unfold CutsOff CutOffBody CutOffForm AtHeader SizesLegal
  exact ⟨⟨_, rfl, ⟨by decide +kernel, by decide +kernel, .inl ⟨rfl, 8, by decide +kernel⟩⟩, by decide +kernel⟩,
    ⟨_, rfl, ⟨by decide +kernel, by decide +kernel, .inl ⟨rfl, 8, by decide +kernel⟩⟩, by decide +kernel⟩⟩

/-- C6, V2, and the warm-up samples of FIXED. -/
theorem cutsOff_samples : CutsOff (pastHeader [0x00, 0x00] 1 16) (.sfConstant false) .bufferEnd
    ∧ CutsOff (pastHeader [0x02, 0x01] 2 8) (.sfVerbatim false) .bufferEnd
    ∧ CutsOff { pastHeader [0x02, 0x01] 2 8 with ibufLen := 3 } (.sfVerbatim false) .unwrittenByte
    ∧ CutsOff (pastHeader [0x12] 4 8) (.sfFixed1 false) .bufferEnd
    ∧ CutsOff (pastHeader [0x18, 1, 2, 3] 4 8) (.sfFixed4 false) .bufferEnd := by
  unfold CutsOff CutOffBody CutOffForm AtHeader SizesLegal
  refine ⟨?_, ?_, ?_, ?_, ?_⟩ <;>
    exact ⟨_, rfl, ⟨by decide +kernel, by decide +kernel, .inr ⟨0, _, by decide +kernel, rfl, by decide +kernel⟩⟩,
      by decide +kernel⟩

/-- The four fields of LPC's body, at order 1 and width 8. -/
theorem cutsOff_lpc : CutsOff (pastHeader [0x40] 3 8) (.sfLpc 0 false) .bufferEnd
    ∧ CutsOff { pastHeader [0x40, 0x03] 3 8 with ibufLen := 3 } (.sfLpc 0 false) .unwrittenByte
    ∧ CutsOff (pastHeader [0x40, 0x03, 0x18] 3 8) (.sfLpc 0 false) .bufferEnd
    ∧ CutsOff (pastHeader [0x40, 0x03, 0xE7, 0xFF] 3 8) (.sfLpc 0 false) .bufferEnd := by
  unfold CutsOff CutOffBody CutOffForm CutOffLpc AtHeader SizesLegal
  refine ⟨?_, ?_, ?_, ?_⟩ <;>
    refine ⟨_, rfl, ⟨by decide +kernel, by decide +kernel, .inr ⟨0, _, by decide +kernel, rfl, ?_⟩⟩, by decide +kernel⟩
  · exact .inl (by decide +kernel)
  · exact .inr ⟨natBits 8 3, [], by decide +kernel, by decide +kernel, .inl (by decide)⟩
  · exact .inr ⟨natBits 8 3, natBits 4 1 ++ natBits 4 8, by decide +kernel, by decide +kernel,
      .inr ⟨1, natBits 4 8, by decide, rfl, .inl (by decide)⟩⟩
  · exact .inr ⟨natBits 8 3, natBits 4 14 ++ (natBits 5 15 ++ natBits 7 127), by decide +kernel, by decide +kernel,
      .inr ⟨14, natBits 5 15 ++ natBits 7 127, by decide, rfl, .inr ⟨15, natBits 7 127, by decide, rfl, by decide⟩⟩⟩

/-- Codewords and escape fields: the first cut off, or the third, and fields of the largest width. -/
theorem cutsOff_partition : CutsOff (atPartition 0 [0x80]) (.partRice4 14) .bufferEnd
    ∧ CutsOff (atPartition 1 [0x0A]) (.partRice5 0) .bufferEnd
    ∧ CutsOff { atPartition 1 [0x00] with ibufLen := 2 } (.partRice5 30) .unwrittenByte
    ∧ CutsOff (atPartition 0 [0xFF]) (.partEsc4 31) .bufferEnd
    ∧ CutsOff (atPartition 1 []) (.partEsc5 1) .bufferEnd := by
  unfold CutsOff CutOffBody CutOffPartition CutOffRice
  refine ⟨?_, ?_, ?_, ?_, ?_⟩ <;> refine ⟨_, rfl, ⟨_, _, rfl, rfl, ?_⟩, by decide +kernel⟩
  · exact ⟨[], 0, 0, 8, by decide +kernel⟩
  · exact ⟨[2, -1], 1, 0, 1, by decide +kernel⟩
  · exact ⟨[], 8, 0, 8, by decide +kernel⟩
  · decide +kernel
  · decide +kernel

theorem witness_CutOffBodiesFault :
    (CutsOff (pastHeader [0x01, 0x00] 1 16) (.sfConstant true) .bufferEnd
      ∧ CutsOff (pastHeader [0x02, 0x01] 2 8) (.sfVerbatim false) .bufferEnd
      ∧ CutsOff { pastHeader [0x02, 0x01] 2 8 with ibufLen := 3 } (.sfVerbatim false) .unwrittenByte
      ∧ CutsOff (pastHeader [0x18, 1, 2, 3] 4 8) (.sfFixed4 false) .bufferEnd)
    ∧ CutsOff (pastHeader [0x40, 0x03, 0xE7, 0xFF] 3 8) (.sfLpc 0 false) .bufferEnd
    ∧ CutsOff (atPartition 1 [0x0A]) (.partRice5 0) .bufferEnd ∧ CutsOff (atPartition 0 [0xFF]) (.partEsc4 31) .bufferEnd :=
  ⟨⟨cutsOff_wasted.1, cutsOff_samples.2.1, cutsOff_samples.2.2.1, cutsOff_samples.2.2.2.2⟩, cutsOff_lpc.2.2.2,
    cutsOff_partition.2.1, cutsOff_partition.2.2.2.1⟩

/-- The engine's next move is a stream element at a phase, on a stream cut short before a byte boundary or at one. -/
def atCut (bytes : List Byte) (curBit : BitVec 3) (phase : ParsePhase) : State := turned (inside bytes curBit phase)

theorem witness_CutOffHeadersFault :
    (Running .parse (atCut [0x00] 1 .header) ∧ (atCut [0x00] 1 .header).parse = some ⟨0, 0, .header⟩
      ∧ (atCut [0x00] 1 .header).turns = [.element] ∧ streamEnd (atCut [0x00] 1 .header) = .bufferEnd
      ∧ streamEnd { atCut [0x00] 1 .header with ibufLen := 2 } = .unwrittenByte)
    ∧ CutOffHeader (atCut [] 0 .header) .header (streamBits (atCut [] 0 .header))
    ∧ CutOffHeader (atCut [0x00] 2 .header) .header (streamBits (atCut [0x00] 2 .header))
    ∧ CutOffHeader (atCut [0x0C] 1 .header) .header (streamBits (atCut [0x0C] 1 .header))
    ∧ CutOffHeader (atCut [] 0 (.residual (known 0 4))) (.residual (known 0 4))
      (streamBits (atCut [] 0 (.residual (known 0 4))))
    ∧ CutOffHeader (atCut [0x0F] 3 (.residual (known 0 4))) (.residual (known 0 4))
      (streamBits (atCut [0x0F] 3 (.residual (known 0 4))))
    ∧ CutOffHeader (atCut [0x0F] 5 (.partition (known 0 4) ⟨0, 0, 0, 0⟩)) (.partition (known 0 4) ⟨0, 0, 0, 0⟩)
      (streamBits (atCut [0x0F] 5 (.partition (known 0 4) ⟨0, 0, 0, 0⟩)))
    ∧ CutOffHeader (atCut [0xFF] 0 (.partition (known 0 4) ⟨1, 0, 0, 0⟩)) (.partition (known 0 4) ⟨1, 0, 0, 0⟩)
      (streamBits (atCut [0xFF] 0 (.partition (known 0 4) ⟨1, 0, 0, 0⟩)))
    ∧ (atCut [0x3F] 1 .header).blocksize.toNat < predictorOrder (.sfLpc 31 false)
      ∧ streamBits (atCut [0x3F] 1 .header) = (encode (.sfLpc 31 false)).take 7 := by
  refine ⟨⟨⟨rfl, rfl⟩, rfl, rfl, by decide +kernel, by decide +kernel⟩, ?_⟩
  unfold CutOffHeader
  refine ⟨.inl (by decide +kernel), .inr (.inl ⟨List.replicate 5 false, by decide +kernel⟩),
    .inr (.inr ⟨.sfFixed4 true, by decide +kernel⟩), .inl (by decide +kernel),
    .inr ⟨true, [true, true, true], by decide +kernel⟩, .inl (by decide +kernel),
    .inr ⟨[true, true, true], by decide +kernel⟩, by decide +kernel⟩

theorem witness_FixedSubframeHeadIsParsed :
    (AtHeader ⟨0, 0, .header⟩ (pastHeader [0x18, 0x80, 0x01, 0x08, 0x7F] 4 8)
      ∧ 4 ≤ (pastHeader [0x18, 0x80, 0x01, 0x08, 0x7F] 4 8).blocksize.toNat
      ∧ wastedOf false 0 < (pastHeader [0x18, 0x80, 0x01, 0x08, 0x7F] 4 8).samplesize.toNat
      ∧ [-128, 1, 8, 127].length = 4
      ∧ (∀ v ∈ [-128, 1, 8, 127], InSigned (widthOf (pastHeader [0x18, 0x80, 0x01, 0x08, 0x7F] 4 8) false 0) v)
      ∧ streamBits (pastHeader [0x18, 0x80, 0x01, 0x08, 0x7F] 4 8) = wastedBits false 0 ++ [-128, 1, 8, 127].flatMap
        (signedBits (widthOf (pastHeader [0x18, 0x80, 0x01, 0x08, 0x7F] 4 8) false 0)) ++ [])
    ∧ AtHeader ⟨0, 0, .header⟩ (pastHeader [0x10] 1 1) ∧ streamBits (pastHeader [0x10] 1 1) = [] := by
  unfold AtHeader SizesLegal; decide +kernel

/-- L2's bytes, as far as the residual header. -/
def lpcL2 : State := pastHeader [0x42, 0x04, 0x06, 0x40, 0x8F, 0xE0] 5 8

theorem witness_LpcSubframeHeadIsParsed :
    AtHeader ⟨0, 0, .header⟩ lpcL2 ∧ (1#5).toNat + 1 ≤ lpcL2.blocksize.toNat
      ∧ wastedOf false 0 < lpcL2.samplesize.toNat
      ∧ [4, 6].length = (1#5).toNat + 1 ∧ (∀ v ∈ [4, 6], InSigned (widthOf lpcL2 false 0) v)
      ∧ [3, -1].length = (1#5).toNat + 1 ∧ (∀ c ∈ [3, -1], InSigned 5 c)
      ∧ streamBits lpcL2 = wastedBits false 0 ++ [4, 6].flatMap (signedBits (widthOf lpcL2 false 0))
        ++ natBits 4 (5 - 1) ++ natBits 5 1 ++ [3, -1].flatMap (signedBits 5) ++ List.replicate 5 false := by
  unfold AtHeader SizesLegal; decide +kernel

theorem witness_LpcPrecisionAndShiftFaults :
    (AtHeader ⟨0, 0, .header⟩ (pastHeader [0x40, 0x03, 0xF0] 3 8)
      ∧ (0#5).toNat + 1 ≤ (pastHeader [0x40, 0x03, 0xF0] 3 8).blocksize.toNat
      ∧ wastedOf false 0 < (pastHeader [0x40, 0x03, 0xF0] 3 8).samplesize.toNat
      ∧ InSigned (widthOf (pastHeader [0x40, 0x03, 0xF0] 3 8) false 0) 3
      ∧ streamBits (pastHeader [0x40, 0x03, 0xF0] 3 8) = wastedBits false 0
        ++ [3].flatMap (signedBits (widthOf (pastHeader [0x40, 0x03, 0xF0] 3 8) false 0)) ++ natBits 4 15
        ++ List.replicate 4 false)
    ∧ (streamBits (pastHeader [0x40, 0x03, 0x1F, 0x80] 3 8) = wastedBits false 0
        ++ [3].flatMap (signedBits (widthOf (pastHeader [0x40, 0x03, 0x1F, 0x80] 3 8) false 0)) ++ natBits 4 1
        ++ signedBits 5 (-1) ++ List.replicate 7 false)
    ∧ streamBits (pastHeader [0x40, 0x03, 0xE8, 0x00] 3 8) = wastedBits false 0
        ++ [3].flatMap (signedBits (widthOf (pastHeader [0x40, 0x03, 0xE8, 0x00] 3 8) false 0)) ++ natBits 4 14
        ++ signedBits 5 (-16) ++ List.replicate 7 false := by
  unfold AtHeader SizesLegal; decide +kernel

theorem witness_ResidualHeaderLaysOutPartitions :
    (inside [] 0 (.residual (known 2 8))).parse = some ⟨0, 0, .residual (known 2 8)⟩
      ∧ (known 0 6).blocksize % 2 ^ (2#4).toNat ≠ 0
      ∧ ((known 2 8).blocksize % 2 ^ (3#4).toNat = 0 ∧ (known 2 8).blocksize / 2 ^ (3#4).toNat < (known 2 8).order)
      ∧ ((known 2 8).blocksize % 2 ^ (2#4).toNat = 0 ∧ (known 2 8).order ≤ (known 2 8).blocksize / 2 ^ (2#4).toNat)
      ∧ (known 0 32768).blocksize % 2 ^ (15#4).toNat = 0 := by decide +kernel

theorem witness_RicePartitionIsDecoded :
    (inside [0x2D] 0 (.partition (known 1 4) ⟨0, 0, 0, 0⟩)).parse
        = some ⟨0, 0, .partition (known 1 4) ⟨0, 0, 0, 0⟩⟩
      ∧ [2, -1, 0].length = countOf (known 1 4).blocksize (known 1 4).order (0#4).toNat 0
      ∧ (∀ v ∈ [2, -1, 0], InSigned 32 v)
      ∧ streamBits (inside [0x0B] 0 (.partition (known 1 4) ⟨0, 0, 0, 0⟩))
        = [2, -1, 0].flatMap (riceBits (0#4).toNat) ++ []
      ∧ [2, -1].length = countOf (known 1 4).blocksize (known 1 4).order (1#4).toNat 1
      ∧ streamBits (inside [0x0A] 0 (.partition (known 1 4) ⟨1, 1, 1, 1⟩))
        = [2, -1].flatMap (riceBits (0#5).toNat) ++ [false]
      -- R9's codeword after a legal one: 0 < 2^30 and 2^32 ≤ 4 * 2^30 + 0.
      ∧ [-1].length < countOf (known 1 4).blocksize (known 1 4).order (0#4).toNat 0 ∧ (InSigned 32 (-1))
      ∧ 0 < 2 ^ (30#5).toNat ∧ 2 ^ 32 ≤ 4 * 2 ^ (30#5).toNat + 0
      ∧ ∃ rest, streamBits (atPartition 1 [0x80, 0, 0, 0x02, 0x10, 0, 0, 0, 0, 0])
        = [-1].flatMap (riceBits (30#5).toNat) ++ unaryBits 4 ++ natBits (30#5).toNat 0 ++ rest := by
  refine ⟨by decide +kernel, by decide +kernel, by decide +kernel, by decide +kernel, by decide +kernel,
    by decide +kernel, by decide, by decide, by decide, by decide, List.replicate 14 false, by decide +kernel⟩

theorem witness_EscapePartitionIsDecoded :
    (inside [0x85] 0 (.partition (known 0 1) ⟨1, 0, 0, 0⟩)).parse
        = some ⟨0, 0, .partition (known 0 1) ⟨1, 0, 0, 0⟩⟩
      ∧ [-4].length = countOf (known 0 1).blocksize (known 0 1).order (0#4).toNat 0
      ∧ FieldValue (3#5).toNat (-4)
      ∧ streamBits (inside [0x85] 0 (.partition (known 0 1) ⟨1, 0, 0, 0⟩))
        = [-4].flatMap (signedBits (3#5).toNat) ++ [false, false, true, false, true]
      ∧ FieldValue (0#5).toNat 0
      ∧ streamBits (inside [] 0 (.partition (known 0 1) ⟨0, 0, 0, 0⟩)) = [0].flatMap (signedBits (0#5).toNat) ++ [] := by
  unfold FieldValue; decide +kernel

/-- F1's bytes, accepted and not yet entered. -/
def acceptedF1 : State := { parsing [0x12, 0x0A, 0x00, 0xB2, 0x28] 4 8 with parse := none }

/-- F1 holds 5 bytes; whether IBUF has them is `P_IBUF_BYTES`, which the spec leaves open (R9). -/
theorem witness_ParseRecoversAnEncodedFixedSubframe (h : 5 ≤ Config.ibufBytes) :
    Running .parse acceptedF1 ∧ acceptedF1.parse = none ∧ EntryLegal acceptedF1
      ∧ 1 ≤ acceptedF1.blocksize.toNat ∧ wastedOf false 0 < acceptedF1.samplesize.toNat
      ∧ InSigned (widthOf acceptedF1 false 0) 10 ∧ acceptedF1.blocksize.toNat % 2 ^ (0#4).toNat = 0
      ∧ 1 ≤ acceptedF1.blocksize.toNat / 2 ^ (0#4).toNat
      ∧ [1, 2, -3].length = countOf acceptedF1.blocksize.toNat 1 (0#4).toNat 0
      ∧ (PartitionText.rice 2 [1, 2, -3]).Legal (4 + (0#1).toNat)
      ∧ streamBits acceptedF1 = headerBits (8 + 1) false ++ wastedBits false 0
        ++ [10].flatMap (signedBits (widthOf acceptedF1 false 0)) ++ natBits 2 (0#1).toNat ++ natBits 4 (0#4).toNat
        ++ [PartitionText.rice 2 [1, 2, -3]].flatMap (PartitionText.bits (4 + (0#1).toNat))
        ++ [false, false, false] := by
  have sizes : SizesLegal acceptedF1 ∧ acceptedF1.curByte.toNat ≤ acceptedF1.ibufLen.toNat := by
    unfold SizesLegal; decide +kernel
  refine ⟨⟨rfl, rfl⟩, rfl, ⟨?_, sizes⟩, by decide +kernel, by decide +kernel, by decide +kernel, by decide +kernel,
    by decide +kernel, by decide +kernel, ⟨by decide, by decide⟩, by decide +kernel⟩
  exact h

theorem witness_InstructionsKeepTheHostsState :
    (∃ t, exec (.sfConstant false) (pastHeader [0x00, 0xFF, 0xFB] 4 16) = .next t ∧ t.blockState = .done)
      ∧ (∃ t, exec .cmdReconstruct (holding 3 2 5 [1, 2] [] [0, 0, 1] 0 0) = .next t ∧ t.blockState = .done)
      ∧ (Instr.sfConstant false).slot ≠ .command := by
  refine ⟨?_, ?_, by decide⟩ <;> exact next_of_view (f := State.blockState) (by decide +kernel)

/-! ### RECONSTRUCT -/

theorem witness_ReconstructNeedsASubframe :
    Running .reconstruct { holding 1 0 1 [] [] [] 0 0 with sfValid := false }
      ∧ ({ holding 1 0 1 [] [] [] 0 0 with sfValid := false }).sfValid = false := ⟨⟨rfl, rfl⟩, rfl⟩

/-- A held CONSTANT subframe of the largest wasted-bits count, with a sample of 1 bit. -/
def heldConstant : State :=
  { holding 1 0 4 [] [] [] 0 32 with sfWidth := 1, sfConst := BitVec.ofInt 64 (-1) }

/-- The same, with the least sample that the shift keeps in 64 bits. -/
def edgeConstant : State := { heldConstant with sfConst := BitVec.ofInt 64 (-2147483648) }

theorem witness_ConstantSubframeIsReconstructed :
    Running .reconstruct edgeConstant ∧ edgeConstant.sfValid = true ∧ edgeConstant.sfKind = 1
      ∧ edgeConstant.sfBlocksize.toNat ≤ 65536
      ∧ Fits64 (edgeConstant.sfConst.toInt * 2 ^ edgeConstant.sfWasted.toNat) := by
  unfold Running Fits64; decide +kernel

theorem witness_VerbatimSubframeIsReconstructed :
    Running .reconstruct (holding 2 0 2 [] [] [3, -4] 0 1) ∧ (holding 2 0 2 [] [] [3, -4] 0 1).sfValid = true
      ∧ (holding 2 0 2 [] [] [3, -4] 0 1).sfKind = 2 ∧ (holding 2 0 2 [] [] [3, -4] 0 1).sfBlocksize.toNat ≤ 65536
      ∧ (holding 2 0 2 [] [] [3, -4] 0 1).resbuf.wf
      ∧ (∀ n, n < (holding 2 0 2 [] [] [3, -4] 0 1).sfBlocksize.toNat →
        ∃ v, (holding 2 0 2 [] [] [3, -4] 0 1).resbuf.read n = some v ∧ v.toInt = [3, -4].getD n 0)
      ∧ ∀ n, n < 2 → Fits64 ([3, -4].getD n 0 * 2 ^ (holding 2 0 2 [] [] [3, -4] 0 1).sfWasted.toNat) := by
  refine ⟨⟨rfl, rfl⟩, rfl, rfl, by decide, by decide +kernel, fun n hn => ?_, ?_⟩
  · have : n < 2 := hn
    interval_cases n <;> exact ⟨_, rfl, rfl⟩
  · unfold Fits64; decide +kernel

/-- The samples of a list. -/
def samples (vs : List Int) (n : Nat) : Int := vs.getD n 0

theorem witness_PredictedSubframeIsReconstructed :
    (PredictedRun (holding 3 2 4 [1, 2] [] [0, 1] 0 1)
      ∧ SamplesBelow (holding 3 2 4 [1, 2] [] [0, 1] 0 1) (samples [1, 2, 3, 5]) 4
      ∧ ∀ n, n < 4 → Fits64 (samples [1, 2, 3, 5] n * 2 ^ (1#32).toNat))
    ∧ PredictedRun (holding 4 1 3 [-7] [3] [0, 0] 2 0)
      ∧ SamplesBelow (holding 4 1 3 [-7] [3] [0, 0] 2 0) (samples [-7, -6, -5]) 3
      ∧ ∀ n, n < 3 → Fits64 (samples [-7, -6, -5] n * 2 ^ (0#32).toNat) := by
  refine ⟨⟨?_, ⟨by decide +kernel, fun n h1 h2 => ?_⟩, ?_⟩, ?_, ⟨by decide +kernel, fun n h1 h2 => ?_⟩, ?_⟩
  · unfold PredictedRun Running; decide +kernel
  · have : 2 ≤ n := h1
    interval_cases n
    · exact ⟨⟨3, 0, by decide +kernel⟩, by unfold Fits64; decide +kernel⟩
    · exact ⟨⟨4, 1, by decide +kernel⟩, by unfold Fits64; decide +kernel⟩
  · unfold Fits64; decide +kernel
  · unfold PredictedRun Running; decide +kernel
  · have : 1 ≤ n := h1
    interval_cases n
    · exact ⟨⟨-6, 0, by decide +kernel⟩, by unfold Fits64; decide +kernel⟩
    · exact ⟨⟨-5, 0, by decide +kernel⟩, by unfold Fits64; decide +kernel⟩
  · unfold Fits64; decide +kernel

/-- L6's subframe. -/
def overflowL6 : State := holding 4 1 4 [-4294967296] [-16384] [0, 0, 0] 0 0

theorem witness_PredictorOverflowFaults :
    (PredictedRun overflowL6 ∧ SamplesBelow overflowL6 (samples [-2 ^ 32, 2 ^ 46, -2 ^ 60]) 3
      ∧ 3 ≤ overflowL6.sfBlocksize.toNat
      ∧ ∃ v, overflowL6.sfOrder.toNat ≤ 3 ∧ 3 < overflowL6.sfBlocksize.toNat
        ∧ SampleIs overflowL6 (samples [-2 ^ 32, 2 ^ 46, -2 ^ 60]) 3 v
        ∧ ¬ (Fits64 (accOf overflowL6 (samples [-2 ^ 32, 2 ^ 46, -2 ^ 60]) 3) ∧ Fits64 v))
    ∧ PredictedRun (holding 3 0 1 [] [] [2147483647] 0 33)
      ∧ SamplesBelow (holding 3 0 1 [] [] [2147483647] 0 33) (samples [2147483647]) 1
      ∧ ∃ n, 1 = (holding 3 0 1 [] [] [2147483647] 0 33).sfBlocksize.toNat ∧ n < 1
        ∧ ¬ Fits64 (samples [2147483647] n * 2 ^ (33#32).toNat) := by
  refine ⟨⟨?_, ⟨by decide +kernel, fun n h1 h2 => ?_⟩, by decide, ⟨2 ^ 74, by decide, by decide, ?_, ?_⟩⟩, ?_,
    ⟨by decide +kernel, fun n h1 h2 => ?_⟩, ⟨0, by decide, by decide, ?_⟩⟩
  · unfold PredictedRun Running; decide +kernel
  · have : 1 ≤ n := h1
    interval_cases n
    · exact ⟨⟨2 ^ 46, 0, by decide +kernel⟩, by unfold Fits64; decide +kernel⟩
    · exact ⟨⟨-2 ^ 60, 0, by decide +kernel⟩, by unfold Fits64; decide +kernel⟩
  · exact ⟨2 ^ 74, 0, by decide +kernel⟩
  · unfold Fits64; decide +kernel
  · unfold PredictedRun Running; decide +kernel
  · interval_cases n
    exact ⟨⟨0, 2147483647, by decide +kernel⟩, by unfold Fits64; decide +kernel⟩
  · unfold Fits64; decide +kernel

theorem witness_ReconstructCanBeRepeated :
    Running .reconstruct (holding 4 1 3 [-7] [3] [0, 0] 2 0)
      ∧ ∃ t, exec .cmdReconstruct (holding 4 1 3 [-7] [3] [0, 0] 2 0) = .next t ∧ t.blockState = .done :=
  ⟨⟨rfl, rfl⟩, next_of_view (f := State.blockState) (by decide +kernel)⟩

theorem held_heldConstant : Held heldConstant .constant where
  kindIs := rfl
  block := by decide
  width := by decide
  order := rfl
  orderFits := by decide
  residuals := fun _ h => absurd h (Nat.not_lt_zero _)
  warm := by unfold FileLegal; decide +kernel
  coef := by unfold FileLegal; decide +kernel
  prec := by decide
  shift := by decide
  method := by decide
  sample := by decide

theorem inv_heldConstant : Inv heldConstant := by
  constructor
  · exact ⟨.nil, by simp [heldConstant, holding, State.reset]⟩
  · exact ⟨.nil, by simp [heldConstant, holding, cellsFrom]⟩
  · exact ⟨.nil, by simp [heldConstant, holding, State.reset]⟩
  · rfl
  · exact fun h => nomatch h
  · decide +kernel
  · decide +kernel
  · exact fun _ => ⟨_, held_heldConstant⟩
  · exact fun _ h => nomatch h

theorem witness_HeldSubframesCanBeReconstructed :
    Inv heldConstant ∧ Running .reconstruct heldConstant ∧ heldConstant.sfValid = true ∧ heldConstant.sfKind = 1 :=
  ⟨inv_heldConstant, ⟨rfl, rfl⟩, rfl, rfl⟩

/-! ### VERIFY_CRC16 and the whole machine -/

/-- K3 holds 3 bytes; whether IBUF has them is `P_IBUF_BYTES`, which the spec leaves open (R9). -/
theorem witness_VerifyComparesTheCrc (h : 3 ≤ Config.ibufBytes) :
    Running .verify (verifying [0x01, 0x80, 0x05] 0 1) ∧ (verifying [0x01, 0x80, 0x05] 0 1).ibuf.wf
      ∧ (verifying [0x01, 0x80, 0x05] 0 1).ibufLen.toNat ≤ Config.ibufBytes
      ∧ (verifying [0x01, 0x80, 0x05] 0 1).crcStart.toNat ≤ (verifying [0x01, 0x80, 0x05] 0 1).crcEnd.toNat
      ∧ (verifying [0x01, 0x80, 0x05] 0 1).crcEnd.toNat + 2 ≤ (verifying [0x01, 0x80, 0x05] 0 1).ibufLen.toNat
      ∧ ∀ i, 0 ≤ i → i < 3 → (verifying [0x01, 0x80, 0x05] 0 1).ibuf.read i
        = some ([0x01#8, 0x80, 0x05].getD i 0) := by
  refine ⟨⟨rfl, rfl⟩, by decide +kernel, h, by decide +kernel, by decide +kernel, fun i _ hi => ?_⟩
  interval_cases i <;> rfl

/-- The first clause needs a `P_IBUF_BYTES` that a 32-bit IBUF_LEN can exceed; the spec leaves it open (R9). -/
theorem witness_VerifyChecksItsRegisters :
    (Config.ibufBytes < 4294967295 →
      Config.ibufBytes < ({ verifying [] 0 0 with ibufLen := 4294967295 }).ibufLen.toNat)
    ∧ Running .verify (verifying [] 2 1) ∧ (verifying [] 2 1).crcEnd.toNat < (verifying [] 2 1).crcStart.toNat
    ∧ (verifying [] 0 0).ibufLen.toNat ≤ Config.ibufBytes
    ∧ (verifying [] 0 0).crcStart.toNat ≤ (verifying [] 0 0).crcEnd.toNat
    ∧ (verifying [] 0 0).ibufLen.toNat < (verifying [] 0 0).crcEnd.toNat + 2 :=
  ⟨fun h => h, ⟨rfl, rfl⟩, by decide, Nat.zero_le _, by decide, by decide⟩

theorem witness_StepKeepsTheStateLegal :
    Inv (accepted 65536 33 0) ∧ (∃ t, step (accepted 65536 33 0) = .next t ∧ t.blockState = .fault)
      ∧ Inv heldConstant ∧ ∃ t, step heldConstant = .next t ∧ t.sfValid = true := by
  refine ⟨inv_accepted _ _ _, next_of_view (f := State.blockState) (by decide +kernel), inv_heldConstant, ?_⟩
  exact next_of_view (f := State.sfValid) (by decide +kernel)

theorem witness_OnlyParseAndTheHostMoveTheCursor :
    (∃ t, step (hostDoes (.writeReg 4 5) State.reset) = .next t ∧ (t.curByte, t.curBit) = (0, 5))
      ∧ ((hostDoes (.writeReg 4 5) State.reset).curByte, (hostDoes (.writeReg 4 5) State.reset).curBit) ≠ (0, 5)
      ∧ ∃ t, step (parsing [0x00, 0xFF, 0xFB] 4 16) = .next t ∧ (t.curByte, t.curBit) = (3, 0) := by
  refine ⟨?_, by decide, ?_⟩ <;>
    exact next_of_view (f := fun t => (t.curByte, t.curBit)) (by decide +kernel)

/-- The CRC clauses need the 3 bytes of K3 in IBUF (R9). -/
theorem witness_FlagsAreSetOnlyByTheirCommands :
    ((parsing [0x00, 0xFF, 0xFB] 4 16).sfValid = false
      ∧ ∃ t, step (parsing [0x00, 0xFF, 0xFB] 4 16) = .next t ∧ t.sfValid = true)
    ∧ (3 ≤ Config.ibufBytes → (verifying [0x01, 0x80, 0x05] 0 1).crcValid = false
      ∧ (verifying [0x01, 0x80, 0x05] 0 1).crcOk = false
      ∧ ∃ t, step (verifying [0x01, 0x80, 0x05] 0 1) = .next t ∧ (t.crcValid, t.crcOk) = (true, true))
    ∧ (∃ t, step (hostDoes (.writeReg 0 4) State.reset) = .next t ∧ t.errcode = 0x22)
    ∧ (hostInFault (.writeReg 0 0x0F)).errcode ≠ 0
      ∧ ∃ t, step (hostInFault (.writeReg 0 0x0F)) = .next t ∧ t.errcode = 0 := by
  refine ⟨⟨rfl, next_of_view (f := State.sfValid) (by decide +kernel)⟩, fun h => ⟨rfl, rfl, ?_⟩,
    next_of_view (f := State.errcode) (by decide +kernel), by decide +kernel,
    next_of_view (f := State.errcode) (by decide +kernel)⟩
  have hstep : step (verifying [0x01, 0x80, 0x05] 0 1) = runVerify (verifying [0x01, 0x80, 0x05] 0 1) := rfl
  have hlen : ¬ Config.ibufBytes < (verifying [0x01, 0x80, 0x05] 0 1).ibufLen.toNat := Nat.not_lt.mpr h
  rw [hstep, runVerify, if_neg hlen]
  exact next_of_view (f := fun t => (t.crcValid, t.crcOk)) (by decide +kernel)

end Sys2Proof.Tests
end

section
/-! PROOF. The step, inverted: every state a step can answer. -/

namespace Sys2Proof.Machine

open Sys2Proof.Claims

/-! ## Pieces of PARSE_SUBFRAME -/

/-- One piece of a running PARSE_SUBFRAME leads from a state to another. -/
def Piece (s t : State) : Prop := s.blockState = .busy ∧ parsePiece s = .next t

/-- Everything a piece that answers a state is: the entry, a fault, or a stream element past its header. -/
theorem parsePiece_next {s t : State} (h : parsePiece s = .next t) :
    (s.parse = none ∧ parseConfigLegal s = true ∧ t = startParse s)
      ∨ (∃ e, Raised e ∧ t = parseFault e s)
      ∨ ∃ n, ElementEnd (advance s n) (.next t) := by
  rcases parsePiece_cases s with ⟨hp, hc, e⟩ | ⟨er, he, e⟩ | ⟨-, e⟩ | ⟨p, i, n, -, -, hi, e⟩ <;> rw [e] at h
  · cases h; exact .inl ⟨hp, hc, rfl⟩
  · cases h; exact .inr (.inl ⟨er, he, rfl⟩)
  · cases h
  · exact .inr (.inr ⟨n, h ▸ exec_elementEnd (hi ▸ slotAt_ne_command _) _⟩)

/-- A run of pieces that answers a state reaches it piece by piece. -/
theorem runPieces_reaches {n : Nat} {s t : State} (hb : s.blockState = .busy) (h : runPieces n s = .next t) :
    Relation.ReflTransGen Piece s t :=
  (runPieces_keeps (P := Relation.ReflTransGen Piece s) (fun _ _ hu hr hp => hr.tail ⟨hu, hp⟩) hb .refl h).1

/-! ## Commands -/

/-- Everything a command word written while not BUSY can do. -/
theorem issueCommand_next {v : Word} {s t : State} (hb : s.blockState ≠ .busy) (h : issueCommand v s = .next t) :
    t = s
      ∨ (s.blockState ≠ .fault ∧ ∃ op, t = { s with pending := some op, blockState := .busy })
      ∨ (s.blockState ≠ .fault ∧ t = faultEntry .invalidCommand s)
      ∨ (v = 0x0000000F ∧ t = softReset s) := by
  have accept : ∀ op, whenNotBusy s (acceptCommand op s) = .next t →
      t = s ∨ s.blockState ≠ .fault ∧ ∃ op, t = { s with pending := some op, blockState := .busy } := by
    intro op e
    simp only [whenNotBusy, if_neg hb, acceptCommand] at e
    split_ifs at e with hf
    · cases e; exact .inl rfl
    · cases e; exact .inr ⟨hf, op, rfl⟩
  simp only [issueCommand, decode_command, commandOfWord] at h
  generalize hu : (if s.blockState = .fault then s else faultEntry .invalidCommand s) = u at h
  split_ifs at h with h0 h1 h2 h3 h15
  · simp only [exec, execCmdNop, whenNotBusy, if_neg hb] at h
    cases h; exact .inl rfl
  · simp only [exec, execCmdParseSubframe, hb, false_and, if_false] at h
    exact (accept _ h).imp_right .inl
  · simp only [exec, execCmdReconstruct, hb, false_and, if_false] at h
    exact (accept _ h).imp_right .inl
  · simp only [exec, execCmdVerifyCrc16, hb, false_and, if_false] at h
    exact (accept _ h).imp_right .inl
  · simp only [exec, execCmdSoftReset, whenNotBusy, if_neg hb] at h
    cases h; exact .inr (.inr (.inr ⟨BitVec.eq_of_toNat_eq h15, rfl⟩))
  · cases h
    by_cases hf : s.blockState = .fault
    · rw [if_pos hf] at hu; exact .inl hu.symm
    · rw [if_neg hf] at hu; exact .inr (.inr (.inl ⟨hf, hu.symm⟩))

/-! ## The step -/

/-- Every state a step can answer. -/
inductive StepEnd (s t : State) : Prop where
  /-- nothing of the block's state but REFUSED changes: idling, a host read, a refused action, a word with no effect -/
  | quiet (h : t = { s with
      refused := t.refused, host := t.host, turns := t.turns, readData := t.readData, draws := t.draws })
  /-- the host resets the block -/
  | reset (as : List HostAction) (ts : List Turn) (hh : s.host = .reset :: as)
      (h : t = hardReset { s with host := as, turns := ts })
  /-- the host writes a register other than CMD -/
  | register (r : Nat) (v : Word) (as : List HostAction) (hb : s.blockState ≠ .busy)
      (hh : s.host = .writeReg r v :: as) (h : t = writeReg { s with host := as } r v)
  /-- the host writes an element of IBUF -/
  | stored (i : Nat) (b : Byte) (as : List HostAction) (hi : i < Config.ibufBytes)
      (hb : s.blockState ≠ .busy) (h : t = { s with host := as, ibuf := s.ibuf.write i b })
  /-- a command is accepted -/
  | accepted (op : Op) (as : List HostAction) (hb : s.blockState ≠ .busy) (hf : s.blockState ≠ .fault)
      (h : t = { s with host := as, pending := some op, blockState := .busy })
  /-- a reserved command word faults -/
  | rejected (as : List HostAction) (hf : s.blockState ≠ .fault)
      (h : t = faultEntry .invalidCommand { s with host := as })
  /-- SOFT_RESET -/
  | softReset (as : List HostAction) (hb : s.blockState ≠ .busy) (hh : s.host = .writeReg 0 0x0000000F :: as)
      (h : t = softReset { s with host := as })
  /-- pieces of PARSE_SUBFRAME run -/
  | parse (ts : List Turn) (hr : Running .parse s) (h : Relation.ReflTransGen Piece { s with turns := ts } t)
  /-- RECONSTRUCT runs -/
  | reconstruct (ts : List Turn) (hr : Running .reconstruct s) (h : runReconstruct { s with turns := ts } = .next t)
  /-- VERIFY_CRC16 runs -/
  | verify (ts : List Turn) (hr : Running .verify s) (h : runVerify { s with turns := ts } = .next t)

/-- A host action while not BUSY. -/
theorem hostMoveFree_stepEnd {s t : State} {a : HostAction} {as : List HostAction} (hb : s.blockState ≠ .busy)
    (hh : s.host = a :: as) (h : hostMoveFree a { s with host := as } = .next t) : StepEnd s t := by
  cases a with
  | writeReg r v =>
    simp only [hostMoveFree] at h
    split_ifs at h with hr
    · subst hr
      rcases issueCommand_next (s := { s with host := as }) hb h with rfl | ⟨hf, op, rfl⟩ | ⟨hf, rfl⟩ | ⟨rfl, rfl⟩
      · exact .quiet rfl
      · exact .accepted op as hb hf rfl
      · exact .rejected as hf rfl
      · exact .softReset as hb hh rfl
    · cases h; exact .register r v as hb hh rfl
  | readReg r => cases h; exact .quiet rfl
  | writeIbuf i b =>
    simp only [hostMoveFree] at h
    split_ifs at h with hi
    · cases h; exact .stored i b as hi hb rfl
    · cases h; exact .quiet rfl
  | readBuf x i =>
    simp only [hostMoveFree, readBuffer] at h
    split_ifs at h
    · split at h
      · cases h; exact .quiet rfl
      · cases h
    · cases h; exact .quiet rfl
  | reset => cases h; exact .reset as s.turns hh rfl

/-- A host action while BUSY. -/
theorem hostMoveBusy_stepEnd {s t : State} {a : HostAction} {as : List HostAction} {ts : List Turn}
    (hh : s.host = a :: as) (h : hostMoveBusy a { s with turns := ts, host := as } = .next t) : StepEnd s t := by
  cases a with
  | writeReg r v => cases h; exact .quiet rfl
  | readReg r => cases h; exact .quiet rfl
  | writeIbuf i b => cases h; exact .quiet rfl
  | readBuf x i => cases h; exact .quiet rfl
  | reset => cases h; exact .reset as ts hh rfl

/-- Every state a step answers is one of these. -/
theorem step_end {s t : State} (h : step s = .next t) : StepEnd s t := by
  rcases step_cases s with ⟨-, -, e⟩ | ⟨a, as, hb, hh, e⟩ | ⟨a, as, ts, -, hh, e⟩ | ⟨ts, hb, e⟩ | ⟨ts, hb, e⟩ <;>
    rw [e] at h
  · cases h; exact .quiet rfl
  · exact hostMoveFree_stepEnd hb hh h
  · exact hostMoveBusy_stepEnd hh h
  · rcases engineMove_cases (s := { s with turns := ts }) hb with ⟨hp, e⟩ | ⟨hp, e⟩ | ⟨hp, e⟩ | ⟨-, e⟩ <;> rw [e] at h
    · exact .parse ts ⟨hb, hp⟩ (runPieces_reaches hb h)
    · exact .reconstruct ts ⟨hb, hp⟩ h
    · exact .verify ts ⟨hb, hp⟩ h
    · cases h
  · rcases elementMove_cases (s := { s with turns := ts }) hb with ⟨hp, e⟩ | ⟨hp, e⟩ | ⟨hp, e⟩ | ⟨-, e⟩ <;> rw [e] at h
    · exact .parse ts ⟨hb, hp⟩ (.single ⟨hb, h⟩)
    · exact .reconstruct ts ⟨hb, hp⟩ h
    · exact .verify ts ⟨hb, hp⟩ h
    · cases h

end Sys2Proof.Machine
end

section
/-! PROOF. Every step keeps the legal states (O58). -/

namespace Sys2Proof.Machine

open Sys2Proof.Claims

/-! ## The updates of a running PARSE_SUBFRAME -/

section running
variable {s : State} {p : ParseRun} (h : Inv s) (hp : s.parse = some p)
include h hp

/-- A legal state with a PARSE_SUBFRAME running is BUSY. -/
theorem busy_of_running : s.blockState = .busy := h.pending.2 (by rw [(h.parse p hp).1]; rfl)

theorem errcode_of_running : s.errcode = 0 := by
  have he := h.errcode
  rwa [busy_of_running h hp, if_neg (by decide)] at he

theorem inv_loadFiles (hh : p.phase = .header) (warm coef : List Int) : Inv (loadFiles warm coef s) := by
  obtain ⟨hpend, hsf, -, hsizes⟩ := h.parse p hp
  refine ⟨h.ibufForm, h.resbufForm, h.obufForm, h.errcode, h.faultFlags, h.pending, h.crcFlags,
    fun hv => ?_, fun q hq => ?_⟩
  · rw [loadFiles_sfValid, hsf] at hv; cases hv
  · rw [loadFiles_parse, hp] at hq; cases hq
    exact ⟨hpend, hsf, by rw [hh]; trivial, hsizes⟩

theorem inv_storeResiduals {i : Nat} {vs : List Int} (hb : i + vs.length ≤ Config.maxBlock)
    (hl : PhaseLegal (storeResiduals i vs s) p.phase) : Inv (storeResiduals i vs s) := by
  obtain ⟨hpend, hsf, -, hsizes⟩ := h.parse p hp
  refine ⟨h.ibufForm, ⟨writeRun_wf h.resbufForm.1 _ _, writeRun_bound h.resbufForm.2 _ _ (by simpa using hb)⟩,
    h.obufForm, h.errcode, h.faultFlags, h.pending, h.crcFlags, fun hv => ?_, fun q hq => ?_⟩
  · rw [storeResiduals_sfValid, hsf] at hv; cases hv
  · rw [storeResiduals_parse, hp] at hq; cases hq
    exact ⟨hpend, hsf, hl, hsizes⟩

theorem inv_moveTo {phase : ParsePhase} (hl : PhaseLegal s phase) : Inv (moveTo phase s) := by
  obtain ⟨hpend, hsf, -, hsizes⟩ := h.parse p hp
  refine ⟨h.ibufForm, h.resbufForm, h.obufForm, h.errcode, h.faultFlags, h.pending, h.crcFlags,
    fun hv => exists_held_of_eq (h.held hv) rfl, fun q hq => ?_⟩
  rw [moveTo_parse, hp] at hq; cases hq
  exact ⟨hpend, hsf, phaseLegal_of_eq hl rfl, hsizes⟩

theorem inv_commit {f : Subframe} {method porder : Nat} {c : Int} {kind : Kind}
    (hk : Held (commit f method porder c s) kind) : Inv (commit f method porder c s) where
  ibufForm := h.ibufForm
  resbufForm := h.resbufForm
  obufForm := h.obufForm
  errcode := by rw [commit_blockState, if_neg (by decide), commit_errcode, errcode_of_running h hp]
  faultFlags := nofun
  pending := by simp
  crcFlags := h.crcFlags
  held := fun _ => ⟨kind, hk⟩
  parse := nofun

end running

theorem parse_of_atHeader {s : State} (h : atHeader s = true) : ∃ p, s.parse = some p ∧ p.phase = .header := by
  simp only [atHeader] at h
  split at h
  · rename_i a b hp; exact ⟨_, hp, rfl⟩
  · cases h

/-! ## Commit -/

theorem toNat_ofNat_word {n : Nat} (h : n ≤ Config.maxBlock) : (BitVec.ofNat 32 n).toNat = n := by
  unfold Config.maxBlock at h
  rw [BitVec.toNat_ofNat]; omega

/-- Commit holds the subframe whose header, files and residuals are legal. -/
theorem held_commit {s : State} {f : Subframe} {method porder : Nat} {c : Int}
    (hblock : 1 ≤ f.blocksize ∧ f.blocksize ≤ Config.maxBlock)
    (hwidth : 1 ≤ f.width ∧ f.wasted + f.width ≤ Config.maxSampleSize)
    (horder : OrderLegal f.kind f.order) (hfits : f.order ≤ f.blocksize)
    (hres : WrittenBelow s.resbuf (heldCount f.kind f.blocksize f.order) (if f.kind = .verbatim then f.width else 32))
    (hwarm : FileLegal s.warm f.order f.width) (hcoef : FileLegal s.coef (if f.kind = .lpc then f.order else 0) f.prec)
    (hprec : f.prec ≤ 15 ∧ (f.kind = .lpc ↔ 1 ≤ f.prec)) (hshift : f.shift ≤ 15 ∧ (f.kind ≠ .lpc → f.shift = 0))
    (hmethod : method ≤ 1 ∧ porder ≤ 15)
    (hsample : if f.kind = .constant then InSigned f.width c else c = 0) :
    Held (commit f method porder c s) f.kind := by
  have hmax : Config.maxBlock = 65536 := rfl
  have hmaxw : Config.maxSampleSize = 33 := rfl
  have eblock := toNat_ofNat_word hblock.2
  have eorder := toNat_ofNat_word (hfits.trans hblock.2)
  have ewidth : (BitVec.ofNat 32 f.width).toNat = f.width := toNat_ofNat_word (by omega)
  have ewasted : (BitVec.ofNat 32 f.wasted).toNat = f.wasted := toNat_ofNat_word (by omega)
  have eprec : (BitVec.ofNat 32 f.prec).toNat = f.prec := toNat_ofNat_word (by omega)
  have eshift : (BitVec.ofNat 32 f.shift).toNat = f.shift := toNat_ofNat_word (by omega)
  have emethod : (BitVec.ofNat 32 method).toNat = method := toNat_ofNat_word (by omega)
  have eporder : (BitVec.ofNat 32 porder).toNat = porder := toNat_ofNat_word (by omega)
  constructor
  · rfl
  · rwa [commit_sfBlocksize, eblock]
  · rwa [commit_sfWidth, commit_sfWasted, ewidth, ewasted]
  · rwa [commit_sfOrder, eorder]
  · rwa [commit_sfOrder, commit_sfBlocksize, eorder, eblock]
  · rwa [commit_sfOrder, commit_sfBlocksize, commit_sfWidth, eorder, eblock, ewidth, commit_resbuf]
  · rwa [commit_sfOrder, commit_sfWidth, eorder, ewidth, commit_warm]
  · rwa [commit_sfOrder, commit_lpcPrec, eorder, eprec, commit_coef]
  · rwa [commit_lpcPrec, eprec]
  · rw [commit_lpcShift, eshift]
    exact ⟨hshift.1, fun hk => by rw [hshift.2 hk]; rfl⟩
  · rwa [commit_resMethod, commit_resPorder, emethod, eporder]
  · rw [commit_sfWidth, commit_sfConst, ewidth]
    split_ifs at hsample ⊢
    · rwa [toInt_ofInt_of_inSigned (by decide) (inSigned_mono hsample (by omega))]
    · rw [hsample]; rfl

/-! ## Partitions -/

section partitions
variable {s : State} {f : Subframe} {r : Residual}

/-- Where the residuals end after a partition of the count the layout gives (spec/41_residual_rice.md R185). -/
theorem residualLegal_idx_add (h : ResidualLegal s f r) :
    r.idx + partitionCount f r = (r.part + 1) * (f.blocksize / 2 ^ r.porder.toNat) - f.order := by
  have hidx := h.idx
  have hfits := h.orderFits
  simp only [partitionCount, perPartition]
  split_ifs at hidx ⊢ with h0
  · rw [h0] at hidx ⊢; omega
  · have : f.blocksize / 2 ^ r.porder.toNat ≤ r.part * (f.blocksize / 2 ^ r.porder.toNat) :=
      Nat.le_mul_of_pos_left _ (Nat.pos_of_ne_zero h0)
    rw [Nat.add_mul]; omega

/-- The residuals of a partition lie inside the block. -/
theorem residualLegal_end_le (h : ResidualLegal s f r) : r.idx + partitionCount f r ≤ f.blocksize := by
  have hmul : (r.part + 1) * (f.blocksize / 2 ^ r.porder.toNat) ≤ 2 ^ r.porder.toNat * (f.blocksize / 2 ^ r.porder.toNat) :=
    Nat.mul_le_mul_right _ h.part
  have := Nat.mul_div_le f.blocksize (2 ^ r.porder.toNat)
  rw [residualLegal_idx_add h]; omega

/-- The last partition completes the block's residuals. -/
theorem residualLegal_last (h : ResidualLegal s f r) (hl : ¬ r.part + 1 < 2 ^ r.porder.toNat) :
    r.idx + partitionCount f r = f.blocksize - f.order := by
  have hpart := h.part
  rw [residualLegal_idx_add h, show r.part + 1 = 2 ^ r.porder.toNat by omega, Nat.mul_div_cancel' h.aligned]

theorem writtenBelow_mono {m : Memory Long} {n k width : Nat} (h : WrittenBelow m n width) (hk : k ≤ n) :
    WrittenBelow m k width := fun i hi => h i (by omega)

theorem headLegal_storeResiduals {i : Nat} {vs : List Int} (h : HeadLegal s f) :
    HeadLegal (storeResiduals i vs s) f :=
  ⟨h.kindIs, h.order, h.orderFits, h.block, h.width, h.prec, h.shift, h.warm, h.coef⟩

end partitions

/-- After a partition of legal residuals the state is legal, at the next partition or past Commit. -/
theorem inv_closePartition {s : State} {p : ParseRun} {f : Subframe} {r : Residual} {vs : List Int} (h : Inv s)
    (hp : s.parse = some p) (hph : p.phase = .partition f r) (hl : vs.length = partitionCount f r)
    (hv : ∀ v ∈ vs, InSigned 32 v) : Inv (closePartition f r vs s) := by
  have hphase := (h.parse p hp).2.2.1
  rw [hph] at hphase
  obtain ⟨hhead, hres⟩ := hphase
  have hwritten : WrittenBelow (storeResiduals r.idx vs s).resbuf (r.idx + vs.length) 32 :=
    writtenBelow_writeRun hres.residuals hv (by decide)
  have hhead' : HeadLegal (storeResiduals r.idx vs s) f := headLegal_storeResiduals hhead
  have hbound : r.idx + vs.length ≤ Config.maxBlock := by
    rw [hl]; exact (residualLegal_end_le hres).trans hhead.block.2
  have hstored : Inv (storeResiduals r.idx vs s) := by
    refine inv_storeResiduals h hp hbound ?_
    rw [hph]
    exact ⟨hhead', hres.aligned, hres.orderFits, hres.part, hres.idx, writtenBelow_mono hwritten (Nat.le_add_right _ _)⟩
  simp only [closePartition]
  split_ifs with hlast
  · refine inv_moveTo hstored hp ⟨hhead', hres.aligned, hres.orderFits, hlast, ?_, hwritten⟩
    rw [if_neg (Nat.succ_ne_zero _), hl]
    exact residualLegal_idx_add hres
  · refine inv_commit hstored hp (held_commit hhead.block hhead.width hhead.order hhead.orderFits ?_ hhead.warm
      hhead.coef hhead.prec hhead.shift ?_ ?_)
    · have hcount : r.idx + vs.length = f.blocksize - f.order := by rw [hl]; exact residualLegal_last hres hlast
      rw [hcount] at hwritten
      rcases hhead.kindIs with hk | hk <;> rw [hk] <;> exact hwritten
    · have := r.method.isLt
      have := r.porder.isLt
      omega
    · rcases hhead.kindIs with hk | hk <;> rw [hk] <;> rfl

/-! ## Elements and pieces -/

theorem fileLegal_nil {w width : Nat} : FileLegal (fileOf w []) 0 width :=
  fun i => ⟨fun hi => absurd hi (Nat.not_lt_zero _), fun _ => by rw [getElem_fileOf]; rfl⟩

/-- Commit holds a subframe without a predictor: its files are empty. -/
theorem held_commit_unpredicted {s : State} {f : Subframe} {c : Int}
    (hk : f.kind = .constant ∨ f.kind = .verbatim) (hblock : 1 ≤ f.blocksize ∧ f.blocksize ≤ Config.maxBlock)
    (hwidth : 1 ≤ f.width ∧ f.wasted + f.width ≤ Config.maxSampleSize)
    (hnone : f.order = 0 ∧ f.prec = 0 ∧ f.shift = 0) (hwarm : s.warm = fileOf 64 []) (hcoef : s.coef = fileOf 32 [])
    (hres : WrittenBelow s.resbuf (heldCount f.kind f.blocksize f.order) (if f.kind = .verbatim then f.width else 32))
    (hsample : if f.kind = .constant then InSigned f.width c else c = 0) : Held (commit f 0 0 c s) f.kind := by
  obtain ⟨horder, hprec, hshift⟩ := hnone
  have hlpc : f.kind ≠ .lpc := by rcases hk with hk | hk <;> rw [hk] <;> decide
  refine held_commit hblock hwidth ?_ (by omega) hres ?_ ?_ ?_ ?_ (by decide) hsample
  · rcases hk with hk | hk <;> rw [hk] <;> exact horder
  · rw [hwarm, horder]; exact fileLegal_nil
  · rw [hcoef, if_neg hlpc]; exact fileLegal_nil
  · simp [hlpc, hprec]
  · simp [hshift]

/-- A subframe without a residual, parsed, leaves a legal state. -/
theorem inv_commit_done {s : State} {p : ParseRun} {f : Subframe} {c : Int} {vs : List Int} (h : Inv s)
    (hp : s.parse = some p) (hh : p.phase = .header)
    (hf : f.blocksize = s.blocksize.toNat ∧ f.order = 0 ∧ f.prec = 0 ∧ f.shift = 0
      ∧ f.wasted + f.width = s.samplesize.toNat ∧ 1 ≤ f.width)
    (hk : (f.kind = .constant ∧ vs = [] ∧ InSigned f.width c)
      ∨ (f.kind = .verbatim ∧ vs.length = f.blocksize ∧ c = 0 ∧ ∀ v ∈ vs, InSigned f.width v)) :
    Inv (commit f 0 0 c (if f.kind = .constant then loadFiles [] [] s else storeResiduals 0 vs (loadFiles [] [] s))) := by
  obtain ⟨-, -, -, hblock, hsize⟩ := h.parse p hp
  obtain ⟨eblock, eorder, eprec, eshift, ewidth, hw⟩ := hf
  have hwidth : f.wasted + f.width ≤ Config.maxSampleSize := ewidth ▸ hsize.2
  rw [← eblock] at hblock
  have hloaded : Inv (loadFiles [] [] s) := inv_loadFiles h hp hh [] []
  rcases hk with ⟨hk, -, hc⟩ | ⟨hk, hlen, hc, hv⟩
  · rw [if_pos hk]
    refine inv_commit hloaded hp
      (held_commit_unpredicted (.inl hk) hblock ⟨hw, hwidth⟩ ⟨eorder, eprec, eshift⟩ rfl rfl ?_ ?_)
    · rw [hk]; exact fun i hi => absurd hi (Nat.not_lt_zero _)
    · rwa [if_pos hk]
  · have hstored : Inv (storeResiduals 0 vs (loadFiles [] [] s)) := by
      refine inv_storeResiduals hloaded hp (by omega) ?_
      rw [hh]; trivial
    have hmaxw : Config.maxSampleSize = 33 := rfl
    have hwritten := writtenBelow_writeRun (m := s.resbuf) (i := 0) (fun i hi => absurd hi (Nat.not_lt_zero _)) hv
      (by omega)
    rw [Nat.zero_add, hlen] at hwritten
    rw [if_neg (by rw [hk]; decide)]
    refine inv_commit hstored hp
      (held_commit_unpredicted (.inr hk) hblock ⟨hw, hwidth⟩ ⟨eorder, eprec, eshift⟩ rfl rfl ?_ ?_)
    · rw [hk]; exact hwritten
    · rw [hk]; exact hc

/-- The head of a subframe with a residual is legal in the files it loads. -/
theorem headLegal_loadFiles {s : State} {f : Subframe} {warm coef : List Int}
    (hblock : 1 ≤ s.blocksize.toNat ∧ s.blocksize.toNat ≤ Config.maxBlock)
    (hsize : s.samplesize.toNat ≤ Config.maxSampleSize)
    (hf : f.blocksize = s.blocksize.toNat ∧ f.order ≤ f.blocksize ∧ f.wasted + f.width = s.samplesize.toNat
      ∧ 1 ≤ f.width ∧ warm.length = f.order ∧ ∀ v ∈ warm, InSigned f.width v)
    (hk : (f.kind = .fixed ∧ f.order ≤ 4 ∧ coef = [] ∧ f.prec = 0 ∧ f.shift = 0)
      ∨ (f.kind = .lpc ∧ 1 ≤ f.order ∧ f.order ≤ 32 ∧ coef.length = f.order ∧ 1 ≤ f.prec ∧ f.prec ≤ 15
        ∧ f.shift ≤ 15 ∧ ∀ v ∈ coef, InSigned f.prec v)) : HeadLegal (loadFiles warm coef s) f := by
  obtain ⟨eblock, hfits, ewidth, hw, hlen, hv⟩ := hf
  have hmaxw : Config.maxSampleSize = 33 := rfl
  have hwarm : FileLegal (fileOf 64 warm) f.order f.width := by
    rw [← hlen]; exact fileLegal_fileOf (by omega) (by decide) hv
  rw [← eblock] at hblock
  have hwidth : f.wasted + f.width ≤ Config.maxSampleSize := ewidth ▸ hsize
  rcases hk with ⟨hk, ho, rfl, hp, hs⟩ | ⟨hk, ho1, ho2, hclen, hp1, hp2, hs, hcv⟩
  · refine ⟨.inl hk, by rw [hk]; exact ho, hfits, hblock, ⟨hw, hwidth⟩, by simp [hk, hp], by simp [hs], hwarm, ?_⟩
    rw [hk]; exact fileLegal_nil
  · refine ⟨.inr hk, by rw [hk]; exact ⟨ho1, ho2⟩, hfits, hblock, ⟨hw, hwidth⟩, by simp [hk, hp1, hp2],
      by simp [hk, hs], hwarm, ?_⟩
    rw [if_pos hk, ← hclen]
    exact fileLegal_fileOf (by omega) (by decide) hcv

/-- Every way an instruction of the stream ends keeps the state legal. -/
theorem inv_elementEnd {s t : State} (h : Inv s) (he : ElementEnd s (.next t)) : Inv t := by
  cases he with
  | done f c vs n hn hat hf hk =>
    obtain ⟨p, hp, hh⟩ := parse_of_atHeader hat
    exact inv_commit_done (inv_advance h n) hp hh hf hk
  | head f warm coef n hn hat hf hk =>
    obtain ⟨p, hp, hh⟩ := parse_of_atHeader hat
    obtain ⟨-, -, -, hblock, hsize⟩ := h.parse p hp
    exact inv_moveTo (inv_loadFiles (inv_advance h n) hp hh warm coef) hp
      (headLegal_loadFiles (s := advance s n) hblock hsize.2 hf hk)
  | layout p f method porder hp hph ha ho =>
    have hhead := (h.parse p hp).2.2.1
    rw [hph] at hhead
    exact inv_moveTo h hp ⟨hhead, ha, ho, Nat.two_pow_pos _, by simp, fun i hi => absurd hi (Nat.not_lt_zero _)⟩
  | partition p f r vs n hn hp hph hl hv => exact inv_closePartition (inv_advance h n) hp hph hl hv
  | error e he => exact inv_parseFault (inv_buffers h) he

/-- PARSE_SUBFRAME past its entry checks is legal. -/
theorem inv_startParse {s : State} (h : Inv s) (hp : s.pending = some .parse) (hc : parseConfigLegal s = true) :
    Inv (startParse s) := by
  simp only [parseConfigLegal, Bool.and_eq_true, decide_eq_true_eq] at hc
  obtain ⟨⟨⟨-, hblock⟩, hsize⟩, -⟩ := hc
  refine ⟨h.ibufForm, h.resbufForm, h.obufForm, h.errcode, fun hf => ?_, h.pending, h.crcFlags, nofun, fun q hq => ?_⟩
  · exact ⟨rfl, (h.faultFlags hf).2⟩
  · cases hq; exact ⟨hp, rfl, trivial, hblock, hsize⟩

/-- A piece of PARSE_SUBFRAME keeps the state legal, and PARSE_SUBFRAME pending while it runs. -/
theorem piece_keeps_inv {s t : State} (h : Inv s) (hp : s.pending = some .parse) (hpc : Piece s t) :
    Inv t ∧ (t.blockState = .busy → t.pending = some .parse) := by
  obtain ⟨hb, hpiece⟩ := hpc
  constructor
  · rcases parsePiece_next hpiece with ⟨-, hc, rfl⟩ | ⟨e, he, rfl⟩ | ⟨n, he⟩
    · exact inv_startParse h hp hc
    · exact inv_parseFault (inv_buffers h) he
    · exact inv_elementEnd (inv_advance h n) he
  · intro htb
    rcases parsePiece_progress hb with ⟨u, e, hu | hu | ⟨-, hu, -⟩⟩ | e <;> rw [hpiece] at e <;> cases e
    · rw [htb] at hu; cases hu
    · rw [htb] at hu; cases hu
    · rw [hu, hp]

/-- The pieces of PARSE_SUBFRAME, one after another, keep the state legal. -/
theorem pieces_keep_inv {s t : State} (h : Inv s) (hp : s.pending = some .parse)
    (hr : Relation.ReflTransGen Piece s t) : Inv t := by
  have hall : Inv t ∧ (t.blockState = .busy → t.pending = some .parse) := by
    induction hr with
    | refl => exact ⟨h, fun _ => hp⟩
    | tail _ hpc ih => exact piece_keeps_inv ih.1 (ih.2 hpc.1) hpc
  exact hall.1

/-! ## The other commands, and the host -/

theorem inv_finish {s : State} (h : Inv s) (hb : s.blockState = .busy) : Inv (finish s) where
  ibufForm := h.ibufForm
  resbufForm := h.resbufForm
  obufForm := h.obufForm
  errcode := by
    have he := h.errcode
    rwa [hb, if_neg (by decide)] at he
  faultFlags := nofun
  pending := by simp
  crcFlags := h.crcFlags
  held := fun hv => exists_held_of_eq (h.held hv) rfl
  parse := nofun

/-- RECONSTRUCT keeps the state legal. -/
theorem runReconstruct_keeps_inv {s t : State} (h : Inv s) (hb : s.blockState = .busy)
    (hr : runReconstruct s = .next t) : Inv t := by
  rcases runReconstruct_cases s with ⟨-, e⟩ | ⟨-, -, e⟩ | ⟨k, -, -, -, e⟩ | ⟨-, e⟩ | ⟨k, out, -, hk, -, hlen, -, e⟩ <;>
    rw [e] at hr <;> cases hr
  · exact inv_reconstructFault (inv_buffers h) (by simp [Raised])
  · exact inv_reconstructFault (inv_buffers h) (by simp [Raised])
  · have hblock := (heldKind_bounds hk).2.1
    refine inv_finish (s := { s with obuf := _ }) ⟨h.ibufForm, h.resbufForm,
      ⟨writeRun_wf h.obufForm.1 _ _, writeRun_bound h.obufForm.2 _ _ ?_⟩, h.errcode, h.faultFlags, h.pending, h.crcFlags,
      fun hv => exists_held_of_eq (h.held hv) rfl, fun p hp => ?_⟩ hb
    · simp only [List.length_map, hlen]; omega
    · obtain ⟨hpend, hsf, hphase, hsizes⟩ := h.parse p hp
      exact ⟨hpend, hsf, phaseLegal_of_eq hphase rfl, hsizes⟩

/-- VERIFY_CRC16 keeps the state legal. -/
theorem runVerify_keeps_inv {s t : State} (h : Inv s) (hb : s.blockState = .busy) (hr : runVerify s = .next t) :
    Inv t := by
  rcases runVerify_cases s with ⟨e, he, hv⟩ | hv | ⟨c, x, hv⟩ <;> rw [hv] at hr <;> cases hr
  · exact inv_verifyFault (inv_buffers h) he
  · refine inv_finish (s := { s with crcCalc := c, crcExpect := x, crcOk := crcOkFlag c x, crcValid := true })
      ⟨h.ibufForm, h.resbufForm, h.obufForm, h.errcode, fun hf => ?_, h.pending, ?_,
        fun hv => exists_held_of_eq (h.held hv) rfl, fun p hp => ?_⟩ hb
    · rw [hb] at hf; cases hf
    · simp [crcOkFlag]
    · obtain ⟨hpend, hsf, hphase, hsizes⟩ := h.parse p hp
      exact ⟨hpend, hsf, phaseLegal_of_eq hphase rfl, hsizes⟩

theorem inv_hardReset (s : State) : Inv (hardReset s) where
  ibufForm := ⟨.nil, nofun⟩
  resbufForm := ⟨.nil, nofun⟩
  obufForm := ⟨.nil, nofun⟩
  errcode := rfl
  faultFlags := nofun
  pending := ⟨nofun, nofun⟩
  crcFlags := ⟨nofun, fun _ => rfl⟩
  held := nofun
  parse := nofun

section notBusy
variable {s : State} (h : Inv s) (hb : s.blockState ≠ .busy)
include h hb

theorem inv_writeReg (r : Nat) (v : Word) : Inv (writeReg s r v) := by
  have hnone := (inv_notBusy h hb).1
  have fields : ∀ a b c d e f g,
      Inv { s with ibufLen := a, curByte := b, curBit := c, blocksize := d, samplesize := e, crcStart := f, crcEnd := g } :=
    fun a b c d e f g => ⟨h.ibufForm, h.resbufForm, h.obufForm, h.errcode, h.faultFlags, h.pending, h.crcFlags,
      fun hv => exists_held_of_eq (h.held hv) rfl, fun p hp => absurd (hnone.symm.trans hp) nofun⟩
  unfold writeReg
  split <;> exact fields _ _ _ _ _ _ _

theorem inv_writeIbuf {i : Nat} (b : Byte) (hi : i < Config.ibufBytes) : Inv { s with ibuf := s.ibuf.write i b } :=
  ⟨⟨write_wf h.ibufForm.1 i b, writeRun_bound h.ibufForm.2 i [b] hi⟩, h.resbufForm, h.obufForm, h.errcode,
    h.faultFlags, h.pending, h.crcFlags, fun hv => exists_held_of_eq (h.held hv) rfl,
    fun _ hp => absurd ((inv_notBusy h hb).1.symm.trans hp) nofun⟩

theorem inv_accepted (hf : s.blockState ≠ .fault) (op : Op) : Inv { s with pending := some op, blockState := .busy } where
  ibufForm := h.ibufForm
  resbufForm := h.resbufForm
  obufForm := h.obufForm
  errcode := by
    have he := h.errcode
    rwa [if_neg hf] at he
  faultFlags := nofun
  pending := by simp
  crcFlags := h.crcFlags
  held := fun hv => exists_held_of_eq (h.held hv) rfl
  parse := fun _ hp => absurd ((inv_notBusy h hb).1.symm.trans hp) nofun

theorem inv_softReset : Inv (softReset s) where
  ibufForm := h.ibufForm
  resbufForm := h.resbufForm
  obufForm := h.obufForm
  errcode := rfl
  faultFlags := nofun
  pending := by simp [softReset, inv_notBusy h hb]
  crcFlags := ⟨nofun, fun _ => rfl⟩
  held := nofun
  parse := fun _ hp => absurd ((inv_notBusy h hb).1.symm.trans hp) nofun

end notBusy

theorem inv_withHost {s : State} (h : Inv s) (as : List HostAction) (ts : List Turn) :
    Inv { s with host := as, turns := ts } := inv_of_eq h rfl

/-- Every step keeps the state legal. -/
theorem stepEnd_keeps_inv {s t : State} (h : Inv s) (he : StepEnd s t) : Inv t := by
  have hhost (as : List HostAction) : Inv { s with host := as } := inv_withHost h as s.turns
  have hturns (ts : List Turn) : Inv { s with turns := ts } := inv_withHost h s.host ts
  cases he with
  | quiet e => exact inv_of_eq h e
  | reset as ts hh e => subst e; exact inv_hardReset _
  | register r v as hb hh e => subst e; exact inv_writeReg (hhost as) hb r v
  | stored i b as hi hb e => subst e; exact inv_writeIbuf (hhost as) hb b hi
  | accepted op as hb hf e => subst e; exact inv_accepted (hhost as) hb hf op
  | rejected as hf e => subst e; exact inv_faultEntry (inv_buffers (hhost as)) (by simp [Raised])
  | softReset as hb hh e => subst e; exact inv_softReset (hhost as) hb
  | parse ts hr hreach => exact pieces_keep_inv (hturns ts) hr.2 hreach
  | reconstruct ts hr hrun => exact runReconstruct_keeps_inv (hturns ts) hr.1 hrun
  | verify ts hr hrun => exact runVerify_keeps_inv (hturns ts) hr.1 hrun

end Sys2Proof.Machine

namespace Sys2Proof.Proofs

open Sys2Proof.Machine

/-- Settles O58: each state a step can answer is reached by an update that keeps the legal states; the pieces of
PARSE_SUBFRAME by induction on their run. -/
theorem stepKeepsTheStateLegal : Obligations.StepKeepsTheStateLegal :=
  fun _ _ h hs => stepEnd_keeps_inv h (step_end hs)

end Sys2Proof.Proofs
end

section
/-! PROOF. RECONSTRUCT of a held subframe (O51). -/

namespace Sys2Proof.Machine

open Sys2Proof.Claims

theorem kindOf_kindCode (kind : Kind) : kindOf (kindCode kind) = some kind := by cases kind <;> rfl

section held
variable {s : State} {kind : Kind} (h : Held s kind)
include h

/-- A held subframe's registers name elements that exist. -/
theorem heldKind_of_held : heldKind s = some kind := by
  have hblock := h.block.2
  have horder := h.order
  have hfits := h.orderFits
  simp only [heldKind, h.kindIs, kindOf_kindCode]
  cases kind with
  | constant => simp [hblock]
  | verbatim => simp [hblock]
  | fixed =>
    have ho : s.sfOrder.toNat ≤ 4 := horder
    simp [hblock, hfits, ho]
  | lpc =>
    have ho : s.sfOrder.toNat ≤ 32 := horder.2
    simp [hblock, hfits, ho]

/-- Every residual of a held subframe is there. -/
theorem length_residualsHeld_of_held (hwf : s.resbuf.wf) :
    (residualsHeld s (heldCount kind s.sfBlocksize.toNat s.sfOrder.toNat)).length
      = heldCount kind s.sfBlocksize.toNat s.sfOrder.toNat := by
  refine le_antisymm (length_residualsHeld_le _ _) (Nat.le_of_not_lt fun hlt => ?_)
  rw [residualsHeld, List.length_map] at hlt
  obtain ⟨v, hv, -⟩ := h.residuals _ hlt
  have hnone := read_after_slice hwf hlt
  rw [Nat.zero_add, hv] at hnone
  cases hnone

/-- The samples of a held subframe need no unwritten element. -/
theorem unshifted_ne_unwritten (hwf : s.resbuf.wf) : unshifted s kind ≠ .error .unwritten := by
  have hlen := length_residualsHeld_of_held h hwf
  have predicted_ne : ∀ coefs shift warm residuals count, residuals.length = count →
      predicted coefs shift warm residuals count ≠ .error .unwritten := by
    intro coefs shift warm residuals count hc
    simp only [predicted]
    split
    · nofun
    · rw [if_pos hc.ge]; nofun
  cases kind with
  | constant => nofun
  | verbatim =>
    simp only [heldCount] at hlen
    rw [unshifted, if_neg (by omega)]; nofun
  | fixed => exact predicted_ne _ _ _ _ _ hlen
  | lpc => exact predicted_ne _ _ _ _ _ hlen

/-- A sample of the held width stays in 64 bits when the wasted bits are restored. -/
theorem fits64_restored {v : Int} (hv : InSigned s.sfWidth.toNat v) : fits64 (v * 2 ^ s.sfWasted.toNat) = true := by
  obtain ⟨hw, hsum⟩ := h.width
  have hmax : Config.maxSampleSize = 33 := rfl
  obtain ⟨hlo, hhi⟩ := hv
  have hexp : (2 : Int) ^ (s.sfWidth.toNat - 1) * 2 ^ s.sfWasted.toNat ≤ 2 ^ 63 := by
    rw [← pow_add]; exact pow_le_pow_right₀ (by norm_num) (by omega)
  have hpos : (0 : Int) < 2 ^ s.sfWasted.toNat := by positivity
  have hlo' := mul_le_mul_of_nonneg_right hlo hpos.le
  have hhi' := mul_lt_mul_of_pos_right hhi hpos
  rw [neg_mul] at hlo'
  simp only [fits64, decide_eq_true_eq]
  omega

/-- The samples of a held CONSTANT or VERBATIM subframe have the held width. -/
theorem unshifted_inSigned (hwf : s.resbuf.wf) (hk : kind = .constant ∨ kind = .verbatim) :
    ∃ samples, unshifted s kind = .ok samples ∧ ∀ v ∈ samples, InSigned s.sfWidth.toNat v := by
  rcases hk with rfl | rfl
  · refine ⟨_, rfl, fun v hv => ?_⟩
    rw [List.eq_of_mem_replicate hv]
    simpa using h.sample
  · have hlen := length_residualsHeld_of_held h hwf
    simp only [heldCount] at hlen
    refine ⟨residualsHeld s s.sfBlocksize.toNat, by rw [unshifted, if_neg (by omega)], fun v hv => ?_⟩
    obtain ⟨w, hw, rfl⟩ := List.mem_map.1 hv
    obtain ⟨i, hi, rfl⟩ := List.getElem_of_mem hw
    have hread := read_of_slice hwf hi
    obtain ⟨u, hu, hsigned⟩ := h.residuals i (hi.trans_le (length_slice_le _ _ _))
    rw [Nat.zero_add, hu] at hread
    cases hread
    simpa using hsigned

end held

/-- RECONSTRUCT answers a state for a held subframe. -/
theorem runReconstruct_of_held {s : State} {kind : Kind} (h : Held s kind) (hwf : s.resbuf.wf) :
    ∃ t, runReconstruct s = .next t := by
  have hkind := heldKind_of_held h
  rcases runReconstruct_cases s with ⟨-, e⟩ | ⟨-, hk, -⟩ | ⟨k, -, hk, hu, -⟩ | ⟨-, e⟩ | ⟨k, out, -, -, -, -, -, e⟩
  · exact ⟨_, e⟩
  · rw [hkind] at hk; cases hk
  · rw [hkind] at hk; cases hk; exact absurd hu (unshifted_ne_unwritten h hwf)
  · exact ⟨_, e⟩
  · exact ⟨_, e⟩

/-- RECONSTRUCT of samples that all stay in 64 bits ends DONE. -/
theorem runReconstruct_done {s : State} {kind : Kind} {samples : List Int} (hv : s.sfValid = true)
    (hk : heldKind s = some kind) (hu : unshifted s kind = .ok samples)
    (hfit : ∀ v ∈ samples, fits64 (v * 2 ^ s.sfWasted.toNat) = true) :
    ∃ t, runReconstruct s = .next t ∧ t.blockState = .done := by
  have hall : restoreWasted s.sfWasted.toNat samples = some (samples.map (fun v => v * 2 ^ s.sfWasted.toNat)) := by
    rw [restoreWasted, if_pos (List.all_eq_true.2 hfit)]
  simp only [runReconstruct, hv, hk, hu, hall, Bool.not_true, Bool.false_eq_true, if_false]
  exact ⟨_, rfl, rfl⟩

theorem exec_reconstruct_running {s : State} (h : Running .reconstruct s) : exec .cmdReconstruct s = runReconstruct s :=
  if_pos h

/-- SF_KIND 1 and 2 are CONSTANT and VERBATIM (spec/10_state.md R46). -/
theorem kind_of_sfKind {s : State} {kind : Kind} (h : Held s kind) (hk : s.sfKind = 1 ∨ s.sfKind = 2) :
    kind = .constant ∨ kind = .verbatim := by
  have hcode := kindOf_kindCode kind
  rw [← h.kindIs] at hcode
  rcases hk with hk | hk <;> rw [hk] at hcode <;> cases hcode
  · exact .inl rfl
  · exact .inr rfl

end Sys2Proof.Machine

namespace Sys2Proof.Proofs

open Sys2Proof.Machine

/-- Settles O51: a held subframe's residuals are all written, and a sample of its width, shifted by its wasted bits,
stays in 64 bits. -/
theorem heldSubframesCanBeReconstructed : Obligations.HeldSubframesCanBeReconstructed := by
  intro s hinv hrun hvalid
  obtain ⟨kind, hheld⟩ := hinv.held hvalid
  have hwf := hinv.resbufForm.1
  obtain ⟨t, ht⟩ := runReconstruct_of_held hheld hwf
  rw [exec_reconstruct_running hrun]
  refine ⟨t, ht, fun hk => ?_⟩
  obtain ⟨samples, hu, hsigned⟩ := unshifted_inSigned hheld hwf (kind_of_sfKind hheld hk)
  obtain ⟨u, hu', hdone⟩ := runReconstruct_done hvalid (heldKind_of_held hheld) hu
    fun v hv => fits64_restored hheld (hsigned v hv)
  rw [ht] at hu'
  cases hu'
  exact hdone

end Sys2Proof.Proofs
end

section
/-! PROOF. Who moves the cursor (O59), and who sets the flags and ERRCODE (O60). -/

namespace Sys2Proof.Machine

open Sys2Proof.Claims

/-! ## The cursor -/

theorem writeReg_cursor {r : Nat} (h3 : r ≠ 3) (h4 : r ≠ 4) (s : State) (v : Word) :
    ((writeReg s r v).curByte, (writeReg s r v).curBit) = (s.curByte, s.curBit) := by
  unfold writeReg
  split
  case h_2 => exact absurd rfl h3
  case h_3 => exact absurd rfl h4
  all_goals rfl

theorem runReconstruct_cursor {s t : State} (h : runReconstruct s = .next t) :
    (t.curByte, t.curBit) = (s.curByte, s.curBit) := by
  rcases runReconstruct_cases s with ⟨-, e⟩ | ⟨-, -, e⟩ | ⟨k, -, -, -, e⟩ | ⟨-, e⟩ | ⟨k, out, -, -, -, -, -, e⟩ <;>
    rw [e] at h <;> cases h <;> rfl

theorem runVerify_cursor {s t : State} (h : runVerify s = .next t) :
    (t.curByte, t.curBit) = (s.curByte, s.curBit) := by
  rcases runVerify_cases s with ⟨e, -, hv⟩ | hv | ⟨c, x, hv⟩ <;> rw [hv] at h <;> cases h <;> rfl

/-! ## The flags and ERRCODE -/

/-- The CRC flags are not set, and ERRCODE changes only at a fault entry from another state than FAULT. -/
structure FlagsKept (s t : State) : Prop where
  crcValid : t.crcValid = true → s.crcValid = true
  crcOk : t.crcOk = true → s.crcOk = true
  errcode : t.errcode = s.errcode ∨ s.blockState ≠ .fault ∧ t.blockState = .fault

/-- A state whose CRC flags and ERRCODE are another's. -/
theorem flagsKept_of_eq {s t : State} (h : (t.crcValid, t.crcOk, t.errcode) = (s.crcValid, s.crcOk, s.errcode)) :
    FlagsKept s t := by
  simp only [Prod.mk.injEq] at h
  obtain ⟨hvalid, hok, herr⟩ := h
  exact ⟨fun e => hvalid ▸ e, fun e => hok ▸ e, .inl herr⟩

/-- A fault entry from another state than FAULT. -/
theorem flagsKept_of_fault {s t : State} (hs : s.blockState ≠ .fault) (ht : t.blockState = .fault)
    (h : (t.crcValid, t.crcOk) = (false, false)) : FlagsKept s t := by
  simp only [Prod.mk.injEq] at h
  obtain ⟨hvalid, hok⟩ := h
  exact ⟨fun e => absurd (hvalid.symm.trans e) nofun, fun e => absurd (hok.symm.trans e) nofun, .inr ⟨hs, ht⟩⟩

theorem not_fault_of_busy {s : State} (hb : s.blockState = .busy) : s.blockState ≠ .fault := by
  rw [hb]; decide

theorem writeReg_flags (s : State) (r : Nat) (v : Word) :
    ((writeReg s r v).sfValid, (writeReg s r v).crcValid, (writeReg s r v).crcOk, (writeReg s r v).errcode)
      = (s.sfValid, s.crcValid, s.crcOk, s.errcode) := by
  unfold writeReg; split <;> rfl

/-- An instruction of the stream keeps the flags, but that Commit sets SF_VALID. -/
theorem elementEnd_flags {s t : State} (hb : s.blockState = .busy) (he : ElementEnd s (.next t)) :
    FlagsKept s t ∧ (t.sfValid = true → s.sfValid = true ∨ t.blockState = .done) := by
  cases he with
  | done f c vs n hn hat hf hk => exact ⟨flagsKept_of_eq (by split_ifs <;> rfl), fun _ => .inr rfl⟩
  | head f warm coef n hn hat hf hk => exact ⟨flagsKept_of_eq rfl, .inl⟩
  | layout p f method porder hp hph ha ho => exact ⟨flagsKept_of_eq rfl, .inl⟩
  | partition p f r vs n hn hp hph hl hv =>
    simp only [closePartition]
    split_ifs
    · exact ⟨flagsKept_of_eq rfl, .inl⟩
    · exact ⟨flagsKept_of_eq rfl, fun _ => .inr rfl⟩
  | error e he => exact ⟨flagsKept_of_fault (not_fault_of_busy hb) rfl rfl, nofun⟩

/-- A piece of PARSE_SUBFRAME keeps the flags, but that Commit sets SF_VALID. -/
theorem piece_flags {s t : State} (h : Piece s t) :
    FlagsKept s t ∧ (t.sfValid = true → s.sfValid = true ∨ t.blockState = .done) := by
  obtain ⟨hb, hp⟩ := h
  rcases parsePiece_next hp with ⟨-, -, rfl⟩ | ⟨e, -, rfl⟩ | ⟨n, he⟩
  · exact ⟨flagsKept_of_eq rfl, nofun⟩
  · exact ⟨flagsKept_of_fault (not_fault_of_busy hb) rfl rfl, nofun⟩
  · obtain ⟨⟨hvalid, hok, herr⟩, hsf⟩ := elementEnd_flags (s := advance s n) hb he
    exact ⟨⟨hvalid, hok, herr⟩, hsf⟩

/-- The pieces of PARSE_SUBFRAME, one after another, keep the flags, but that Commit, the last, sets SF_VALID. -/
theorem pieces_flags {s t : State} (hs : s.blockState = .busy) (h : Relation.ReflTransGen Piece s t) :
    FlagsKept s t ∧ (t.sfValid = true → s.sfValid = true ∨ t.blockState = .done) := by
  induction h with
  | refl => exact ⟨flagsKept_of_eq rfl, .inl⟩
  | @tail u v _ hpc ih =>
    obtain ⟨hkept, hsf⟩ := ih
    obtain ⟨hkept', hsf'⟩ := piece_flags hpc
    have hb : u.blockState = .busy := hpc.1
    have herr : u.errcode = s.errcode := hkept.errcode.resolve_right fun hf => not_fault_of_busy hb hf.2
    refine ⟨⟨hkept.crcValid ∘ hkept'.crcValid, hkept.crcOk ∘ hkept'.crcOk, ?_⟩, fun hv => ?_⟩
    · exact hkept'.errcode.imp (·.trans herr) fun hf => ⟨not_fault_of_busy hs, hf.2⟩
    · rcases hsf' hv with hu | hdone
      · exact .inl ((hsf hu).resolve_right (by rw [hb]; decide))
      · exact .inr hdone

/-- RECONSTRUCT sets no flag. -/
theorem runReconstruct_flags {s t : State} (hb : s.blockState = .busy) (h : runReconstruct s = .next t) :
    FlagsKept s t ∧ (t.sfValid = true → s.sfValid = true) := by
  rcases runReconstruct_cases s with ⟨-, e⟩ | ⟨-, -, e⟩ | ⟨k, -, -, -, e⟩ | ⟨-, e⟩ | ⟨k, out, -, -, -, -, -, e⟩ <;>
    rw [e] at h <;> cases h
  · exact ⟨flagsKept_of_fault (not_fault_of_busy hb) rfl rfl, nofun⟩
  · exact ⟨flagsKept_of_fault (not_fault_of_busy hb) rfl rfl, nofun⟩
  · exact ⟨flagsKept_of_eq rfl, id⟩

/-- VERIFY_CRC16 sets no flag, or ends DONE with CRC_OK saying that the CRCs are equal. -/
theorem runVerify_flags {s t : State} (hb : s.blockState = .busy) (h : runVerify s = .next t) :
    FlagsKept s t ∧ t.sfValid = false
      ∨ t.blockState = .done ∧ t.errcode = s.errcode ∧ t.sfValid = s.sfValid
        ∧ (t.crcOk = true → t.crcCalc = t.crcExpect) := by
  rcases runVerify_cases s with ⟨e, -, hv⟩ | hv | ⟨c, x, hv⟩ <;> rw [hv] at h <;> cases h
  · exact .inl ⟨flagsKept_of_fault (not_fault_of_busy hb) rfl rfl, rfl⟩
  · exact .inr ⟨rfl, rfl, rfl, by simp [crcOkFlag]⟩

/-- What a step does to the flags: it sets none but SF_VALID at the end of PARSE_SUBFRAME, or clears them with ERRCODE, or
ends VERIFY_CRC16. -/
theorem stepEnd_flags {s t : State} (h : StepEnd s t) :
    FlagsKept s t ∧ (t.sfValid = true → s.sfValid = true ∨ Running .parse s ∧ t.blockState = .done)
      ∨ t.blockState = .idle ∧ t.errcode = 0 ∧ (t.sfValid, t.crcValid, t.crcOk) = (false, false, false)
        ∧ (∃ as, s.host = .reset :: as ∨ s.host = .writeReg 0 0x0000000F :: as)
      ∨ Running .verify s ∧ t.blockState = .done ∧ t.errcode = s.errcode ∧ t.sfValid = s.sfValid
        ∧ (t.crcOk = true → t.crcCalc = t.crcExpect) := by
  cases h with
  | quiet e => rw [e]; exact .inl ⟨flagsKept_of_eq rfl, .inl⟩
  | reset as ts hh e => subst e; exact .inr (.inl ⟨rfl, rfl, rfl, as, .inl hh⟩)
  | register r v as hb hh e =>
    obtain ⟨hsf, hcrc⟩ := Prod.mk.inj (writeReg_flags { s with host := as } r v)
    subst e
    exact .inl ⟨flagsKept_of_eq hcrc, fun hv => .inl (hsf ▸ hv)⟩
  | stored i b as hi hb e => subst e; exact .inl ⟨flagsKept_of_eq rfl, .inl⟩
  | accepted op as hb hf e => subst e; exact .inl ⟨flagsKept_of_eq rfl, .inl⟩
  | rejected as hf e => subst e; exact .inl ⟨flagsKept_of_fault hf rfl rfl, nofun⟩
  | softReset as hb hh e => subst e; exact .inr (.inl ⟨rfl, rfl, rfl, as, .inr hh⟩)
  | parse ts hr hreach =>
    obtain ⟨⟨hvalid, hok, herr⟩, hsf⟩ := pieces_flags (s := { s with turns := ts }) hr.1 hreach
    exact .inl ⟨⟨hvalid, hok, herr⟩, fun hv => (hsf hv).imp_right (⟨hr, ·⟩)⟩
  | reconstruct ts hr hrun =>
    obtain ⟨⟨hvalid, hok, herr⟩, hsf⟩ := runReconstruct_flags (s := { s with turns := ts }) hr.1 hrun
    exact .inl ⟨⟨hvalid, hok, herr⟩, fun hv => .inl (hsf hv)⟩
  | verify ts hr hrun =>
    rcases runVerify_flags (s := { s with turns := ts }) hr.1 hrun with ⟨⟨hvalid, hok, herr⟩, hsf⟩ | hdone
    · exact .inl ⟨⟨hvalid, hok, herr⟩, fun hv => absurd (hsf.symm.trans hv) nofun⟩
    · exact .inr (.inr ⟨hr, hdone⟩)

end Sys2Proof.Machine

namespace Sys2Proof.Proofs

open Sys2Proof.Machine

/-- Settles O59: of the moves that are no PARSE_SUBFRAME, only reset and a register write can change the cursor. -/
theorem onlyParseAndTheHostMoveTheCursor : Obligations.OnlyParseAndTheHostMoveTheCursor := by
  intro s t hstep hmoved
  cases step_end hstep with
  | quiet e => rw [e] at hmoved; exact absurd rfl hmoved
  | reset as ts hh e => exact .inr ⟨_, as, hh, .inl rfl⟩
  | register r v as hb hh e =>
    by_cases h3 : r = 3
    · subst h3; exact .inr ⟨_, as, hh, .inr ⟨v, .inl rfl⟩⟩
    · by_cases h4 : r = 4
      · subst h4; exact .inr ⟨_, as, hh, .inr ⟨v, .inr rfl⟩⟩
      · subst e; exact absurd (writeReg_cursor h3 h4 _ v) hmoved
  | stored i b as hi hb e => subst e; exact absurd rfl hmoved
  | accepted op as hb hf e => subst e; exact absurd rfl hmoved
  | rejected as hf e => subst e; exact absurd rfl hmoved
  | softReset as hb hh e => subst e; exact absurd rfl hmoved
  | parse ts hr hreach => exact .inl hr
  | reconstruct ts hr hrun => exact absurd (runReconstruct_cursor hrun) hmoved
  | verify ts hr hrun => exact absurd (runVerify_cursor hrun) hmoved

/-- Settles O60: a step keeps the flags, or clears them with ERRCODE, or ends the command that sets them. -/
theorem flagsAreSetOnlyByTheirCommands : Obligations.FlagsAreSetOnlyByTheirCommands := by
  intro s t hstep
  rcases stepEnd_flags (step_end hstep) with
    ⟨⟨hvalid, hok, herr⟩, hsf⟩ | ⟨hidle, herr, hflags, hhost⟩ | ⟨hrun, hdone, herr, hsf, heq⟩
  · exact ⟨fun hs ht => (hsf ht).resolve_left (by simp [hs]), fun hs ht => absurd (hvalid ht) (by simp [hs]),
      fun hs ht => absurd (hok ht) (by simp [hs]), fun hne => .inl (herr.resolve_left hne)⟩
  · simp only [Prod.mk.injEq] at hflags
    obtain ⟨hsf, hvalid, hok⟩ := hflags
    exact ⟨fun _ ht => absurd (hsf.symm.trans ht) nofun, fun _ ht => absurd (hvalid.symm.trans ht) nofun,
      fun _ ht => absurd (hok.symm.trans ht) nofun, fun _ => .inr ⟨hidle, herr, hhost⟩⟩
  · exact ⟨fun hs ht => absurd (hsf.symm.trans ht) (by simp [hs]), fun _ _ => ⟨hrun, hdone⟩,
      fun _ ht => ⟨hrun, hdone, heq ht⟩, fun hne => absurd herr hne⟩

end Sys2Proof.Proofs
end

section
/-! PROOF. The bits at the cursor (O11), and the host's register port while not BUSY (O24, O25, O26). -/

namespace Sys2Proof.Machine

/-! ## The stream -/

/-- Bit address a of the stream lies in the byte that many whole bytes past the cursor's. -/
theorem bitAddress_div (s : State) (j : Nat) :
    (8 * s.curByte.toNat + s.curBit.toNat + j) / 8 = s.curByte.toNat + (s.curBit.toNat + j) / 8 := by omega

/-- Past the bits at hand the cursor lies in the byte past the bytes at hand. -/
theorem bitAddress_streamEnd (s : State) :
    (8 * s.curByte.toNat + s.curBit.toNat + (streamBits s).length) / 8
      = s.curByte.toNat + (bytesAtCursor s).length := by
  have hlen := length_streamBits s
  have hbit := s.curBit.isLt
  omega

/-! ## The register port -/

theorem step_readReg {s : State} {r : Nat} {as : List HostAction} (hb : s.blockState ≠ .busy)
    (hh : s.host = .readReg r :: as) :
    step s = .next { s with host := as, readData := some (readReg { s with host := as } r) } :=
  step_host_free hb hh

theorem step_writeReg {s : State} {r : Nat} {v : Word} {as : List HostAction} (hb : s.blockState ≠ .busy)
    (hr : r ≠ 0) (hh : s.host = .writeReg r v :: as) : step s = .next (writeReg { s with host := as } r v) := by
  rw [step_host_free hb hh, hostMoveFree, if_neg hr]

/-- Register 0 and the reserved numbers read 0 (spec/10_state.md R55, R56). -/
theorem readReg_reserved (s : State) {r : Nat} (h : r = 0 ∨ 22 ≤ r) : readReg s r = .word 0 := by
  rcases h with rfl | h
  · rfl
  · obtain ⟨k, rfl⟩ := Nat.exists_eq_add_of_le' h
    rfl

/-- The read-only registers and the reserved numbers ignore a write (spec/10_state.md R55, R56). -/
theorem writeReg_ignored (s : State) {r : Nat} (v : Word) (h : r = 1 ∨ 9 ≤ r) : writeReg s r v = s := by
  rcases h with rfl | h
  · rfl
  · obtain ⟨k, rfl⟩ := Nat.exists_eq_add_of_le' h
    rfl

/-- Fields put together as STATUS lays them out are found in their places (spec/10_state.md R39). -/
theorem fields_of_append (e : BitVec 8) (ok valid sf : Bool) (st : BitVec 2) {w : BitVec (16 + 8 + 3 + 1 + 1 + 1 + 2)}
    (hw : w = 0#16 ++ e ++ 0#3 ++ BitVec.ofBool ok ++ BitVec.ofBool valid ++ BitVec.ofBool sf ++ st) :
    w.extractLsb' 0 2 = st ∧ w.getLsbD 2 = sf ∧ w.getLsbD 3 = valid ∧ w.getLsbD 4 = ok
      ∧ w.extractLsb' 5 3 = 0 ∧ w.extractLsb' 8 8 = e ∧ w.extractLsb' 16 16 = 0 := by
  subst hw
  simp [-Nat.reduceAdd, BitVec.getElem_append, BitVec.extractLsb'_append_eq_of_le,
    BitVec.extractLsb'_append_eq_of_add_le]

/-- STATUS field by field (spec/10_state.md R39). -/
theorem statusWord_fields (s : State) :
    (statusWord s).extractLsb' 0 2 = stateCode s.blockState ∧ (statusWord s).getLsbD 2 = s.sfValid
      ∧ (statusWord s).getLsbD 3 = s.crcValid ∧ (statusWord s).getLsbD 4 = s.crcOk
      ∧ (statusWord s).extractLsb' 5 3 = 0 ∧ (statusWord s).extractLsb' 8 8 = s.errcode
      ∧ (statusWord s).extractLsb' 16 16 = 0 :=
  fields_of_append _ _ _ _ _ rfl

end Sys2Proof.Machine

namespace Sys2Proof.Proofs

open Sys2Proof.Machine

/-- Settles O11: a bit at hand is a bit of a byte of the slice of IBUF from the cursor's byte to IBUF_LEN, and the slice
ends early only at an unwritten byte. -/
theorem streamIsIbufFromTheCursor : Obligations.StreamIsIbufFromTheCursor := by
  intro s hwf
  refine ⟨fun j b hj => ?_, fun hend => ?_, fun hend => ?_⟩
  · rw [getElem?_streamBits, Option.map_eq_some_iff] at hj
    obtain ⟨byte, hbyte, rfl⟩ := hj
    obtain ⟨hlt, hget⟩ := List.getElem?_eq_some_iff.1 hbyte
    have hread := read_of_slice hwf hlt
    have hahead := hlt.trans_le (length_bytesAtCursor_le s)
    unfold bytesAhead at hahead
    rw [bitAddress_div]
    refine ⟨byte, hread.trans (congrArg some hget), by omega, ?_⟩
    congr 1; omega
  · rw [bitAddress_streamEnd]
    simp only [streamEnd] at hend
    split_ifs at hend with hlen
    unfold bytesAhead at hlen
    omega
  · rw [bitAddress_streamEnd]
    simp only [streamEnd] at hend
    split_ifs at hend with hlen
    refine ⟨read_after_slice hwf hlen, ?_⟩
    unfold bytesAhead at hlen
    omega

/-- Settles O24: both port functions fall to their last arm. -/
theorem reservedRegisterNumbers : Obligations.ReservedRegisterNumbers := by
  intro s r as hb hr
  refine ⟨fun hh => ?_, fun v hh => ?_⟩
  · rw [step_readReg hb hh, readReg_reserved _ (.inr hr)]
  · rw [step_writeReg hb (by omega) hh, writeReg_ignored _ _ (.inr (by omega))]

/-- Settles O25: a register write is `writeReg`, arm by arm. -/
theorem hostRegisterWrites : Obligations.HostRegisterWrites := by
  intro s r v as hb hr hh
  rw [step_writeReg hb hr hh]
  refine ⟨?_, ?_, ?_, ?_, ?_, ?_, ?_, fun h => by rw [writeReg_ignored _ _ h]⟩ <;> (rintro rfl; rfl)

/-- Settles O26: a register read is `readReg`, arm by arm, and STATUS is read field by field. -/
theorem hostRegisterReads : Obligations.HostRegisterReads := by
  intro s r as hb hh
  refine ⟨_, step_readReg hb hh, readReg_reserved _, ?_, ?_⟩
  · rintro rfl
    exact ⟨_, rfl, statusWord_fields s⟩
  · simp only [BitVec.ofNat_toNat]
    and_intros <;> (rintro rfl; rfl)

end Sys2Proof.Proofs
end

section
/-! PROOF. The readers of the stream's fields, where the bits reach and where they end (O5, O6, O7). -/

namespace Sys2Proof.Machine

open Sys2Proof.Claims

/-! ## Whole fields -/

/-- ReadSigned(n) reads an n-bit two's-complement field back. -/
theorem signedField_signedBits {n : Nat} {v : Int} (h : FieldValue n v) (rest : List Bool) :
    signedField n (signedBits n v ++ rest) = .ok (v, rest) := by
  by_cases hn : n = 0
  · subst hn
    rw [FieldValue, if_pos rfl] at h
    subst h; rfl
  · rw [FieldValue, if_neg hn] at h
    rw [signedField, if_neg hn, signedBits, bitsField_natBits _ _ _ (emod_two_pow_lt n v)]
    simp only [sext_emod hn h]

/-- n signed fields of one width are read where the bits are there. -/
theorem readMany_signed_whole {w n : Nat} (hw : w ≠ 0) {bits : List Bool} (h : bits.length = n * w)
    (rest : List Bool) : ∃ vs, readMany (signedField w) n (bits ++ rest) = .ok (vs, rest) := by
  induction n generalizing bits with
  | zero =>
    rw [Nat.zero_mul] at h
    exact ⟨[], by rw [List.length_eq_zero_iff.1 h]; rfl⟩
  | succ n ih =>
    rw [Nat.succ_mul] at h
    rcases signedField_cases hw (bits ++ rest) with ⟨hlt, -⟩ | ⟨v, rest', -, -, hdrop, e⟩
    · rw [List.length_append] at hlt; omega
    · rw [List.drop_append_of_le_length (by omega)] at hdrop
      obtain ⟨vs, hvs⟩ := ih (bits := bits.drop w) (by rw [List.length_drop]; omega)
      exact ⟨v :: vs, by simp only [readMany, e, ← hdrop, hvs]⟩

/-- ReadWasted reads an encoded count back (spec/40_subframe.md R153). -/
theorem wastedField_wastedBits (wflag : Bool) (z : Nat) (rest : List Bool) :
    wastedField Config.wastedBias wflag (wastedBits wflag z ++ rest) = .ok (wastedOf wflag z, rest) := by
  cases wflag with
  | false => rfl
  | true => simp only [wastedField, wastedBits, if_true, unaryField, readUnary_unaryBits, wastedOf]

/-- A precision field other than 15 (spec/40_subframe.md R163). -/
theorem precisionField_natBits {q : Nat} (hq : q < 15) (rest : List Bool) :
    precisionField (natBits 4 q ++ rest) = .ok (q + 1, rest) := by
  simp only [precisionField, bitsField_natBits 4 q rest (by omega), if_neg (show q ≠ 15 by omega)]

/-- A shift field that is not negative (spec/40_subframe.md R164). -/
theorem shiftField_natBits {sh : Nat} (hsh : sh < 16) (rest : List Bool) :
    shiftField (natBits 5 sh ++ rest) = .ok (sh, rest) := by
  have hsext : sext 5 sh = sh := if_neg (by omega)
  have hneg : ¬ (sh : Int) < 0 := by omega
  simp [shiftField, signedField, bitsField_natBits 5 sh rest (by omega), hsext, hneg]

/-- The folded value of a signed 32-bit residual has 32 bits (spec/41_residual_rice.md R188). -/
theorem foldResidual_lt {v : Int} (h : InSigned 32 v) : foldResidual v < 2 ^ 32 := by
  simp only [InSigned] at h
  simp only [foldResidual]; split_ifs <;> omega

/-- A Rice codeword of a signed 32-bit residual is read back. -/
theorem riceField_riceBits (k : Nat) {v : Int} (h : InSigned 32 v) (rest : List Bool) :
    riceField k (riceBits k v ++ rest) = .ok (v, rest) := by
  rw [riceBits, riceField_codeword k _ _ rest (Nat.mod_lt _ (by positivity)), Nat.div_add_mod',
    if_pos (foldResidual_lt h), zigZag_foldResidual]

/-! ## Fields cut off -/

theorem bitsField_short {n : Nat} {bits : List Bool} (h : bits.length < n) : bitsField n bits = .error .short := by
  simp only [bitsField, readBits_short n bits h]

theorem signedField_short {n : Nat} {bits : List Bool} (h : bits.length < n) :
    signedField n bits = .error .short := by
  simp only [signedField, if_neg (show n ≠ 0 by omega), bitsField_short h]

theorem precisionField_short {bits : List Bool} (h : bits.length < 4) : precisionField bits = .error .short := by
  simp only [precisionField, bitsField_short h]

theorem shiftField_short {bits : List Bool} (h : bits.length < 5) : shiftField bits = .error .short := by
  simp only [shiftField, signedField_short h]

/-- A Rice codeword of whatever value, cut off inside its run of 0 bits or its low bits. -/
theorem riceField_short {k q r m : Nat} (h : m < q + 1 + k) :
    riceField k ((unaryBits q ++ natBits k r).take m) = .error .short := by
  rcases Nat.lt_or_ge q m with hq | hq
  · have hcut : (unaryBits q ++ natBits k r).take m = unaryBits q ++ (natBits k r).take (m - (q + 1)) := by
      rw [List.take_append, length_unaryBits, List.take_of_length_le (by rw [length_unaryBits]; omega)]
    have hlow : ((natBits k r).take (m - (q + 1))).length < k := by
      rw [List.length_take, length_natBits]; omega
    simp only [hcut, riceField, unaryField, readUnary_unaryBits, bitsField_short hlow]
  · have hcut : (unaryBits q ++ natBits k r).take m = List.replicate m false := by
      rw [unaryBits, List.append_assoc, List.take_append_of_le_length (by simpa using hq), List.take_replicate,
        Nat.min_eq_left hq]
    simp only [hcut, riceField, unaryField, readUnary_replicate]

end Sys2Proof.Machine

namespace Sys2Proof.Proofs

open Sys2Proof.Machine

/-- Settles O5: with n bits at hand, they are the field of their value, and a field's bits are its value's. -/
theorem readBitsTakesBitsMostSignificantFirst : Obligations.ReadBitsTakesBitsMostSignificantFirst := by
  intro n bits
  refine ⟨fun hlen => ?_, readBits_short n bits⟩
  rcases readBits_cases n bits with ⟨hlt, -⟩ | ⟨v, rest, hv, rfl, e⟩
  · omega
  · refine ⟨v, hv, by simpa using e, fun j hj => ?_⟩
    rw [List.getElem?_append_left (by simpa using hj), getElem?_natBits n v j hj]

/-- Settles O6: a unary run is read back, and a run of 0 bits alone stops. -/
theorem readUnaryCountsZeroBits : Obligations.ReadUnaryCountsZeroBits := by
  intro z rest
  have hrun : List.replicate z false ++ true :: rest = unaryBits z ++ rest := by simp [unaryBits]
  exact ⟨hrun ▸ readUnary_unaryBits z rest, readUnary_replicate z⟩

/-- Settles O7: a two's-complement field is read back, and what is read is in its range. -/
theorem readSignedIsTwosComplement : Obligations.ReadSignedIsTwosComplement :=
  ⟨fun _ _ rest h => signedField_signedBits h rest, fun _ _ _ _ h => (signedField_suffix h).1⟩

end Sys2Proof.Proofs
end

section
/-! PROOF. Bodies of stream elements cut off by the end of the bits at hand (O35). -/

namespace Sys2Proof.Machine

open Sys2Proof.Claims

/-- What the end of the bits at hand stops a step with. -/
theorem streamExhausted_ends (s : State) :
    (streamEnd s = .bufferEnd → streamExhausted s = .next (parseFault .truncatedStream s))
      ∧ (streamEnd s = .unwrittenByte → streamExhausted s = .fault (.unwrittenRead .ibuf)) :=
  ⟨fun h => by rw [streamExhausted, h], fun h => by rw [streamExhausted, h]⟩

theorem runElementWith_short {α : Type} {s : State} {read : List Bool → Reading α}
    (h : read (streamBits s) = .error .short) (effect : α → State → State) :
    runElementWith s read effect = streamExhausted s := by
  simp only [runElementWith, h, elementStopped]

/-! ## Subframe forms -/

/-- The head every form shares is read where its order and its width are legal (spec/40_subframe.md R152 to R154). -/
theorem readHead_wastedBits {s : State} {order : Nat} {wflag : Bool} {z : Nat} (ho : order ≤ s.blocksize.toNat)
    (hw : wastedOf wflag z < s.samplesize.toNat) (rest : List Bool) :
    readHead s order wflag (wastedBits wflag z ++ rest) = .ok ((wastedOf wflag z, widthOf s wflag z), rest) := by
  simp only [readHead, if_neg (Nat.not_lt.2 ho), wastedField_wastedBits,
    if_neg (show ¬ s.samplesize.toNat < wastedOf wflag z + 1 by omega), widthOf]

/-- The head runs short in an unending run of wasted bits. -/
theorem readHead_replicate {s : State} {order : Nat} (ho : order ≤ s.blocksize.toNat) (n : Nat) :
    readHead s order true (List.replicate n false) = .error .short := by
  simp only [readHead, if_neg (Nat.not_lt.2 ho), wastedField, if_true, unaryField, readUnary_replicate]

/-- A form's head runs short, or leaves bits that end where `cut` says of the width. -/
def HeadCutOff (s : State) (order : Nat) (wflag : Bool) (cut : Nat → List Bool → Prop) (bits : List Bool) : Prop :=
  readHead s order wflag bits = .error .short
    ∨ ∃ head rest, readHead s order wflag bits = .ok (head, rest) ∧ head.2 ≠ 0 ∧ cut head.2 rest

theorem atHeader_of_cutOffForm {s : State} {p : ParseRun} {i : Instr} {cut : Nat → List Bool → Prop}
    {bits : List Bool} (h : CutOffForm s p i cut bits) : atHeader s = true := by
  obtain ⟨⟨hp, hphase, -⟩, -⟩ := h
  obtain ⟨b, o, phase⟩ := p
  subst hphase
  rw [atHeader, hp]

theorem headCutOff_of_cutOffForm {s : State} {p : ParseRun} {i : Instr} {cut : Nat → List Bool → Prop}
    {bits : List Bool} (h : CutOffForm s p i cut bits) : HeadCutOff s (predictorOrder i) (wflagOf i) cut bits := by
  obtain ⟨-, ho, ⟨hflag, n, rfl⟩ | ⟨z, part, hw, rfl, hcut⟩⟩ := h
  · exact .inl (hflag ▸ readHead_replicate ho n)
  · exact .inr ⟨_, part, readHead_wastedBits ho hw part, Nat.sub_ne_zero_of_lt hw, hcut⟩

section forms
variable {s : State} {wflag : Bool} {bits : List Bool}

theorem readConstant_short (h : HeadCutOff s 0 wflag (fun W part => part.length < W) bits) :
    readConstant s wflag bits = .error .short := by
  rcases h with h | ⟨head, rest, h, -, hcut⟩
  · simp only [readConstant, h]
  · simp only [readConstant, h, signedField_short hcut]

theorem readVerbatim_short (h : HeadCutOff s 0 wflag (fun W part => part.length < s.blocksize.toNat * W) bits) :
    readVerbatim s wflag bits = .error .short := by
  rcases h with h | ⟨head, rest, h, hw, hcut⟩
  · simp only [readVerbatim, h]
  · simp only [readVerbatim, h, readMany_signed_short hw hcut]

theorem readFixed_short {order : Nat} (h : HeadCutOff s order wflag (fun W part => part.length < order * W) bits) :
    readFixed s order wflag bits = .error .short := by
  rcases h with h | ⟨head, rest, h, hw, hcut⟩
  · simp only [readFixed, h]
  · simp only [readFixed, h, readMany_signed_short hw hcut]

/-- The LPC body runs short in its head, warm-up, precision, shift or coefficients. -/
theorem readLpc_short {order : Nat} (h : HeadCutOff s order wflag (CutOffLpc order) bits) :
    readLpc s order wflag bits = .error .short := by
  rcases h with h | ⟨head, rest, h, hw, hcut⟩
  · simp only [readLpc, h]
  rcases hcut with hwarm | ⟨warm, rest, hlen, rfl, hcut⟩
  · simp only [readLpc, h, readMany_signed_short hw hwarm]
  obtain ⟨vs, hvs⟩ := readMany_signed_whole hw hlen rest
  rcases hcut with hprec | ⟨q, rest, hq, rfl, hcut⟩
  · simp only [readLpc, h, hvs, precisionField_short hprec]
  rcases hcut with hshift | ⟨sh, coef, hsh, rfl, hcoef⟩
  · simp only [readLpc, h, hvs, precisionField_natBits hq, shiftField_short hshift]
  · simp only [readLpc, h, hvs, precisionField_natBits hq, shiftField_natBits hsh,
      readMany_signed_short (Nat.succ_ne_zero q) hcoef]

end forms

/-- A FIXED form cut off inside its wasted bits or its warm-up. -/
theorem fixedForm_cutOff {s : State} {p : ParseRun} {i : Instr} {cut : Nat → List Bool → Prop}
    (h : CutOffForm s p i cut (streamBits s)) (hcut : ∀ W part, cut W part → part.length < predictorOrder i * W) :
    fixedForm (predictorOrder i) (wflagOf i) s = streamExhausted s := by
  have hread : readFixed s (predictorOrder i) (wflagOf i) (streamBits s) = .error .short :=
    readFixed_short ((headCutOff_of_cutOffForm h).imp_right
      fun ⟨head, rest, e, hw, hc⟩ => ⟨head, rest, e, hw, hcut _ _ hc⟩)
  rw [fixedForm, if_pos (atHeader_of_cutOffForm h), runElementWith_short hread]

/-! ## Partitions -/

/-- A partition whose residuals run short. -/
theorem partitionForm_cutOff {s : State} {p : ParseRun} {method : BitVec 1} {field : List Bool → Reading Int}
    {cut : Nat → Prop} (hp : s.parse = some p) (h : CutOffPartition p method cut)
    (hshort : ∀ n, cut n → readMany field n (streamBits s) = .error .short) :
    partitionForm method field s = streamExhausted s := by
  obtain ⟨f, r, hphase, hmethod, hcut⟩ := h
  obtain ⟨b, o, phase⟩ := p
  subst hphase
  simp only [partitionForm, hp, if_pos hmethod]
  exact runElementWith_short (hshort _ hcut) _

/-- Codewords run short where the bits end inside one of them. -/
theorem readMany_rice_short {k n : Nat} {bits : List Bool} (h : CutOffRice k bits n) :
    readMany (riceField k) n bits = .error .short := by
  obtain ⟨vs, q, r, m, hn, hvs, -, hm, rfl⟩ := h
  exact readMany_stops (fun v hv => riceField_riceBits k (hvs v hv)) hn (riceField_short hm)

/-- Raw fields of an escape run short where there are fewer bits than they take; of width 0 they take none. -/
theorem readMany_escape_short {w n : Nat} {bits : List Bool} (h : bits.length < n * w) :
    readMany (signedField w) n bits = .error .short :=
  readMany_signed_short (by rintro rfl; omega) h

/-- An element whose body the bits at hand do not reach ends as their end says. -/
theorem exec_cutOffBody {s : State} {p : ParseRun} {i : Instr} (hp : s.parse = some p)
    (h : CutOffBody s p (streamBits s) i) : exec i s = streamExhausted s := by
  cases i <;> simp only [CutOffBody] at h
  case sfConstant w =>
    rw [exec, execSfConstant, if_pos (atHeader_of_cutOffForm h)]
    exact runElementWith_short (readConstant_short (headCutOff_of_cutOffForm h)) _
  case sfVerbatim w =>
    rw [exec, execSfVerbatim, if_pos (atHeader_of_cutOffForm h)]
    exact runElementWith_short (readVerbatim_short (headCutOff_of_cutOffForm h)) _
  case sfFixed0 w => exact fixedForm_cutOff (i := .sfFixed0 w) h fun _ _ => False.elim
  case sfFixed1 w => exact fixedForm_cutOff (i := .sfFixed1 w) h fun _ _ => id
  case sfFixed2 w => exact fixedForm_cutOff (i := .sfFixed2 w) h fun _ _ => id
  case sfFixed3 w => exact fixedForm_cutOff (i := .sfFixed3 w) h fun _ _ => id
  case sfFixed4 w => exact fixedForm_cutOff (i := .sfFixed4 w) h fun _ _ => id
  case sfLpc o w =>
    rw [exec, execSfLpc, if_pos (atHeader_of_cutOffForm h)]
    exact runElementWith_short (readLpc_short (headCutOff_of_cutOffForm h)) _
  case partEsc4 w => exact partitionForm_cutOff hp h fun _ => readMany_escape_short
  case partRice4 k => exact partitionForm_cutOff hp h fun _ => readMany_rice_short
  case partEsc5 w => exact partitionForm_cutOff hp h fun _ => readMany_escape_short
  case partRice5 k => exact partitionForm_cutOff hp h fun _ => readMany_rice_short

end Sys2Proof.Machine

namespace Sys2Proof.Proofs

open Sys2Proof.Machine

/-- Settles O35: the reader of the element runs short at the cut, and the end of the bits at hand says what follows. -/
theorem cutOffBodiesFault : Obligations.CutOffBodiesFault := by
  intro s p i hp hcut
  rw [exec_cutOffBody hp hcut]
  exact streamExhausted_ends s

end Sys2Proof.Proofs
end

section
/-! PROOF. Headers cut off by the end of the bits at hand (O36). -/

namespace Sys2Proof.Machine

open Sys2Proof.Claims

/-! ## The decoder on a header cut short -/

/-- A subframe header's TYPE names a form of the instruction's order (spec/30_encoding.md R112). -/
theorem encode_header {i : Instr} (h : i.slot = .header) :
    ∃ t form, t < 2 ^ 6 ∧ encode i = headerBits t (wflagOf i) ∧ formOfType t false = some form
      ∧ predictorOrder form = predictorOrder i := by
  cases i with
  | sfConstant w => exact ⟨0, _, by decide, rfl, rfl, rfl⟩
  | sfVerbatim w => exact ⟨1, _, by decide, rfl, rfl, rfl⟩
  | sfFixed0 w => exact ⟨8, _, by decide, rfl, rfl, rfl⟩
  | sfFixed1 w => exact ⟨9, _, by decide, rfl, rfl, rfl⟩
  | sfFixed2 w => exact ⟨10, _, by decide, rfl, rfl, rfl⟩
  | sfFixed3 w => exact ⟨11, _, by decide, rfl, rfl, rfl⟩
  | sfFixed4 w => exact ⟨12, _, by decide, rfl, rfl, rfl⟩
  | sfLpc o w =>
    have ho := o.isLt
    refine ⟨32 + o.toNat, .sfLpc o false, by omega, rfl, ?_, rfl⟩
    simp only [formOfType, Nat.add_sub_cancel_left, BitVec.ofNat_toNat, BitVec.setWidth_eq]
    rw [if_neg (by omega), if_neg (by omega), if_neg (by omega), if_neg (by omega), if_neg (by omega),
      if_neg (by omega), if_neg (by omega), if_pos (by omega)]
  | resRice4 _ | resRice5 _ | partEsc4 _ | partRice4 _ | partEsc5 _ | partRice5 _ => cases h
  | cmdNop | cmdParseSubframe | cmdReconstruct | cmdVerifyCrc16 | cmdSoftReset => cases h

/-- A subframe header without its WFLAG lacks that flag, of a form of the header's order. -/
theorem decode_header_take {i : Instr} (h : i.slot = .header) :
    ∃ form, decode .header ((encode i).take 7) = .error (.flagMissing form)
      ∧ predictorOrder form = predictorOrder i := by
  obtain ⟨t, form, ht, henc, hform, horder⟩ := encode_header h
  have hbits : (encode i).take 7 = natBits 1 0 ++ (natBits 6 t ++ []) := by
    rw [henc, headerBits, List.take_left' (by simp), List.append_nil]
  have hflag : readBits 1 [] = none := rfl
  refine ⟨form, ?_, horder⟩
  simp only [hbits, decode, decodeHeader, readBits_natBits, Nat.zero_mod, ne_eq, not_true_eq_false, if_false,
    Nat.mod_eq_of_lt ht, hform, hflag]

/-- A subframe header without all of PAD and TYPE. -/
theorem decode_header_truncated {bits : List Bool}
    (h : bits = [] ∨ ∃ part, bits = false :: part ∧ part.length < 6) : decode .header bits = .error .truncated := by
  rcases h with rfl | ⟨part, rfl, hpart⟩
  · rfl
  · have hpad : readBits 1 (false :: part) = some (0, part) := rfl
    simp [decode, decodeHeader, hpad, readBits_short 6 part hpart]

/-- A residual header without all of METHOD and PORDER. -/
theorem decode_residual_truncated {bits : List Bool}
    (h : bits.length < 2 ∨ ∃ m part, bits = false :: m :: part ∧ part.length < 4) :
    decode .residual bits = .error .truncated := by
  rcases h with hbits | ⟨m, part, rfl, hpart⟩
  · simp only [decode, decodeResidual, readBits_short 2 bits hbits]
  · have hmethod : readBits 2 (false :: m :: part) = some (m.toNat, part) := by cases m <;> rfl
    have hlegal : ¬ 2 ≤ m.toNat := by cases m <;> decide
    simp only [decode, decodeResidual, hmethod, if_neg hlegal, readBits_short 4 part hpart]

theorem decode_partition4_truncated {bits : List Bool}
    (h : bits.length < 4 ∨ ∃ part, bits = List.replicate 4 true ++ part ∧ part.length < 5) :
    decode .partition4 bits = .error .truncated := by
  rcases h with hbits | ⟨part, rfl, hpart⟩
  · simp only [decode, decodePartition4, readBits_short 4 bits hbits]
  · have hparam : readBits 4 (List.replicate 4 true ++ part) = some (15, part) := rfl
    simp only [decode, decodePartition4, hparam, if_true, readBits_short 5 part hpart]

theorem decode_partition5_truncated {bits : List Bool}
    (h : bits.length < 5 ∨ ∃ part, bits = List.replicate 5 true ++ part ∧ part.length < 5) :
    decode .partition5 bits = .error .truncated := by
  rcases h with hbits | ⟨part, rfl, hpart⟩
  · simp only [decode, decodePartition5, readBits_short 5 bits hbits]
  · have hparam : readBits 5 (List.replicate 5 true ++ part) = some (31, part) := rfl
    simp only [decode, decodePartition5, hparam, if_true, readBits_short 5 part hpart]

/-- A partition header without all of its Rice parameter, or an escape's without all of its width. -/
theorem decode_partition_truncated {f : Subframe} {r : Residual} {bits : List Bool}
    (h : bits.length < 4 + r.method.toNat
      ∨ ∃ part, bits = List.replicate (4 + r.method.toNat) true ++ part ∧ part.length < 5) :
    decode (slotAt (.partition f r)) bits = .error .truncated := by
  rcases BitVec.eq_zero_or_eq_one r.method with hm | hm <;> rw [hm] at h <;> rw [slotAt, hm]
  · exact decode_partition4_truncated h
  · exact decode_partition5_truncated h

/-! ## The engine's move -/

/-- An element turn of a running PARSE_SUBFRAME past its entry fetches the element at the cursor. -/
theorem step_fetchElement {s : State} {p : ParseRun} {ts : List Turn} (hr : Running .parse s)
    (hp : s.parse = some p) (ht : s.turns = .element :: ts) : step s = fetchElement p { s with turns := ts } := by
  obtain ⟨hb, hpend⟩ := hr
  rw [step_element hb ht]
  simp only [elementMove, hpend, parsePiece, hp]

theorem fetchElement_truncated {s : State} {p : ParseRun}
    (h : decode (slotAt p.phase) (streamBits s) = .error .truncated) : fetchElement p s = streamExhausted s := by
  simp only [fetchElement, h, elementRejected]

/-- A subframe header that ends before WFLAG: its order is judged first (spec/40_subframe.md R152). -/
theorem fetchElement_flagMissing {s : State} {p : ParseRun} {i : Instr} (hphase : p.phase = .header)
    (hi : i.slot = .header) (hbits : streamBits s = (encode i).take 7) :
    fetchElement p s
      = if s.blocksize.toNat < predictorOrder i then .next (parseFault .invalidOrder s) else streamExhausted s := by
  obtain ⟨form, hform, horder⟩ := decode_header_take hi
  simp only [fetchElement, hphase, slotAt, hbits, hform, elementRejected, horder]

/-- An element whose header the bits at hand do not reach ends as their end says. -/
theorem fetchElement_cutOff {s : State} {p : ParseRun} (h : CutOffHeader s p.phase (streamBits s)) :
    fetchElement p s = streamExhausted s := by
  obtain ⟨b, o, phase⟩ := p
  cases phase with
  | header =>
    rcases h with h | h | ⟨i, hi, ho, hbits⟩
    · exact fetchElement_truncated (decode_header_truncated (.inl h))
    · exact fetchElement_truncated (decode_header_truncated (.inr h))
    · rw [fetchElement_flagMissing rfl hi hbits, if_neg (Nat.not_lt.2 ho)]
  | residual f => exact fetchElement_truncated (decode_residual_truncated h)
  | partition f r => exact fetchElement_truncated (decode_partition_truncated h)

end Sys2Proof.Machine

namespace Sys2Proof.Proofs

open Sys2Proof.Machine

/-- Settles O36: the decoder rejects the header as cut off, and the end of the bits at hand says what follows; a header
without its WFLAG is judged by its order before. -/
theorem cutOffHeadersFault : Obligations.CutOffHeadersFault := by
  intro s p ts hr hp ht
  rw [step_fetchElement hr hp ht]
  refine ⟨fun hcut => ?_, fun i hphase hi ho hbits => ?_⟩
  · rw [fetchElement_cutOff (s := { s with turns := ts }) hcut]
    exact streamExhausted_ends { s with turns := ts }
  · rw [fetchElement_flagMissing (s := { s with turns := ts }) hphase hi hbits, if_pos ho]

end Sys2Proof.Proofs
end

section
/-! PROOF. What no instruction writes, and what no stream element does (O44). -/

namespace Sys2Proof.Machine

/-- IBUF, the registers only the host writes, and the model's fields of the host. -/
abbrev hostPart (s : State) :=
  (s.ibuf, s.ibufLen, s.blocksize, s.samplesize, s.crcStart, s.crcEnd, s.host, s.turns, s.readData)

/-- What only RECONSTRUCT, VERIFY_CRC16 and a refused action write. -/
abbrev outputPart (s : State) := (s.obuf, s.crcCalc, s.crcExpect, s.refused)

/-- A stream element keeps both, however it ends. -/
theorem elementEnd_keeps {s t : State} (h : ElementEnd s (.next t)) :
    hostPart t = hostPart s ∧ outputPart t = outputPart s := by
  cases h with
  | done f c vs n hn hat hf hk => split_ifs <;> exact ⟨rfl, rfl⟩
  | head f warm coef n hn hat hf hk => exact ⟨rfl, rfl⟩
  | layout p f method porder hp hph ha ho => exact ⟨rfl, rfl⟩
  | partition p f r vs n hn hp hph hl hv => rw [closePartition]; split_ifs <;> exact ⟨rfl, rfl⟩
  | error e he => exact ⟨rfl, rfl⟩

theorem parsePiece_hostPart {s t : State} (h : parsePiece s = .next t) : hostPart t = hostPart s := by
  rcases parsePiece_next h with ⟨-, -, rfl⟩ | ⟨e, -, rfl⟩ | ⟨n, he⟩
  · rfl
  · rfl
  · exact (elementEnd_keeps he).1

theorem runParse_hostPart {s t : State} (hb : s.blockState = .busy) (h : runParse s = .next t) :
    hostPart t = hostPart s :=
  (runPieces_keeps (P := fun u => hostPart u = hostPart s)
    (fun _ _ _ hu hpc => (parsePiece_hostPart hpc).trans hu) hb rfl h).1

theorem runReconstruct_hostPart {s t : State} (h : runReconstruct s = .next t) : hostPart t = hostPart s := by
  rcases runReconstruct_cases s with ⟨-, e⟩ | ⟨-, -, e⟩ | ⟨k, -, -, -, e⟩ | ⟨-, e⟩ | ⟨k, out, -, -, -, -, -, e⟩ <;>
    rw [e] at h <;> cases h <;> rfl

theorem runVerify_hostPart {s t : State} (h : runVerify s = .next t) : hostPart t = hostPart s := by
  rcases runVerify_cases s with ⟨e, -, hv⟩ | hv | ⟨c, x, hv⟩ <;> rw [hv] at h <;> cases h <;> rfl

theorem whenNotBusy_hostPart {s effect t : State} (he : hostPart effect = hostPart s)
    (h : whenNotBusy s effect = .next t) : hostPart t = hostPart s := by
  rw [whenNotBusy] at h
  split_ifs at h <;> cases h
  · rfl
  · exact he

theorem acceptCommand_hostPart (op : Op) (s : State) : hostPart (acceptCommand op s) = hostPart s := by
  rw [acceptCommand]; split_ifs <;> rfl

/-- No instruction writes the host's part of the state. -/
theorem exec_hostPart {i : Instr} {s t : State} (h : exec i s = .next t) : hostPart t = hostPart s := by
  by_cases hi : i.slot = .command
  · cases i with
    | cmdNop => exact whenNotBusy_hostPart rfl h
    | cmdSoftReset => exact whenNotBusy_hostPart (effect := softReset s) rfl h
    | cmdParseSubframe =>
      rw [exec, execCmdParseSubframe] at h
      split_ifs at h with hrun
      · exact runParse_hostPart hrun.1 h
      · exact whenNotBusy_hostPart (acceptCommand_hostPart _ s) h
    | cmdReconstruct =>
      rw [exec, execCmdReconstruct] at h
      split_ifs at h
      · exact runReconstruct_hostPart h
      · exact whenNotBusy_hostPart (acceptCommand_hostPart _ s) h
    | cmdVerifyCrc16 =>
      rw [exec, execCmdVerifyCrc16] at h
      split_ifs at h
      · exact runVerify_hostPart h
      · exact whenNotBusy_hostPart (acceptCommand_hostPart _ s) h
    | _ => cases hi
  · exact (elementEnd_keeps (h ▸ exec_elementEnd hi s)).1

end Sys2Proof.Machine

namespace Sys2Proof.Proofs

open Sys2Proof.Machine

/-- Settles O44: by every way an instruction of the stream can end, and every way a command can. -/
theorem instructionsKeepTheHostsState : Obligations.InstructionsKeepTheHostsState := by
  intro i s t h
  have hhost := exec_hostPart h
  simp only [hostPart, Prod.mk.injEq] at hhost
  refine ⟨hhost, fun hi => ?_⟩
  have hout := (elementEnd_keeps (h ▸ exec_elementEnd hi s)).2
  simpa only [outputPart, Prod.mk.injEq] using hout

end Sys2Proof.Proofs
end

section
/-! PROOF. The decoder and the encoder, each the other's inverse slot by slot (O1, O2), and words of the spec's tables
(O3) and Rice codewords (O9). -/

namespace Sys2Proof.Machine

open Sys2Proof.Claims

/-! ## The TYPE map and the OP map, inverted -/

theorem formOfType_lpc (o : BitVec 5) (w : Bool) : formOfType (32 + o.toNat) w = some (.sfLpc o w) := by
  have ho := o.isLt
  simp only [formOfType, Nat.add_sub_cancel_left, BitVec.ofNat_toNat, BitVec.setWidth_eq]
  rw [if_neg (by omega), if_neg (by omega), if_neg (by omega), if_neg (by omega), if_neg (by omega),
    if_neg (by omega), if_neg (by omega), if_pos (by omega)]

/-- The TYPE map knows the TYPE of every header form (spec/30_encoding.md R111, R112). -/
theorem formOfType_of_header {i : Instr} (h : i.slot = .header) :
    ∃ t, t < 2 ^ 6 ∧ encode i = headerBits t (wflagOf i) ∧ formOfType t (wflagOf i) = some i := by
  cases i with
  | sfConstant w => exact ⟨0, by decide, rfl, rfl⟩
  | sfVerbatim w => exact ⟨1, by decide, rfl, rfl⟩
  | sfFixed0 w => exact ⟨8, by decide, rfl, rfl⟩
  | sfFixed1 w => exact ⟨9, by decide, rfl, rfl⟩
  | sfFixed2 w => exact ⟨10, by decide, rfl, rfl⟩
  | sfFixed3 w => exact ⟨11, by decide, rfl, rfl⟩
  | sfFixed4 w => exact ⟨12, by decide, rfl, rfl⟩
  | sfLpc o w => exact ⟨32 + o.toNat, by have := o.isLt; omega, rfl, formOfType_lpc o w⟩
  | resRice4 _ | resRice5 _ | partEsc4 _ | partRice4 _ | partEsc5 _ | partRice5 _ => cases h
  | cmdNop | cmdParseSubframe | cmdReconstruct | cmdVerifyCrc16 | cmdSoftReset => cases h

/-- A form the TYPE map answers is encoded with that TYPE and that flag. -/
theorem encode_of_formOfType {t : Nat} {w : Bool} {i : Instr} (h : formOfType t w = some i) :
    i.wellFormed = true ∧ encode i = headerBits t w := by
  simp only [formOfType] at h
  split_ifs at h <;> cases h
  iterate 7 · subst t; exact ⟨rfl, rfl⟩
  · have ho : 32 + (t - 32) % 2 ^ 5 = t := by omega
    exact ⟨rfl, by rw [encode, BitVec.toNat_ofNat, ho]⟩

/-- Whether the TYPE map knows a TYPE does not turn on WFLAG. -/
theorem formOfType_false {t : Nat} {w : Bool} {i : Instr} (h : formOfType t w = some i) :
    ∃ form, formOfType t false = some form := by
  simp only [formOfType] at h ⊢
  split_ifs at h ⊢ <;> exact ⟨_, rfl⟩

/-- The OP map knows the word of every command (spec/30_encoding.md R131). -/
theorem commandOfWord_of_command {i : Instr} (h : i.slot = .command) :
    ∃ v, v < 2 ^ 32 ∧ encode i = natBits 32 v ∧ commandOfWord v = some i := by
  cases i with
  | cmdNop => exact ⟨0, by decide, rfl, rfl⟩
  | cmdParseSubframe => exact ⟨1, by decide, rfl, rfl⟩
  | cmdReconstruct => exact ⟨2, by decide, rfl, rfl⟩
  | cmdVerifyCrc16 => exact ⟨3, by decide, rfl, rfl⟩
  | cmdSoftReset => exact ⟨15, by decide, rfl, rfl⟩
  | sfConstant _ | sfVerbatim _ | sfFixed0 _ | sfFixed1 _ | sfFixed2 _ | sfFixed3 _ | sfFixed4 _ | sfLpc _ _ => cases h
  | resRice4 _ | resRice5 _ | partEsc4 _ | partRice4 _ | partEsc5 _ | partRice5 _ => cases h

/-- A command the OP map answers is encoded with that word. -/
theorem encode_of_commandOfWord {v : Nat} {i : Instr} (h : commandOfWord v = some i) :
    i.wellFormed = true ∧ encode i = natBits 32 v := by
  simp only [commandOfWord] at h
  split_ifs at h <;> cases h <;> subst v <;> exact ⟨rfl, rfl⟩

/-! ## Fields -/

/-- A field's bits are those of the value cut to its width. -/
theorem natBits_ofNat (n v : Nat) : natBits n (BitVec.ofNat n v).toNat = natBits n v := by
  rw [BitVec.toNat_ofNat, ← natBits_add_mul n n (v % 2 ^ n) (v / 2 ^ n) le_rfl, Nat.div_add_mod']

/-- A value that fits its field is read back. -/
theorem readBits_natBits_of_lt {n v : Nat} (h : v < 2 ^ n) (rest : List Bool) :
    readBits n (natBits n v ++ rest) = some (v, rest) := by
  rw [readBits_natBits, Nat.mod_eq_of_lt h]

theorem readBits_toNat {n : Nat} (v : BitVec n) (rest : List Bool) :
    readBits n (natBits n v.toNat ++ rest) = some (v.toNat, rest) := readBits_natBits_of_lt v.isLt rest

/-! ## Encodings decode -/

theorem decode_headerBits {t : Nat} {w : Bool} {i : Instr} (ht : t < 2 ^ 6) (h : formOfType t w = some i)
    (rest : List Bool) : decode .header (headerBits t w ++ rest) = .ok (i, rest) := by
  obtain ⟨form, hform⟩ := formOfType_false h
  have hflag : readBits 1 (natBits 1 w.toNat ++ rest) = some (w.toNat, rest) := readBits_natBits_of_lt w.toNat_lt _
  simp [decode, decodeHeader, headerBits, readBits_natBits 1 0, readBits_natBits_of_lt ht, hform, hflag, h]

theorem decode_commandBits {v : Nat} {i : Instr} (hv : v < 2 ^ 32) (h : commandOfWord v = some i)
    (rest : List Bool) : decode .command (natBits 32 v ++ rest) = .ok (i, rest) := by
  simp only [decode, decodeCommand, readBits_natBits_of_lt hv, h]

theorem decode_encode_residual {i : Instr} (h : i.slot = .residual) (rest : List Bool) :
    decode .residual (encode i ++ rest) = .ok (i, rest) := by
  cases i with
  | resRice4 p => simp [decode, decodeResidual, encode, readBits_natBits 2 0, readBits_toNat]
  | resRice5 p => simp [decode, decodeResidual, encode, readBits_natBits 2 1, readBits_toNat]
  | _ => cases h

theorem decode_encode_partition4 {i : Instr} (h : i.slot = .partition4) (hw : i.wellFormed = true)
    (rest : List Bool) : decode .partition4 (encode i ++ rest) = .ok (i, rest) := by
  cases i with
  | partEsc4 n => simp [decode, decodePartition4, encode, readBits_natBits 4 15, readBits_toNat]
  | partRice4 k =>
    have hk : k.toNat ≠ 15 := fun e => of_decide_eq_true hw (BitVec.eq_of_toNat_eq e)
    simp [decode, decodePartition4, encode, readBits_toNat, hk]
  | _ => cases h

theorem decode_encode_partition5 {i : Instr} (h : i.slot = .partition5) (hw : i.wellFormed = true)
    (rest : List Bool) : decode .partition5 (encode i ++ rest) = .ok (i, rest) := by
  cases i with
  | partEsc5 n => simp [decode, decodePartition5, encode, readBits_natBits 5 31, readBits_toNat]
  | partRice5 k =>
    have hk : k.toNat ≠ 31 := fun e => of_decide_eq_true hw (BitVec.eq_of_toNat_eq e)
    simp [decode, decodePartition5, encode, readBits_toNat, hk]
  | _ => cases h

/-- A well-formed instruction's encoding decodes in its slot, whatever follows. -/
theorem decode_encode {i : Instr} (hw : i.wellFormed = true) (rest : List Bool) :
    decode i.slot (encode i ++ rest) = .ok (i, rest) := by
  cases hs : i.slot with
  | command =>
    obtain ⟨v, hv, henc, hi⟩ := commandOfWord_of_command hs
    rw [henc, decode_commandBits hv hi]
  | header =>
    obtain ⟨t, ht, henc, hi⟩ := formOfType_of_header hs
    rw [henc, decode_headerBits ht hi]
  | residual => exact decode_encode_residual hs rest
  | partition4 => exact decode_encode_partition4 hs hw rest
  | partition5 => exact decode_encode_partition5 hs hw rest

/-! ## What decodes is an encoding -/

section accepted
variable {bits rest : List Bool} {i : Instr}

theorem encode_of_decode_command (h : decode .command bits = .ok (i, rest)) :
    i.wellFormed = true ∧ bits = encode i ++ rest := by
  rcases readBits_cases 32 bits with ⟨-, e⟩ | ⟨v, rest₁, -, rfl, e⟩ <;> simp only [decode, decodeCommand, e] at h
  · cases h
  cases hi : commandOfWord v with
  | none => rw [hi] at h; cases h
  | some j =>
    rw [hi] at h
    cases h
    obtain ⟨hw, henc⟩ := encode_of_commandOfWord hi
    exact ⟨hw, by rw [henc]⟩

/-- PAD is 0, TYPE is one the TYPE map knows, and WFLAG is a bit. -/
theorem encode_of_decode_header (h : decode .header bits = .ok (i, rest)) :
    i.wellFormed = true ∧ bits = encode i ++ rest := by
  rcases readBits_cases 1 bits with ⟨-, e⟩ | ⟨pad, rest₁, -, rfl, e⟩ <;> simp only [decode, decodeHeader, e] at h
  · cases h
  by_cases hpad : pad = 0
  swap
  · rw [if_pos hpad] at h; cases h
  rw [if_neg (not_not.2 hpad)] at h
  rcases readBits_cases 6 rest₁ with ⟨-, e⟩ | ⟨t, rest₂, -, rfl, e⟩ <;> simp only [e] at h
  · cases h
  cases hform : formOfType t false with
  | none => rw [hform] at h; cases h
  | some form =>
    rcases readBits_cases 1 rest₂ with ⟨-, e⟩ | ⟨w, rest₃, hw, rfl, e⟩ <;> simp only [hform, e] at h
    · cases h
    cases hi : formOfType t (w = 1) with
    | none => rw [hi] at h; cases h
    | some j =>
      rw [hi] at h
      cases h
      obtain ⟨hwf, henc⟩ := encode_of_formOfType hi
      have hflag : (decide (w = 1)).toNat = w := by
        obtain rfl | rfl : w = 0 ∨ w = 1 := by omega
        all_goals rfl
      exact ⟨hwf, by rw [henc, headerBits, hflag, hpad]; simp only [List.append_assoc]⟩

/-- METHOD is 0 or 1. -/
theorem encode_of_decode_residual (h : decode .residual bits = .ok (i, rest)) :
    i.wellFormed = true ∧ bits = encode i ++ rest := by
  rcases readBits_cases 2 bits with ⟨-, e⟩ | ⟨m, rest₁, -, rfl, e⟩ <;> simp only [decode, decodeResidual, e] at h
  · cases h
  by_cases hm : 2 ≤ m
  · rw [if_pos hm] at h; cases h
  rw [if_neg hm] at h
  rcases readBits_cases 4 rest₁ with ⟨-, e⟩ | ⟨p, rest₂, hp, rfl, e⟩ <;> simp only [e] at h <;> cases h
  obtain rfl | rfl : m = 0 ∨ m = 1 := by omega
  all_goals exact ⟨rfl, by simp only [encode, natBits_ofNat, List.append_assoc, if_true, if_neg one_ne_zero]⟩

/-- The parameter is 15 and a width follows, or it is the Rice form's. -/
theorem encode_of_decode_partition4 (h : decode .partition4 bits = .ok (i, rest)) :
    i.wellFormed = true ∧ bits = encode i ++ rest := by
  rcases readBits_cases 4 bits with ⟨-, e⟩ | ⟨k, rest₁, hk, rfl, e⟩ <;> simp only [decode, decodePartition4, e] at h
  · cases h
  by_cases hesc : k = 15
  · rw [if_pos hesc] at h
    rcases readBits_cases 5 rest₁ with ⟨-, e⟩ | ⟨n, rest₂, hn, rfl, e⟩ <;> simp only [e] at h <;> cases h
    exact ⟨rfl, by simp only [encode, natBits_ofNat, List.append_assoc, hesc]⟩
  · rw [if_neg hesc] at h
    cases h
    have hne : BitVec.ofNat 4 k ≠ 15#4 := by bv_omega
    exact ⟨decide_eq_true hne, by simp only [encode, natBits_ofNat]⟩

/-- The parameter is 31 and a width follows, or it is the Rice form's. -/
theorem encode_of_decode_partition5 (h : decode .partition5 bits = .ok (i, rest)) :
    i.wellFormed = true ∧ bits = encode i ++ rest := by
  rcases readBits_cases 5 bits with ⟨-, e⟩ | ⟨k, rest₁, hk, rfl, e⟩ <;> simp only [decode, decodePartition5, e] at h
  · cases h
  by_cases hesc : k = 31
  · rw [if_pos hesc] at h
    rcases readBits_cases 5 rest₁ with ⟨-, e⟩ | ⟨n, rest₂, hn, rfl, e⟩ <;> simp only [e] at h <;> cases h
    exact ⟨rfl, by simp only [encode, natBits_ofNat, List.append_assoc, hesc]⟩
  · rw [if_neg hesc] at h
    cases h
    have hne : BitVec.ofNat 5 k ≠ 31#5 := by bv_omega
    exact ⟨decide_eq_true hne, by simp only [encode, natBits_ofNat]⟩

/-- Bits that decode in a slot are the encoding of a well-formed instruction and the rest. -/
theorem encode_of_decode {slot : Slot} (h : decode slot bits = .ok (i, rest)) :
    i.wellFormed = true ∧ bits = encode i ++ rest := by
  cases slot with
  | command => exact encode_of_decode_command h
  | header => exact encode_of_decode_header h
  | residual => exact encode_of_decode_residual h
  | partition4 => exact encode_of_decode_partition4 h
  | partition5 => exact encode_of_decode_partition5 h

end accepted

end Sys2Proof.Machine

namespace Sys2Proof.Proofs

open Sys2Proof.Machine

/-- Settles O1: by the instruction's slot; headers and commands through the TYPE map and the OP map. -/
theorem decodeOfEncodeIsTheInstruction : Obligations.DecodeOfEncodeIsTheInstruction :=
  fun _ rest hw => decode_encode hw rest

/-- Settles O2: field by field in the order the slot's decoder reads them. -/
theorem decodeAcceptsOnlyEncodings : Obligations.DecodeAcceptsOnlyEncodings := by
  intro slot bits rest i h
  obtain ⟨hw, hbits⟩ := encode_of_decode h
  exact ⟨hw, decode_slot h, hbits⟩

/-- Settles O3: the decoder is run on each word. -/
theorem specWordsDecode : Obligations.SpecWordsDecode :=
  ⟨rfl, rfl, rfl, rfl, rfl, rfl, rfl, rfl, rfl⟩

/-- Settles O9: the folded residual has 32 bits, so the codeword does not overflow, and unfolding it undoes the fold. -/
theorem riceCodewordRoundTrip : Obligations.RiceCodewordRoundTrip :=
  fun k _ rest h => riceField_riceBits k h rest

end Sys2Proof.Proofs
end

section
/-! PROOF. Reserved codes of the stream (O4). -/

namespace Sys2Proof.Machine

open Sys2Proof.Claims

/-! ## The decoder on a reserved code -/

/-- PAD = 1 (spec/30_encoding.md R113). -/
theorem decode_header_padded (rest : List Bool) : decode .header (true :: rest) = .error .subframePadding := rfl

/-- The TYPEs between CONSTANT or VERBATIM and FIXED, and between FIXED and LPC (spec/30_encoding.md R113). -/
theorem formOfType_reserved {t : Nat} (ht : 2 ≤ t ∧ t ≤ 7 ∨ 13 ≤ t ∧ t ≤ 31) (w : Bool) : formOfType t w = none := by
  rw [formOfType, if_neg (by omega), if_neg (by omega), if_neg (by omega), if_neg (by omega), if_neg (by omega),
    if_neg (by omega), if_neg (by omega), if_neg (by omega)]

theorem decode_header_reserved {t : Nat} (ht : 2 ≤ t ∧ t ≤ 7 ∨ 13 ≤ t ∧ t ≤ 31) (rest : List Bool) :
    decode .header (false :: natBits 6 t ++ rest) = .error .invalidCode := by
  have hpad : readBits 1 (false :: (natBits 6 t ++ rest)) = some (0, natBits 6 t ++ rest) := rfl
  have htype : readBits 6 (natBits 6 t ++ rest) = some (t, rest) := readBits_natBits_of_lt (by omega) rest
  simp [decode, decodeHeader, hpad, htype, formOfType_reserved ht]

/-- METHOD 2 or 3 (spec/41_residual_rice.md R183). -/
theorem decode_residual_reserved (b : Bool) (rest : List Bool) :
    decode .residual (true :: b :: rest) = .error .invalidCode := by cases b <;> rfl

/-! ## The engine's move -/

/-- An element turn at bits that are no element of the slot ends as their rejection says. -/
theorem step_rejected {s : State} {p : ParseRun} {ts : List Turn} {e : DecodeError} (hr : Running .parse s)
    (hp : s.parse = some p) (ht : s.turns = .element :: ts)
    (h : decode (slotAt p.phase) (streamBits s) = .error e) : step s = elementRejected e { s with turns := ts } := by
  have hbits : streamBits { s with turns := ts } = streamBits s := rfl
  rw [step_fetchElement hr hp ht]
  simp only [fetchElement, hbits, h]

end Sys2Proof.Machine

namespace Sys2Proof.Proofs

open Sys2Proof.Machine

/-- Settles O4: the decoder rejects each reserved code before it reads on, and the element's rejection is the fault. -/
theorem reservedStreamCodesFault : Obligations.ReservedStreamCodesFault := by
  intro s p ts rest hr hp ht
  refine ⟨fun hphase hbits => ?_, fun t htype hphase hbits => ?_, fun f b hphase hbits => ?_⟩
  · have hpad : decode (slotAt p.phase) (streamBits s) = .error .subframePadding := by
      rw [hphase, hbits]; exact decode_header_padded rest
    exact step_rejected hr hp ht hpad
  · have hcode : decode (slotAt p.phase) (streamBits s) = .error .invalidCode := by
      rw [hphase, hbits]; exact decode_header_reserved htype rest
    exact step_rejected hr hp ht hcode
  · have hcode : decode (slotAt p.phase) (streamBits s) = .error .invalidCode := by
      rw [hphase, hbits]; exact decode_residual_reserved b rest
    exact step_rejected hr hp ht hcode

end Sys2Proof.Proofs
end

section
/-! PROOF. The subframe forms of PARSE_SUBFRAME: its entry (O31), the order and the width (O32), SF_CONSTANT (O33),
SF_VERBATIM (O34), the heads of FIXED and LPC (O37 to O39). -/

namespace Sys2Proof.Machine

open Sys2Proof.Claims

/-! ## The words of the statements, as the model's operations -/

/-- SF_TYPE's two fields (spec/10_state.md R45). -/
theorem ofBool_append_typ (w : Bool) (typ : BitVec 6) :
    BitVec.ofBool w ++ typ = BitVec.ofNat 7 (64 * w.toNat + typ.toNat) := by
  have ht := typ.isLt
  have hw := w.toNat_le
  apply BitVec.eq_of_toNat_eq
  rw [BitVec.toNat_append, ← Nat.shiftLeft_add_eq_or_of_lt ht, BitVec.toNat_ofBool, Nat.shiftLeft_eq,
    BitVec.toNat_ofNat]
  omega

theorem commit_eq_committed (f : Subframe) (method porder : Nat) (c : Int) (s : State) :
    commit f method porder c s = committed f.typ.toNat f method porder c s := by
  simp only [commit, committed, finish, ofBool_append_typ]
  rfl

theorem commit_headValues {typ : Nat} (ht : typ < 64) (s : State) (wflag : Bool) (z : Nat) (kind : Kind)
    (order method porder : Nat) (c : Int) (t : State) :
    commit (headValues s typ wflag z kind order) method porder c t
      = committed typ (headValues s typ wflag z kind order) method porder c t := by
  have htyp : (headValues s typ wflag z kind order).typ.toNat = typ := Nat.mod_eq_of_lt ht
  rw [commit_eq_committed, htyp]

/-- A register file of values of its width holds them (spec/10_state.md R57, R58). -/
theorem fileHolds_fileOf {w : Nat} (hw : w ≠ 0) {vs : List Int} (h : ∀ v ∈ vs, InSigned w v) :
    FileHolds (fileOf w vs) vs := by
  intro i
  rw [getElem_fileOf]
  rcases Nat.lt_or_ge i.val vs.length with hi | hi
  · rw [List.getD_eq_getElem _ _ hi, toInt_ofInt_of_inSigned hw (h _ (List.getElem_mem hi))]
  · rw [List.getD_eq_default _ _ hi]; simp

theorem fileHolds_zero {w : Nat} (hw : w ≠ 0) : FileHolds (fileOf w []) [] := fileHolds_fileOf hw (by simp)

/-- RESBUF elements stored from an index on are read there, and the rest of RESBUF is kept (spec/10_state.md R59). -/
theorem storedRun_writeRun (m : Memory Long) (i : Nat) {vs : List Int} (h : ∀ v ∈ vs, InSigned 64 v) :
    StoredRun m (m.writeRun i (vs.map (BitVec.ofInt 64))) i vs := by
  refine ⟨fun j hj => ⟨BitVec.ofInt 64 vs[j], ?_, ?_⟩, fun a ha => ?_⟩
  · rw [read_writeRun_inside m i _ j (by simpa using hj), List.getElem_map]
  · exact toInt_ofInt_of_inSigned (by decide) (h _ (List.getElem_mem hj))
  · exact read_writeRun_outside m i _ a (by simpa using ha)

/-! ## Whole fields of an element -/

theorem fieldValue_of_inSigned {n : Nat} (hn : n ≠ 0) {v : Int} (h : InSigned n v) : FieldValue n v := by
  rwa [FieldValue, if_neg hn]

theorem length_flatMap_signedBits (n : Nat) (vs : List Int) : (vs.flatMap (signedBits n)).length = vs.length * n := by
  simp [List.length_flatMap]

/-- Signed fields of one width, each read back. -/
theorem readMany_signedBits {w : Nat} (hw : w ≠ 0) {vs : List Int} {n : Nat} (hn : vs.length = n)
    (h : ∀ v ∈ vs, InSigned w v) (rest : List Bool) :
    readMany (signedField w) n (vs.flatMap (signedBits w) ++ rest) = .ok (vs, rest) :=
  hn ▸ readMany_flatMap _ _ vs (fun v hv => signedField_signedBits (fieldValue_of_inSigned hw (h v hv))) rest

/-- An element whose fields are the first bits at hand runs its effect past them. -/
theorem runElementWith_whole {α : Type} {s : State} {read : List Bool → Reading α} {bits rest : List Bool} {v : α}
    (hbits : streamBits s = bits ++ rest) (hread : read (bits ++ rest) = .ok (v, rest))
    (effect : α → State → State) : runElementWith s read effect = .next (effect v (advance s bits.length)) := by
  rw [runElementWith_ok (hbits ▸ hread), hbits, List.length_append, Nat.add_sub_cancel]

/-! ## The entry of PARSE_SUBFRAME -/

theorem parseConfigLegal_iff (s : State) : parseConfigLegal s = true ↔ EntryLegal s := by
  simp only [parseConfigLegal, EntryLegal, SizesLegal, Bool.and_eq_true, decide_eq_true_eq, and_assoc]
  rfl

theorem parsePiece_entry {s : State} (hp : s.parse = none) (h : EntryLegal s) :
    parsePiece s = .next (startParse s) := by
  rw [parsePiece, hp]
  exact if_pos ((parseConfigLegal_iff s).2 h)

theorem parsePiece_entry_illegal {s : State} (hp : s.parse = none) (h : ¬ EntryLegal s) :
    parsePiece s = .next (parseFault .invalidConfig s) := by
  rw [parsePiece, hp]
  exact if_neg (mt (parseConfigLegal_iff s).1 h)

/-- An element turn of a running PARSE_SUBFRAME is one piece of it. -/
theorem step_parsePiece {s : State} {ts : List Turn} (hr : Running .parse s) (ht : s.turns = .element :: ts) :
    step s = parsePiece { s with turns := ts } := by
  obtain ⟨hb, hpend⟩ := hr
  rw [step_element hb ht]
  simp only [elementMove, hpend]

/-! ## The head every form shares -/

theorem atHeader_of_parse {s : State} {p : ParseRun} (hp : s.parse = some p) (hphase : p.phase = .header) :
    atHeader s = true := by
  obtain ⟨b, o, phase⟩ := p
  subst hphase
  rw [atHeader, hp]

theorem atHeader_of_claim {s : State} {p : ParseRun} (h : AtHeader p s) : atHeader s = true :=
  atHeader_of_parse h.1 h.2.1

theorem readHead_orderAboveBlock {s : State} {order : Nat} (ho : s.blocksize.toNat < order) (wflag : Bool)
    (bits : List Bool) : readHead s order wflag bits = .error (.raise .invalidOrder) := if_pos ho

theorem readHead_noWidth {s : State} {order : Nat} {wflag : Bool} {z : Nat} (ho : order ≤ s.blocksize.toNat)
    (hw : s.samplesize.toNat ≤ wastedOf wflag z) (rest : List Bool) :
    readHead s order wflag (wastedBits wflag z ++ rest) = .error (.raise .invalidWidth) := by
  simp only [readHead, if_neg (Nat.not_lt.2 ho), wastedField_wastedBits, if_pos (Nat.lt_succ_of_le hw)]

section headStops
variable {s : State} {order : Nat} {wflag : Bool} {bits : List Bool} {stop : Stop}

theorem readConstant_headStops (h : readHead s 0 wflag bits = .error stop) :
    readConstant s wflag bits = .error stop := by simp only [readConstant, h]

theorem readVerbatim_headStops (h : readHead s 0 wflag bits = .error stop) :
    readVerbatim s wflag bits = .error stop := by simp only [readVerbatim, h]

theorem readFixed_headStops (h : readHead s order wflag bits = .error stop) :
    readFixed s order wflag bits = .error stop := by simp only [readFixed, h]

theorem readLpc_headStops (h : readHead s order wflag bits = .error stop) :
    readLpc s order wflag bits = .error stop := by simp only [readLpc, h]

end headStops

theorem fixedForm_headRaises {s : State} {order : Nat} {wflag : Bool} {e : ErrorCode} (hat : atHeader s = true)
    (h : readHead s order wflag (streamBits s) = .error (.raise e)) :
    fixedForm order wflag s = .next (parseFault e s) := by
  rw [fixedForm, if_pos hat, runElementWith_raise (readFixed_headStops h)]

/-- A form whose head raises an error raises it. -/
theorem exec_headRaises {s : State} {i : Instr} {e : ErrorCode} (hat : atHeader s = true) (hi : i.slot = .header)
    (h : readHead s (predictorOrder i) (wflagOf i) (streamBits s) = .error (.raise e)) :
    exec i s = .next (parseFault e s) := by
  cases i with
  | sfConstant w =>
    rw [exec, execSfConstant, if_pos hat]
    exact runElementWith_raise (readConstant_headStops h) _
  | sfVerbatim w =>
    rw [exec, execSfVerbatim, if_pos hat]
    exact runElementWith_raise (readVerbatim_headStops h) _
  | sfFixed0 w => exact fixedForm_headRaises hat h
  | sfFixed1 w => exact fixedForm_headRaises hat h
  | sfFixed2 w => exact fixedForm_headRaises hat h
  | sfFixed3 w => exact fixedForm_headRaises hat h
  | sfFixed4 w => exact fixedForm_headRaises hat h
  | sfLpc o w =>
    rw [exec, execSfLpc, if_pos hat]
    exact runElementWith_raise (readLpc_headStops h) _
  | resRice4 _ | resRice5 _ | partEsc4 _ | partRice4 _ | partEsc5 _ | partRice5 _ => cases hi
  | cmdNop | cmdParseSubframe | cmdReconstruct | cmdVerifyCrc16 | cmdSoftReset => cases hi

/-! ## The forms, whole -/

section forms
variable {s : State} {order z : Nat} {wflag : Bool} {vs : List Int} {rest : List Bool}

theorem widthOf_ne_zero (hw : wastedOf wflag z < s.samplesize.toNat) : widthOf s wflag z ≠ 0 :=
  Nat.sub_ne_zero_of_lt hw

/-- A sample of a legal subframe fits an element of WARM or RESBUF. -/
theorem inSigned64_of_width (hs : SizesLegal s) {v : Int} (h : InSigned (widthOf s wflag z) v) : InSigned 64 v := by
  obtain ⟨-, -, hsample⟩ := hs
  exact inSigned_mono h ((Nat.sub_le _ _).trans (hsample.trans (by decide)))

theorem readConstant_whole {c : Int} (hw : wastedOf wflag z < s.samplesize.toNat)
    (hc : InSigned (widthOf s wflag z) c) (rest : List Bool) :
    readConstant s wflag (wastedBits wflag z ++ signedBits (widthOf s wflag z) c ++ rest)
      = .ok ((headValues s 0 wflag z .constant 0, c), rest) := by
  have hfield := signedField_signedBits (fieldValue_of_inSigned (widthOf_ne_zero hw) hc) rest
  simp only [readConstant, List.append_assoc, readHead_wastedBits (Nat.zero_le _) hw, hfield]
  rfl

theorem readVerbatim_whole (hw : wastedOf wflag z < s.samplesize.toNat) (hlen : vs.length = s.blocksize.toNat)
    (hvs : ∀ v ∈ vs, InSigned (widthOf s wflag z) v) (rest : List Bool) :
    readVerbatim s wflag (wastedBits wflag z ++ vs.flatMap (signedBits (widthOf s wflag z)) ++ rest)
      = .ok ((headValues s 1 wflag z .verbatim 0, vs), rest) := by
  have hfields := readMany_signedBits (widthOf_ne_zero hw) hlen hvs rest
  simp only [readVerbatim, List.append_assoc, readHead_wastedBits (Nat.zero_le _) hw, hfields]
  rfl

theorem readFixed_whole (ho : order ≤ s.blocksize.toNat) (hw : wastedOf wflag z < s.samplesize.toNat)
    (hlen : vs.length = order) (hvs : ∀ v ∈ vs, InSigned (widthOf s wflag z) v) (rest : List Bool) :
    readFixed s order wflag (wastedBits wflag z ++ vs.flatMap (signedBits (widthOf s wflag z)) ++ rest)
      = .ok ((headValues s (8 + order) wflag z .fixed order, vs), rest) := by
  have hfields := readMany_signedBits (widthOf_ne_zero hw) hlen hvs rest
  simp only [readFixed, List.append_assoc, readHead_wastedBits ho hw, hfields]
  rfl

/-- A FIXED form with its warm-up samples (spec/40_subframe.md R157 to R161). -/
theorem fixedForm_whole (hat : atHeader s = true) (ho : order ≤ s.blocksize.toNat)
    (hw : wastedOf wflag z < s.samplesize.toNat) (hlen : vs.length = order)
    (hvs : ∀ v ∈ vs, InSigned (widthOf s wflag z) v)
    (hbits : streamBits s = wastedBits wflag z ++ vs.flatMap (signedBits (widthOf s wflag z)) ++ rest) :
    fixedForm order wflag s = .next (moveTo (.residual (headValues s (8 + order) wflag z .fixed order))
      (loadFiles vs [] (advance s (wastedBits wflag z ++ vs.flatMap (signedBits (widthOf s wflag z))).length))) := by
  rw [fixedForm, if_pos hat, runElementWith_whole hbits (readFixed_whole ho hw hlen hvs rest)]

/-- An LPC body to its end (spec/40_subframe.md R162 to R165). -/
theorem readLpc_whole {o : BitVec 5} {q shift : Nat} {cs : List Int} (ho : o.toNat + 1 ≤ s.blocksize.toNat)
    (hw : wastedOf wflag z < s.samplesize.toNat) (hlen : vs.length = o.toNat + 1)
    (hvs : ∀ v ∈ vs, InSigned (widthOf s wflag z) v) (hq : q < 15) (hsh : shift < 16)
    (hclen : cs.length = o.toNat + 1) (hcs : ∀ c ∈ cs, InSigned (q + 1) c) (rest : List Bool) :
    readLpc s (o.toNat + 1) wflag (wastedBits wflag z ++ vs.flatMap (signedBits (widthOf s wflag z)) ++ natBits 4 q
        ++ natBits 5 shift ++ cs.flatMap (signedBits (q + 1)) ++ rest)
      = .ok (⟨lpcValues s o wflag z (q + 1) shift, vs, cs⟩, rest) := by
  have hfields := readMany_signedBits (widthOf_ne_zero hw) hlen hvs
  have hcoefs := readMany_signedBits (Nat.succ_ne_zero q) hclen hcs rest
  have htyp : 31 + (o.toNat + 1) = 32 + o.toNat := by omega
  simp only [readLpc, List.append_assoc, readHead_wastedBits ho hw, hfields, precisionField_natBits hq,
    shiftField_natBits hsh, hcoefs, htyp]
  rfl

/-- A precision field of 15 (spec/40_subframe.md R163). -/
theorem precisionField_reserved (rest : List Bool) :
    precisionField (natBits 4 15 ++ rest) = .error (.raise .invalidCoefficientPrecision) := by
  simp only [precisionField, bitsField_natBits 4 15 rest (by decide), if_true]

/-- A negative shift field (spec/40_subframe.md R164). -/
theorem shiftField_negative {sh : Int} (hlo : -16 ≤ sh) (hneg : sh < 0) (rest : List Bool) :
    shiftField (signedBits 5 sh ++ rest) = .error (.raise .invalidShift) := by
  have hsh : FieldValue 5 sh := fieldValue_of_inSigned (by decide) ⟨hlo, by omega⟩
  simp only [shiftField, signedField_signedBits hsh, if_pos hneg]

/-- An LPC body stops where its precision field does. -/
theorem readLpc_precisionStops {stop : Stop} (ho : order ≤ s.blocksize.toNat)
    (hw : wastedOf wflag z < s.samplesize.toNat) (hlen : vs.length = order)
    (hvs : ∀ v ∈ vs, InSigned (widthOf s wflag z) v) (h : precisionField rest = .error stop) :
    readLpc s order wflag (wastedBits wflag z ++ vs.flatMap (signedBits (widthOf s wflag z)) ++ rest)
      = .error stop := by
  simp only [readLpc, List.append_assoc, readHead_wastedBits ho hw,
    readMany_signedBits (widthOf_ne_zero hw) hlen hvs, h]

/-- An LPC body stops where its shift field does, after a legal precision. -/
theorem readLpc_shiftStops {stop : Stop} {q : Nat} (ho : order ≤ s.blocksize.toNat)
    (hw : wastedOf wflag z < s.samplesize.toNat) (hlen : vs.length = order)
    (hvs : ∀ v ∈ vs, InSigned (widthOf s wflag z) v) (hq : q < 15) (h : shiftField rest = .error stop) :
    readLpc s order wflag (wastedBits wflag z ++ vs.flatMap (signedBits (widthOf s wflag z)) ++ natBits 4 q ++ rest)
      = .error stop := by
  simp only [readLpc, List.append_assoc, readHead_wastedBits ho hw,
    readMany_signedBits (widthOf_ne_zero hw) hlen hvs, precisionField_natBits hq, h]

end forms

theorem exec_fixedHeader {k : Nat} (hk : k ≤ 4) (wflag : Bool) (s : State) :
    exec (fixedHeader k wflag) s = fixedForm k wflag s := by
  match k, hk with
  | 0, _ | 1, _ | 2, _ | 3, _ | 4, _ => rfl

theorem execSfLpc_raises {s : State} {o : BitVec 5} {wflag : Bool} {e : ErrorCode} (hat : atHeader s = true)
    (h : readLpc s (o.toNat + 1) wflag (streamBits s) = .error (.raise e)) :
    exec (.sfLpc o wflag) s = .next (parseFault e s) := by
  rw [exec, execSfLpc, if_pos hat, runElementWith_raise h]

end Sys2Proof.Machine

namespace Sys2Proof.Proofs

open Sys2Proof.Machine

/-- Settles O31: the entry's one predicate is the claim's, and an element turn is one piece of the run. -/
theorem parseEntryChecksTheRegisters : Obligations.ParseEntryChecksTheRegisters := by
  intro s ts hr hp ht
  rw [step_parsePiece hr ht]
  exact ⟨fun h => parsePiece_entry_illegal (s := { s with turns := ts }) hp h,
    fun h => parsePiece_entry (s := { s with turns := ts }) hp h⟩

/-- Settles O32: every form reads the shared head first, which judges the order before the width. -/
theorem subframeFormsCheckOrderAndWidth : Obligations.SubframeFormsCheckOrderAndWidth := by
  intro s p i hat hi
  refine ⟨fun ho => ?_, fun ho z rest hbits hw => ?_⟩
  · exact exec_headRaises (atHeader_of_claim hat) hi (readHead_orderAboveBlock ho _ _)
  · exact exec_headRaises (atHeader_of_claim hat) hi (hbits ▸ readHead_noWidth ho hw rest)

/-- Settles O33: the sample is read back past the shared head, and Commit is the claim's. -/
theorem constantSubframeIsParsed : Obligations.ConstantSubframeIsParsed := by
  intro s p wflag z c rest hat hw hc hbits
  refine ⟨fileOf 64 [], fileOf 32 [], fileHolds_zero (by decide), fileHolds_zero (by decide), ?_⟩
  rw [exec, execSfConstant, if_pos (atHeader_of_claim hat), runElementWith_whole hbits (readConstant_whole hw hc rest),
    commit_headValues (by decide), List.length_append, length_signedBits]
  rfl

/-- Settles O34: the samples are read back past the shared head and stored in RESBUF. -/
theorem verbatimSubframeIsParsed : Obligations.VerbatimSubframeIsParsed := by
  intro s p wflag z vs rest hat hw hlen hvs hbits
  obtain ⟨-, -, hsizes⟩ := id hat
  refine ⟨fileOf 64 [], fileOf 32 [], _, fileHolds_zero (by decide), fileHolds_zero (by decide),
    storedRun_writeRun s.resbuf 0 fun v hv => inSigned64_of_width hsizes (hvs v hv), ?_⟩
  rw [exec, execSfVerbatim, if_pos (atHeader_of_claim hat),
    runElementWith_whole hbits (readVerbatim_whole hw hlen hvs rest), commit_headValues (by decide),
    List.length_append, length_flatMap_signedBits, hlen]
  rfl

/-- Settles O37: the five forms are one, which reads its warm-up samples past the shared head. -/
theorem fixedSubframeHeadIsParsed : Obligations.FixedSubframeHeadIsParsed := by
  intro s p k wflag z vs rest hat hk ho hw hlen hvs hbits
  obtain ⟨hp, -, hsizes⟩ := id hat
  refine ⟨fileOf 64 vs, fileOf 32 [], fileHolds_fileOf (by decide) fun v hv => inSigned64_of_width hsizes (hvs v hv),
    fileHolds_zero (by decide), ?_⟩
  rw [exec_fixedHeader hk, fixedForm_whole (atHeader_of_claim hat) ho hw hlen hvs hbits, List.length_append,
    length_flatMap_signedBits, hlen]
  simp only [moveTo, loadFiles_parse, advance_parse, hp, Option.map_some]
  rfl

/-- Settles O38: the fields of the LPC body are read back in stream order. -/
theorem lpcSubframeHeadIsParsed : Obligations.LpcSubframeHeadIsParsed := by
  intro s p o wflag z vs cs prec shift rest hat ho hw hlen hvs hprec hprec' hshift hclen hcs hbits
  obtain ⟨hp, -, hsizes⟩ := id hat
  obtain ⟨q, rfl⟩ := Nat.exists_eq_add_of_le' hprec
  have hwarm := fun v hv => inSigned64_of_width hsizes (hvs v hv)
  have hcoef := fun c hc => inSigned_mono (m := 32) (hcs c hc) (by omega)
  refine ⟨fileOf 64 vs, fileOf 32 cs, fileHolds_fileOf (by decide) hwarm, fileHolds_fileOf (by decide) hcoef, ?_⟩
  rw [exec, execSfLpc, if_pos (atHeader_of_claim hat), runElementWith_whole hbits
    (readLpc_whole ho hw hlen hvs (by omega) (by omega) hclen hcs rest)]
  simp only [moveTo, loadFiles_parse, advance_parse, hp, Option.map_some, List.length_append,
    length_flatMap_signedBits, length_natBits, hlen, hclen]
  rfl

/-- Settles O39: the body stops at its precision field, or at its shift field after it, whatever follows. -/
theorem lpcPrecisionAndShiftFaults : Obligations.LpcPrecisionAndShiftFaults := by
  intro s p o wflag z vs rest hat ho hw hlen hvs
  refine ⟨fun hbits => ?_, fun q sh hq hlo hneg hbits => ?_⟩
  · rw [List.append_assoc] at hbits
    exact execSfLpc_raises (atHeader_of_claim hat)
      (hbits ▸ readLpc_precisionStops ho hw hlen hvs (precisionField_reserved rest))
  · rw [List.append_assoc] at hbits
    exact execSfLpc_raises (atHeader_of_claim hat)
      (hbits ▸ readLpc_shiftStops ho hw hlen hvs hq (shiftField_negative hlo hneg rest))

end Sys2Proof.Proofs
end

section
/-! PROOF. PARSE_SUBFRAME of a whole FIXED subframe (O43), piece by piece. -/

namespace Sys2Proof.Machine

open Sys2Proof.Claims

/-! ## Moving past the first bits at hand -/

theorem streamBits_advance_append {s : State} {bits rest : List Bool} (h : streamBits s = bits ++ rest) :
    streamBits (advance s bits.length) = rest := by
  rw [streamBits_advance (by rw [h, List.length_append]; omega), h, List.drop_left]

theorem advance_advance_append {s : State} {bits rest : List Bool} (h : streamBits s = bits ++ rest) (n : Nat) :
    advance (advance s bits.length) n = advance s (bits.length + n) :=
  advance_advance (by rw [h, List.length_append]; omega)

section updates
variable (s : State) (phase : ParsePhase) (warm coef : List Int) (i n : Nat) (vs : List Int)

@[simp] theorem streamBits_moveTo : streamBits (moveTo phase s) = streamBits s := rfl
@[simp] theorem streamBits_loadFiles : streamBits (loadFiles warm coef s) = streamBits s := rfl
@[simp] theorem streamBits_storeResiduals : streamBits (storeResiduals i vs s) = streamBits s := rfl

@[simp] theorem advance_moveTo : advance (moveTo phase s) n = moveTo phase (advance s n) := rfl
@[simp] theorem advance_loadFiles : advance (loadFiles warm coef s) n = loadFiles warm coef (advance s n) := rfl
@[simp] theorem advance_storeResiduals : advance (storeResiduals i vs s) n = storeResiduals i vs (advance s n) := rfl

@[simp] theorem storeResiduals_moveTo :
    storeResiduals i vs (moveTo phase s) = moveTo phase (storeResiduals i vs s) := rfl

/-- Commit ends the running parse, wherever it stood. -/
@[simp] theorem commit_moveTo (f : Subframe) (method porder : Nat) (c : Int) :
    commit f method porder c (moveTo phase s) = commit f method porder c s := rfl

end updates

theorem moveTo_parse_of_some {s : State} {p : ParseRun} (hp : s.parse = some p) (phase : ParsePhase) :
    (moveTo phase s).parse = some { p with phase := phase } := by rw [moveTo, hp, Option.map_some]

/-! ## Pieces -/

theorem runPieces_next {n : Nat} {s t : State} (h : parsePiece s = .next t) (hb : t.blockState = .busy) :
    runPieces (n + 1) s = runPieces n t := by
  simp only [runPieces, h, if_pos hb]

theorem runPieces_last {n : Nat} {s t : State} (h : parsePiece s = .next t) (hb : t.blockState ≠ .busy) :
    runPieces (n + 1) s = .next t := by
  simp only [runPieces, h, if_neg hb]

/-- The encoding of an instruction of the slot the engine stands at is run as that instruction. -/
theorem parsePiece_encode {s : State} {p : ParseRun} {i : Instr} {rest : List Bool} (hp : s.parse = some p)
    (hw : i.wellFormed = true) (hi : i.slot = slotAt p.phase) (hbits : streamBits s = encode i ++ rest) :
    parsePiece s = exec i (advance s (encode i).length) := by
  have hdecode := decode_encode hw rest
  rw [hi] at hdecode
  simp only [parsePiece, hp, fetchElement, hbits, hdecode, List.length_append, Nat.add_sub_cancel]
  exact execElement_eq_exec (hi ▸ slotAt_ne_command _) _

/-- A FIXED header is a header of its order's TYPE (spec/30_encoding.md R112). -/
theorem fixedHeader_encodes {k : Nat} (hk : k ≤ 4) (wflag : Bool) :
    (fixedHeader k wflag).wellFormed = true ∧ (fixedHeader k wflag).slot = .header
      ∧ encode (fixedHeader k wflag) = headerBits (8 + k) wflag := by
  match k, hk with
  | 0, _ | 1, _ | 2, _ | 3, _ | 4, _ => exact ⟨rfl, rfl, rfl⟩

/-- The piece of a FIXED form: header, wasted bits and warm-up samples. -/
theorem parsePiece_fixedForm {s : State} {p : ParseRun} {k z : Nat} {wflag : Bool} {vs : List Int}
    {rest : List Bool} (hp : s.parse = some p) (hphase : p.phase = .header) (hk : k ≤ 4)
    (ho : k ≤ s.blocksize.toNat) (hw : wastedOf wflag z < s.samplesize.toNat) (hlen : vs.length = k)
    (hvs : ∀ v ∈ vs, InSigned (widthOf s wflag z) v)
    (hbits : streamBits s = headerBits (8 + k) wflag
      ++ (wastedBits wflag z ++ vs.flatMap (signedBits (widthOf s wflag z)) ++ rest)) :
    parsePiece s = .next (moveTo (.residual (headValues s (8 + k) wflag z .fixed k)) (loadFiles vs []
      (advance s ((headerBits (8 + k) wflag).length
        + (wastedBits wflag z ++ vs.flatMap (signedBits (widthOf s wflag z))).length)))) := by
  obtain ⟨hwf, hslot, henc⟩ := fixedHeader_encodes hk wflag
  have hat : atHeader (advance s (headerBits (8 + k) wflag).length) = true := atHeader_of_parse hp hphase
  rw [parsePiece_encode hp hwf (by rw [hslot, hphase, slotAt]) (henc ▸ hbits), henc, exec_fixedHeader hk,
    fixedForm_whole hat ho hw hlen hvs (streamBits_advance_append hbits), advance_advance_append hbits]
  rfl

/-- A residual header's METHOD selects its instruction (spec/30_encoding.md R123). -/
theorem exists_residualHeader (method : BitVec 1) (q : BitVec 4) :
    ∃ i : Instr, i.wellFormed = true ∧ i.slot = .residual ∧ encode i = natBits 2 method.toNat ++ natBits 4 q.toNat
      ∧ ∀ s, exec i s = residualForm method q s := by
  rcases BitVec.eq_zero_or_eq_one method with rfl | rfl
  · exact ⟨.resRice4 q, rfl, rfl, rfl, fun _ => rfl⟩
  · exact ⟨.resRice5 q, rfl, rfl, rfl, fun _ => rfl⟩

theorem residualForm_legal {s : State} {p : ParseRun} {f : Subframe} (method : BitVec 1) {q : BitVec 4}
    (hp : s.parse = some p) (hphase : p.phase = .residual f) (ha : f.blocksize % 2 ^ q.toNat = 0)
    (ho : f.order ≤ f.blocksize / 2 ^ q.toNat) :
    residualForm method q s = .next (moveTo (.partition f ⟨method, q, 0, 0⟩) s) := by
  obtain ⟨b, o, phase⟩ := p
  subst hphase
  simp only [residualForm, hp]
  exact (if_neg (not_not.2 ha)).trans (if_neg (Nat.not_lt.2 ho))

/-- The piece of a residual header that lays out its partitions. -/
theorem parsePiece_residualHeader {s : State} {p : ParseRun} {f : Subframe} {method : BitVec 1} {q : BitVec 4}
    {rest : List Bool} (hp : s.parse = some p) (hphase : p.phase = .residual f)
    (ha : f.blocksize % 2 ^ q.toNat = 0) (ho : f.order ≤ f.blocksize / 2 ^ q.toNat)
    (hbits : streamBits s = natBits 2 method.toNat ++ natBits 4 q.toNat ++ rest) :
    parsePiece s = .next (moveTo (.partition f ⟨method, q, 0, 0⟩)
      (advance s (natBits 2 method.toNat ++ natBits 4 q.toNat).length)) := by
  obtain ⟨i, hwf, hslot, henc, hexec⟩ := exists_residualHeader method q
  rw [parsePiece_encode hp hwf (by rw [hslot, hphase, slotAt]) (henc ▸ hbits), henc, hexec,
    residualForm_legal method (s := advance s _) hp hphase ha ho]

/-! ## One partition -/

/-- The bits of one residual of a partition (spec/30_encoding.md R126, R128). -/
def residualBits : PartitionText → Int → List Bool
  | .rice k _ => riceBits k
  | .escape n _ => signedBits n

/-- The reader of one residual of a partition (spec/41_residual_rice.md R187, R189). -/
def residualField : PartitionText → List Bool → Reading Int
  | .rice k _ => riceField k
  | .escape n _ => signedField n

theorem residualField_residualBits {pb : Nat} {x : PartitionText} (hx : x.Legal pb) :
    ∀ v ∈ x.values, ∀ rest, residualField x (residualBits x v ++ rest) = .ok (v, rest) := by
  intro v hv rest
  cases x with
  | rice k vs => exact riceField_riceBits k (hx.2 v hv) rest
  | escape n vs => exact signedField_signedBits (hx.2 v hv) rest

/-- Every residual of a partition fits an element of RESBUF (spec/10_state.md R59). -/
theorem inSigned64_of_residual {pb : Nat} {x : PartitionText} (hx : x.Legal pb) {v : Int} (hv : v ∈ x.values) :
    InSigned 64 v := by
  cases x with
  | rice k vs => exact inSigned_mono (hx.2 v hv) (by decide)
  | escape n vs =>
    obtain ⟨hn, hvs⟩ := hx
    have hfield := hvs v hv
    rw [FieldValue] at hfield
    split_ifs at hfield
    · subst hfield; decide
    · exact inSigned_mono hfield (by omega)

/-- A partition is the encoding of an instruction of its method, and then its residuals (spec/30_encoding.md R125). -/
theorem exists_partitionHeader (method : BitVec 1) {x : PartitionText} (hx : x.Legal (4 + method.toNat)) :
    ∃ i : Instr, i.wellFormed = true ∧ i.slot = (if method = 0 then .partition4 else .partition5)
      ∧ x.bits (4 + method.toNat) = encode i ++ x.values.flatMap (residualBits x)
      ∧ ∀ s, exec i s = partitionForm method (residualField x) s := by
  rcases BitVec.eq_zero_or_eq_one method with rfl | rfl
  · cases x with
    | rice k vs =>
      have hk : k < 15 := hx.1
      exact ⟨.partRice4 (BitVec.ofNatLT k (by omega)), decide_eq_true fun e => hk.ne (congrArg BitVec.toNat e), rfl,
        rfl, fun _ => rfl⟩
    | escape n vs => exact ⟨.partEsc4 (BitVec.ofNatLT n hx.1), rfl, rfl, rfl, fun _ => rfl⟩
  · cases x with
    | rice k vs =>
      have hk : k < 31 := hx.1
      exact ⟨.partRice5 (BitVec.ofNatLT k (by omega)), decide_eq_true fun e => hk.ne (congrArg BitVec.toNat e), rfl,
        rfl, fun _ => rfl⟩
    | escape n vs => exact ⟨.partEsc5 (BitVec.ofNatLT n hx.1), rfl, rfl, rfl, fun _ => rfl⟩

/-- A partition whose residuals are the first bits at hand (spec/41_residual_rice.md R186, R189). -/
theorem partitionForm_whole {s : State} {p : ParseRun} {f : Subframe} {r : Residual}
    {field : List Bool → Reading Int} {bits : Int → List Bool} {vs : List Int} {rest : List Bool}
    (hp : s.parse = some p) (hphase : p.phase = .partition f r)
    (hfield : ∀ v ∈ vs, ∀ rest, field (bits v ++ rest) = .ok (v, rest))
    (hlen : vs.length = countOf f.blocksize f.order r.porder.toNat r.part)
    (hbits : streamBits s = vs.flatMap bits ++ rest) :
    partitionForm r.method field s = .next (closePartition f r vs (advance s (vs.flatMap bits).length)) := by
  have hread : readMany field (partitionCount f r) (vs.flatMap bits ++ rest) = .ok (vs, rest) :=
    (show vs.length = partitionCount f r from hlen) ▸ readMany_flatMap field bits vs hfield rest
  obtain ⟨b, o, phase⟩ := p
  subst hphase
  simp only [partitionForm, hp, if_true]
  exact runElementWith_whole hbits hread _

/-- The piece of a partition. -/
theorem parsePiece_partition {s : State} {p : ParseRun} {f : Subframe} {r : Residual} {x : PartitionText}
    {rest : List Bool} (hp : s.parse = some p) (hphase : p.phase = .partition f r)
    (hx : x.Legal (4 + r.method.toNat)) (hlen : x.values.length = countOf f.blocksize f.order r.porder.toNat r.part)
    (hbits : streamBits s = x.bits (4 + r.method.toNat) ++ rest) :
    parsePiece s = .next (closePartition f r x.values (advance s (x.bits (4 + r.method.toNat)).length)) := by
  obtain ⟨i, hwf, hslot, henc, hexec⟩ := exists_partitionHeader r.method hx
  rw [henc, List.append_assoc] at hbits
  rw [parsePiece_encode hp hwf (by rw [hslot, hphase, slotAt]) hbits, hexec,
    partitionForm_whole (s := advance s _) hp hphase (residualField_residualBits hx) hlen
      (streamBits_advance_append hbits), advance_advance_append hbits, henc, List.length_append]

/-! ## The partitions, to Commit -/

section memory
variable {α : Type}

theorem cellsFrom_append (i : Nat) (vs ws : List α) :
    cellsFrom i (vs ++ ws) = cellsFrom i vs ++ cellsFrom (i + vs.length) ws := by
  induction vs generalizing i with
  | nil => rfl
  | cons v vs ih =>
    rw [List.cons_append, cellsFrom, ih, cellsFrom, List.cons_append, List.length_cons, Nat.add_assoc,
      Nat.add_comm 1]

theorem filter_below_writeRun (m : Memory α) (i : Nat) (vs : List α) :
    (m.writeRun i vs).filter (fun c => c.1 < i + vs.length) = m.filter (fun c => c.1 < i) ++ cellsFrom i vs := by
  have hcells : (cellsFrom i vs).filter (fun c => c.1 < i + vs.length) = cellsFrom i vs :=
    List.filter_eq_self.2 fun c hc => decide_eq_true (mem_cellsFrom hc).2
  have hbelow : (m.filter (fun c => c.1 < i)).filter (fun c => c.1 < i + vs.length) = m.filter (fun c => c.1 < i) :=
    List.filter_eq_self.2 fun c hc => decide_eq_true (by have := of_decide_eq_true (List.mem_filter.1 hc).2; omega)
  have habove : (m.filter (fun c => i + vs.length ≤ c.1)).filter (fun c => c.1 < i + vs.length) = [] :=
    List.filter_eq_nil_iff.2 fun c hc => by have := of_decide_eq_true (List.mem_filter.1 hc).2; simpa using this
  rw [Memory.writeRun, List.filter_append, List.filter_append, hcells, hbelow, habove, List.append_nil]

theorem filter_above_writeRun (m : Memory α) (i : Nat) (vs : List α) {k : Nat} (hk : i + vs.length ≤ k) :
    (m.writeRun i vs).filter (fun c => k ≤ c.1) = m.filter (fun c => k ≤ c.1) := by
  have hcells : (cellsFrom i vs).filter (fun c => k ≤ c.1) = [] :=
    List.filter_eq_nil_iff.2 fun c hc => by have := (mem_cellsFrom hc).2; simp; omega
  have hbelow : (m.filter (fun c => c.1 < i)).filter (fun c => k ≤ c.1) = [] :=
    List.filter_eq_nil_iff.2 fun c hc => by have := of_decide_eq_true (List.mem_filter.1 hc).2; simp; omega
  have habove : (m.filter (fun c => i + vs.length ≤ c.1)).filter (fun c => k ≤ c.1)
      = m.filter (fun c => k ≤ c.1) := by
    rw [List.filter_filter]
    exact List.filter_congr fun c _ => by rw [Bool.eq_iff_iff]; simp; omega
  rw [Memory.writeRun, List.filter_append, List.filter_append, hcells, hbelow, habove, List.nil_append,
    List.nil_append]

/-- Two runs of writes, the second where the first ends, are one. -/
theorem writeRun_writeRun (m : Memory α) (i : Nat) (vs ws : List α) :
    (m.writeRun i vs).writeRun (i + vs.length) ws = m.writeRun i (vs ++ ws) := by
  rw [Memory.writeRun, filter_below_writeRun, filter_above_writeRun m i vs (Nat.le_add_right _ _), Memory.writeRun,
    cellsFrom_append, List.length_append, Nat.add_assoc, ← List.append_assoc]

end memory

theorem storeResiduals_storeResiduals (i : Nat) (vs ws : List Int) (s : State) :
    storeResiduals (i + vs.length) ws (storeResiduals i vs s) = storeResiduals i (vs ++ ws) s := by
  have h := writeRun_writeRun s.resbuf i (vs.map (BitVec.ofInt 64)) (ws.map (BitVec.ofInt 64))
  rw [List.length_map] at h
  simp only [storeResiduals, h, List.map_append]

/-- Where DecodeResidual stands after a partition of n residuals that is not the last. -/
def nextPartition (r : Residual) (n : Nat) : Residual := { r with part := r.part + 1, idx := r.idx + n }

theorem closePartition_more {f : Subframe} {r : Residual} (h : r.part + 1 < 2 ^ r.porder.toNat) (vs : List Int)
    (s : State) : closePartition f r vs s
      = moveTo (.partition f (nextPartition r vs.length)) (storeResiduals r.idx vs s) := if_pos h

theorem closePartition_last {f : Subframe} {r : Residual} (h : ¬ r.part + 1 < 2 ^ r.porder.toNat) (vs : List Int)
    (s : State) : closePartition f r vs s = commit f r.method.toNat r.porder.toNat 0 (storeResiduals r.idx vs s) :=
  if_neg h

/-- The partitions left are run to Commit, their residuals stored one after another (spec/41_residual_rice.md R180). -/
theorem runPieces_partitions {s : State} {p : ParseRun} {f : Subframe} {r : Residual} {xs : List PartitionText}
    {rest : List Bool} {n : Nat} (hb : s.blockState = .busy) (hp : s.parse = some p)
    (hphase : p.phase = .partition f r) (hpart : r.part < 2 ^ r.porder.toNat)
    (hxs : r.part + xs.length = 2 ^ r.porder.toNat)
    (hlen : ∀ j (h : j < xs.length), xs[j].values.length = countOf f.blocksize f.order r.porder.toNat (r.part + j))
    (hlegal : ∀ x ∈ xs, x.Legal (4 + r.method.toNat))
    (hbits : streamBits s = xs.flatMap (PartitionText.bits (4 + r.method.toNat)) ++ rest) (hn : xs.length ≤ n) :
    runPieces n s = .next (commit f r.method.toNat r.porder.toNat 0
      (storeResiduals r.idx (xs.flatMap PartitionText.values)
        (advance s (xs.flatMap (PartitionText.bits (4 + r.method.toNat))).length))) := by
  induction xs generalizing s p r n with
  | nil => simp only [List.length_nil] at hxs; omega
  | cons x xs ih =>
    rw [List.length_cons] at hxs hn
    obtain ⟨n, rfl⟩ := Nat.exists_eq_add_of_le' (show 1 ≤ n by omega)
    rw [List.flatMap_cons, List.append_assoc] at hbits
    have hpiece := parsePiece_partition hp hphase (hlegal x (by simp)) (hlen 0 (by simp)) hbits
    cases xs with
    | nil =>
      have hlast : ¬ r.part + 1 < 2 ^ r.porder.toNat := by simp only [List.length_nil] at hxs; omega
      rw [closePartition_last hlast] at hpiece
      rw [runPieces_last hpiece (by simp)]
      simp
    | cons y ys =>
      have hmore : r.part + 1 < 2 ^ r.porder.toNat := by simp only [List.length_cons] at hxs; omega
      rw [closePartition_more hmore] at hpiece
      have hrun := ih (n := n) (r := nextPartition r x.values.length)
        (s := moveTo (.partition f (nextPartition r x.values.length))
          (storeResiduals r.idx x.values (advance s (x.bits (4 + r.method.toNat)).length)))
        hb (moveTo_parse_of_some hp _) rfl hmore (by simp only [nextPartition]; omega)
        (fun j hj => by
          have hj' := hlen (j + 1) (Nat.succ_lt_succ hj)
          rwa [← Nat.add_assoc, Nat.add_right_comm] at hj')
        (fun x hx => hlegal x (List.mem_cons_of_mem _ hx))
        (by rw [streamBits_moveTo, streamBits_storeResiduals, streamBits_advance_append hbits]; rfl) (by omega)
      rw [runPieces_next hpiece hb, hrun]
      simp only [advance_moveTo, storeResiduals_moveTo, commit_moveTo, advance_storeResiduals, nextPartition,
        storeResiduals_storeResiduals, advance_advance_append hbits, List.flatMap_cons, List.length_append]

/-! ## The subframe -/

section subframe
variable {s : State} {p : ParseRun} {method : BitVec 1} {q : BitVec 4} {parts : List PartitionText}
  {rest : List Bool} {n : Nat}

/-- A residual is run from its header to Commit (spec/41_residual_rice.md R180). -/
theorem runPieces_residual {f : Subframe} (hb : s.blockState = .busy) (hp : s.parse = some p)
    (hphase : p.phase = .residual f) (ha : f.blocksize % 2 ^ q.toNat = 0)
    (ho : f.order ≤ f.blocksize / 2 ^ q.toNat) (hparts : parts.length = 2 ^ q.toNat)
    (hlen : ∀ j (h : j < parts.length), parts[j].values.length = countOf f.blocksize f.order q.toNat j)
    (hlegal : ∀ x ∈ parts, x.Legal (4 + method.toNat))
    (hbits : streamBits s = natBits 2 method.toNat ++ natBits 4 q.toNat
      ++ (parts.flatMap (PartitionText.bits (4 + method.toNat)) ++ rest)) (hn : parts.length ≤ n) :
    runPieces (n + 1) s = .next (commit f method.toNat q.toNat 0
      (storeResiduals 0 (parts.flatMap PartitionText.values)
        (advance s ((natBits 2 method.toNat ++ natBits 4 q.toNat).length
          + (parts.flatMap (PartitionText.bits (4 + method.toNat))).length)))) := by
  have hpiece := parsePiece_residualHeader hp hphase ha ho hbits
  have hrun := runPieces_partitions (r := ⟨method, q, 0, 0⟩)
    (s := moveTo (.partition f ⟨method, q, 0, 0⟩) (advance s (natBits 2 method.toNat ++ natBits 4 q.toNat).length))
    hb (moveTo_parse_of_some hp _) rfl (Nat.two_pow_pos _) (by rw [Nat.zero_add, hparts]) (by simpa using hlen) hlegal
    (by rw [streamBits_moveTo, streamBits_advance_append hbits]) hn
  rw [runPieces_next hpiece hb, hrun]
  simp only [advance_moveTo, storeResiduals_moveTo, commit_moveTo, advance_advance_append hbits]

/-- A FIXED subframe is run from its header to Commit (spec/40_subframe.md R157 to R161). -/
theorem runPieces_fixedSubframe {k z : Nat} {wflag : Bool} {vs : List Int} (hb : s.blockState = .busy)
    (hp : s.parse = some p) (hphase : p.phase = .header) (hk : k ≤ 4) (ho : k ≤ s.blocksize.toNat)
    (hw : wastedOf wflag z < s.samplesize.toNat) (hvlen : vs.length = k)
    (hvs : ∀ v ∈ vs, InSigned (widthOf s wflag z) v) (ha : s.blocksize.toNat % 2 ^ q.toNat = 0)
    (hcount : k ≤ s.blocksize.toNat / 2 ^ q.toNat) (hparts : parts.length = 2 ^ q.toNat)
    (hlen : ∀ j (h : j < parts.length), parts[j].values.length = countOf s.blocksize.toNat k q.toNat j)
    (hlegal : ∀ x ∈ parts, x.Legal (4 + method.toNat))
    (hbits : streamBits s = headerBits (8 + k) wflag ++ wastedBits wflag z
      ++ vs.flatMap (signedBits (widthOf s wflag z)) ++ natBits 2 method.toNat ++ natBits 4 q.toNat
      ++ parts.flatMap (PartitionText.bits (4 + method.toNat)) ++ rest) (hn : parts.length ≤ n) :
    runPieces (n + 2) s = .next (commit (headValues s (8 + k) wflag z .fixed k) method.toNat q.toNat 0
      (storeResiduals 0 (parts.flatMap PartitionText.values) (loadFiles vs []
        (advance s ((streamBits s).length - rest.length))))) := by
  have hhead : streamBits s = headerBits (8 + k) wflag ++ (wastedBits wflag z
      ++ vs.flatMap (signedBits (widthOf s wflag z)) ++ (natBits 2 method.toNat ++ natBits 4 q.toNat
        ++ (parts.flatMap (PartitionText.bits (4 + method.toNat)) ++ rest))) := by
    simpa only [List.append_assoc] using hbits
  have hpiece := parsePiece_fixedForm hp hphase hk ho hw hvlen hvs hhead
  rw [← List.append_assoc] at hhead
  rw [← List.length_append] at hpiece
  have hrun := runPieces_residual
    (s := moveTo (.residual (headValues s (8 + k) wflag z .fixed k)) (loadFiles vs [] (advance s
      (headerBits (8 + k) wflag ++ (wastedBits wflag z ++ vs.flatMap (signedBits (widthOf s wflag z)))).length)))
    hb (moveTo_parse_of_some hp _) rfl ha hcount hparts hlen hlegal
    (by rw [streamBits_moveTo, streamBits_loadFiles, streamBits_advance_append hhead]) hn
  have htaken : (streamBits s).length - rest.length
      = (headerBits (8 + k) wflag ++ (wastedBits wflag z ++ vs.flatMap (signedBits (widthOf s wflag z)))).length
        + ((natBits 2 method.toNat ++ natBits 4 q.toNat).length
          + (parts.flatMap (PartitionText.bits (4 + method.toNat))).length) := by
    rw [hhead]; simp only [List.length_append]; omega
  rw [runPieces_next hpiece hb, hrun, htaken]
  simp only [advance_moveTo, advance_loadFiles, storeResiduals_moveTo, commit_moveTo, advance_advance_append hhead]

end subframe

end Sys2Proof.Machine

namespace Sys2Proof.Proofs

open Sys2Proof.Machine Sys2Proof.Claims

/-- Settles O43: the entry, the FIXED form, the residual header and the partitions are the pieces of the run. -/
theorem parseRecoversAnEncodedFixedSubframe : Obligations.ParseRecoversAnEncodedFixedSubframe := by
  intro s k wflag z vs method q parts rest hr hp hentry hk ho hw hlen hvs ha hcount hparts hvalues hlegal hbits
  obtain ⟨hbusy, hpending⟩ := hr
  obtain ⟨-, hsizes, -⟩ := id hentry
  have hfit : parts.length ≤ 32768 := by
    rw [hparts]; exact Nat.pow_le_pow_right (by decide) (Nat.le_of_lt_succ q.isLt)
  have hrun := runPieces_fixedSubframe (s := startParse s) (n := 32768) hbusy rfl rfl hk ho hw hlen hvs ha hcount
    hparts hvalues hlegal hbits hfit
  have hexec : exec .cmdParseSubframe s = runPieces (32768 + 3) s := if_pos ⟨hbusy, hpending⟩
  have hwarm := fun v hv => inSigned64_of_width hsizes (hvs v hv)
  refine ⟨fileOf 64 vs, fileOf 32 [], _, fileHolds_fileOf (by decide) hwarm, fileHolds_zero (by decide),
    storedRun_writeRun s.resbuf 0 fun v hv => ?_, ?_⟩
  · obtain ⟨x, hx, hvx⟩ := List.mem_flatMap.1 hv
    exact inSigned64_of_residual (hlegal x hx) hvx
  · rw [hexec, runPieces_next (parsePiece_entry hp hentry) hbusy, hrun, commit_headValues (by omega)]
    rfl

end Sys2Proof.Proofs
end

section
/-! PROOF. The residual: ZigZag (O8), whole codewords (O10), the residual headers (O40), the partitions (O41, O42). -/

namespace Sys2Proof.Machine

open Sys2Proof.Claims

/-! ## ZigZag -/

theorem zigZag_of_even {u : Nat} (h : u % 2 = 0) : zigZag u = (u : Int) / 2 := by
  rw [zigZag, if_pos h, Int.natCast_div, Nat.cast_ofNat]

theorem zigZag_of_odd {u : Nat} (h : u % 2 = 1) : zigZag u = -((u : Int) / 2) - 1 := by
  rw [zigZag, if_neg (by omega), Int.natCast_div, Nat.cast_ofNat]

/-- A folded value of 32 bits is a signed 32-bit residual's (spec/41_residual_rice.md R188). -/
theorem zigZag_inSigned {u : Nat} (h : u < 2 ^ 32) : InSigned 32 (zigZag u) := by
  rcases Nat.mod_two_eq_zero_or_one u with hu | hu
  · rw [zigZag_of_even hu, InSigned]; omega
  · rw [zigZag_of_odd hu, InSigned]; omega

/-! ## Rice codewords -/

/-- A whole codeword whose folded value leaves 32 bits (spec/41_residual_rice.md R187). -/
theorem riceField_overflow {k q r : Nat} (hr : r < 2 ^ k) (h : 2 ^ 32 ≤ q * 2 ^ k + r) (rest : List Bool) :
    riceField k (unaryBits q ++ natBits k r ++ rest) = .error (.raise .residualOverflow) := by
  rw [riceField_codeword k q r rest hr, if_neg (Nat.not_lt.2 h)]

/-! ## Residual headers -/

section residualHeader
variable {s : State} {p : ParseRun} {f : Subframe} {q : BitVec 4}

theorem residualForm_misaligned (method : BitVec 1) (hp : s.parse = some p) (hphase : p.phase = .residual f)
    (ha : f.blocksize % 2 ^ q.toNat ≠ 0) : residualForm method q s = .next (parseFault .partitionAlignment s) := by
  obtain ⟨b, o, phase⟩ := p
  subst hphase
  simp only [residualForm, hp, if_pos ha]

theorem residualForm_orderAbovePartition (method : BitVec 1) (hp : s.parse = some p)
    (hphase : p.phase = .residual f) (ha : f.blocksize % 2 ^ q.toNat = 0)
    (ho : f.blocksize / 2 ^ q.toNat < f.order) : residualForm method q s = .next (parseFault .residualCount s) := by
  obtain ⟨b, o, phase⟩ := p
  subst hphase
  simp only [residualForm, hp]
  exact (if_neg (not_not.2 ha)).trans (if_pos ho)

/-- Both residual headers are one form, of their method. -/
theorem exec_residualHeader {i : Instr} {method : BitVec 1}
    (h : i = .resRice4 q ∧ method = 0 ∨ i = .resRice5 q ∧ method = 1) : exec i s = residualForm method q s := by
  rcases h with ⟨rfl, rfl⟩ | ⟨rfl, rfl⟩ <;> rfl

end residualHeader

/-! ## Partitions -/

/-- Both Rice partitions are one form, of their method and parameter. -/
theorem exec_ricePartition {i : Instr} {k : Nat} {method : BitVec 1}
    (h : (∃ k4 : BitVec 4, i = .partRice4 k4 ∧ k = k4.toNat ∧ method = 0)
      ∨ ∃ k5 : BitVec 5, i = .partRice5 k5 ∧ k = k5.toNat ∧ method = 1) (s : State) :
    exec i s = partitionForm method (riceField k) s := by
  rcases h with ⟨k4, rfl, rfl, rfl⟩ | ⟨k5, rfl, rfl, rfl⟩ <;> rfl

/-- Both escape partitions are one form, of their method. -/
theorem exec_escapePartition {i : Instr} {n : BitVec 5} {method : BitVec 1}
    (h : i = .partEsc4 n ∧ method = 0 ∨ i = .partEsc5 n ∧ method = 1) (s : State) :
    exec i s = partitionForm method (signedField n.toNat) s := by
  rcases h with ⟨rfl, rfl⟩ | ⟨rfl, rfl⟩ <;> rfl

/-- The end of a partition is the claim's, once its residuals are stored. -/
theorem closePartition_eq_afterPartition {s : State} {p : ParseRun} (hp : s.parse = some p) (f : Subframe)
    (r : Residual) (vs : List Int) :
    closePartition f r vs s = afterPartition p f r vs.length (storeResiduals r.idx vs s) := by
  by_cases hlast : r.part + 1 < 2 ^ r.porder.toNat
  · rw [closePartition_more hlast, afterPartition, if_pos hlast, moveTo, storeResiduals_parse, hp]; rfl
  · rw [closePartition_last hlast, afterPartition, if_neg hlast, commit_eq_committed]

section partitions
variable {s : State} {p : ParseRun} {f : Subframe} {r : Residual} {field : List Bool → Reading Int}
  {bits : Int → List Bool} {vs : List Int} {rest : List Bool} (hp : s.parse = some p)
  (hphase : p.phase = .partition f r) (hfield : ∀ v ∈ vs, ∀ rest, field (bits v ++ rest) = .ok (v, rest))
include hp hphase hfield

/-- A partition whose residuals are the first bits at hand leaves them in RESBUF. -/
theorem partitionForm_stores (hlen : vs.length = countOf f.blocksize f.order r.porder.toNat r.part)
    (hvs : ∀ v ∈ vs, InSigned 64 v) (hbits : streamBits s = vs.flatMap bits ++ rest) :
    ∃ resbuf, StoredRun s.resbuf resbuf r.idx vs
      ∧ partitionForm r.method field s = .next (afterPartition p f r vs.length
          { cursorMoved (vs.flatMap bits).length s with resbuf := resbuf }) := by
  refine ⟨_, storedRun_writeRun s.resbuf r.idx hvs, ?_⟩
  rw [partitionForm_whole hp hphase hfield hlen hbits, closePartition_eq_afterPartition (s := advance s _) hp]
  rfl

/-- A partition ends at the first of its fields that raises an error. -/
theorem partitionForm_raises {e : ErrorCode} (hlen : vs.length < countOf f.blocksize f.order r.porder.toNat r.part)
    (hraise : field rest = .error (.raise e)) (hbits : streamBits s = vs.flatMap bits ++ rest) :
    partitionForm r.method field s = .next (parseFault e s) := by
  have hread : readMany field (partitionCount f r) (streamBits s) = .error (.raise e) :=
    hbits ▸ readMany_stops hfield hlen hraise
  obtain ⟨b, o, phase⟩ := p
  subst hphase
  simp only [partitionForm, hp, if_true]
  exact runElementWith_raise hread _

end partitions

end Sys2Proof.Machine

namespace Sys2Proof.Proofs

open Sys2Proof.Machine Sys2Proof.Claims

/-- Settles O8: the two parities are the map's two cases, and every residual is the image of its folded value. -/
theorem zigZagIsOntoSigned32 : Obligations.ZigZagIsOntoSigned32 :=
  ⟨fun _ => ⟨zigZag_of_even, zigZag_of_odd, zigZag_inSigned⟩,
    fun v hv => ⟨foldResidual v, foldResidual_lt hv, zigZag_foldResidual v⟩⟩

/-- Settles O10: the overflow is judged on the whole codeword, and a proper part of one ends in its run of 0 bits or in
its low bits. -/
theorem riceOverflowNeedsTheWholeCodeword : Obligations.RiceOverflowNeedsTheWholeCodeword :=
  fun _ _ _ rest hr => ⟨fun hover => riceField_overflow hr hover rest, fun _ hcut => riceField_short hcut⟩

/-- Settles O40: both residual headers judge the alignment, then the count, and else lay out the partitions. -/
theorem residualHeaderLaysOutPartitions : Obligations.ResidualHeaderLaysOutPartitions := by
  intro s p f q i method hp hphase hi
  rw [exec_residualHeader hi]
  refine ⟨residualForm_misaligned method hp hphase, residualForm_orderAbovePartition method hp hphase,
    fun ha ho => ?_⟩
  rw [residualForm_legal method hp hphase ha ho, moveTo, hp]
  rfl

/-- Settles O41: each codeword is read back and the residuals are stored, or the first codeword that overflows ends the
partition. -/
theorem ricePartitionIsDecoded : Obligations.RicePartitionIsDecoded := by
  intro s p f r i k vs rest hp hphase hi hvs
  have hfield : ∀ v ∈ vs, ∀ rest, riceField k (riceBits k v ++ rest) = .ok (v, rest) :=
    fun v hv => riceField_riceBits k (hvs v hv)
  rw [exec_ricePartition hi]
  refine ⟨fun hlen hbits => ?_, fun q m hlen hm hover hbits => ?_⟩
  · exact partitionForm_stores hp hphase hfield hlen (fun v hv => inSigned_mono (hvs v hv) (by decide)) hbits
  · rw [List.append_assoc, List.append_assoc, ← List.append_assoc (unaryBits q)] at hbits
    exact partitionForm_raises hp hphase hfield hlen (riceField_overflow hm hover rest) hbits

/-- Settles O42: each field is read back, of width 0 from no bits, and the residuals are stored. -/
theorem escapePartitionIsDecoded : Obligations.EscapePartitionIsDecoded := by
  intro s p f r i n vs rest hp hphase hi hlen hvs hbits
  have hlegal : (PartitionText.escape n.toNat vs).Legal 0 := ⟨n.isLt, hvs⟩
  rw [exec_escapePartition hi, ← length_flatMap_signedBits]
  exact partitionForm_stores hp hphase (residualField_residualBits hlegal) hlen
    (fun _ => inSigned64_of_residual hlegal) hbits

end Sys2Proof.Proofs
end

section
/-! PROOF. RECONSTRUCT: its entry check, what it writes for each kind of subframe, where it overflows, and its
repetition (O45 to O50). -/

namespace Sys2Proof.Machine

open Sys2Proof.Claims

/-! ## The ends of RECONSTRUCT -/

theorem fits64_iff (v : Int) : fits64 v = true ↔ Fits64 v := by
  simp only [fits64, Fits64, decide_eq_true_eq]; omega

/-- OBUF with the samples shifted by the wasted bits in it, from index 0 on (spec/42_reconstruct.md R222). -/
def restoredObuf (s : State) (samples : List Int) : Memory Long :=
  s.obuf.writeRun 0 ((samples.map (fun v => v * 2 ^ s.sfWasted.toNat)).map (BitVec.ofInt 64))

/-- The converse of `heldKind_bounds`. -/
theorem heldKind_of_bounds {s : State} {kind : Kind} (hkind : s.sfKind = kindCode kind)
    (hblock : s.sfBlocksize.toNat ≤ Config.maxBlock)
    (hfixed : kind = .fixed → s.sfOrder.toNat ≤ 4 ∧ s.sfOrder.toNat ≤ s.sfBlocksize.toNat)
    (hlpc : kind = .lpc → s.sfOrder.toNat ≤ 32 ∧ s.sfOrder.toNat ≤ s.sfBlocksize.toNat) :
    heldKind s = some kind := by
  simp only [heldKind, hkind, kindOf_kindCode]
  cases kind with
  | constant => simp [hblock]
  | verbatim => simp [hblock]
  | fixed => simp [hblock, hfixed rfl]
  | lpc => simp [hblock, hlpc rfl]

section heldKindKnown
variable {s : State} {kind : Kind} (hv : s.sfValid = true) (hk : heldKind s = some kind)
include hv hk

theorem runReconstruct_predictorOverflow (hu : unshifted s kind = .error .overflow) :
    runReconstruct s = .next (reconstructFault .arithmeticOverflow s) := by
  simp [runReconstruct, hv, hk, hu]

theorem runReconstruct_restoreOverflow {samples : List Int} {v : Int} (hu : unshifted s kind = .ok samples)
    (hmem : v ∈ samples) (hover : ¬ Fits64 (v * 2 ^ s.sfWasted.toNat)) :
    runReconstruct s = .next (reconstructFault .arithmeticOverflow s) := by
  have hnone : restoreWasted s.sfWasted.toNat samples = none := by
    rw [restoreWasted, if_neg fun hall => hover ((fits64_iff _).1 (List.all_eq_true.1 hall v hmem))]
  simp [runReconstruct, hv, hk, hu, hnone]

theorem runReconstruct_restored {samples : List Int} (hu : unshifted s kind = .ok samples)
    (hfit : ∀ v ∈ samples, Fits64 (v * 2 ^ s.sfWasted.toNat)) :
    runReconstruct s = .next (reconstructed (restoredObuf s samples) s) := by
  have hsome : restoreWasted s.sfWasted.toNat samples = some (samples.map (fun v => v * 2 ^ s.sfWasted.toNat)) := by
    rw [restoreWasted, if_pos (List.all_eq_true.2 fun v hmem => (fits64_iff _).2 (hfit v hmem))]
  simp [runReconstruct, hv, hk, hu, hsome, reconstructed, restoredObuf, finish]

end heldKindKnown

/-- RECONSTRUCT ends DONE only with a block whose shifted samples all stay in 64 bits. -/
theorem runReconstruct_of_done {s t : State} (h : runReconstruct s = .next t) (hdone : t.blockState = .done) :
    ∃ kind samples, s.sfValid = true ∧ heldKind s = some kind ∧ unshifted s kind = .ok samples
      ∧ samples.length = s.sfBlocksize.toNat ∧ (∀ v ∈ samples, Fits64 (v * 2 ^ s.sfWasted.toNat))
      ∧ t = reconstructed (restoredObuf s samples) s := by
  rcases runReconstruct_cases s with
    ⟨-, e⟩ | ⟨-, -, e⟩ | ⟨_, -, -, -, e⟩ | ⟨-, e⟩ | ⟨kind, out, hv, hk, hu, hlen, hfit, e⟩ <;>
    rw [e] at h <;> cases h
  · cases hdone
  · cases hdone
  · exact ⟨kind, out, hv, hk, hu, hlen, fun v hmem => (fits64_iff _).1 (hfit v hmem), rfl⟩

/-- A run of elements written twice reads as written once. -/
theorem read_writeRun_again {α : Type} (m : Memory α) (i : Nat) (vs : List α) (j : Nat) :
    ((m.writeRun i vs).writeRun i vs).read j = (m.writeRun i vs).read j := by
  simp only [read_writeRun]
  split_ifs <;> rfl

/-- What `storedRun_writeRun` says of a whole block's samples in OBUF. -/
theorem outputIs_restoredObuf (s : State) {B : Nat} {smp : Nat → Int}
    (hfit : ∀ n, n < B → Fits64 (smp n * 2 ^ s.sfWasted.toNat)) :
    OutputIs s.obuf (restoredObuf s ((List.range B).map smp)) B (fun n => smp n * 2 ^ s.sfWasted.toNat) := by
  have hsigned : ∀ v ∈ ((List.range B).map smp).map (fun v => v * 2 ^ s.sfWasted.toNat), InSigned 64 v := by
    intro v hmem
    simp only [List.mem_map, List.mem_range] at hmem
    obtain ⟨_, ⟨n, hn, rfl⟩, rfl⟩ := hmem
    obtain ⟨hlo, hhi⟩ := hfit n hn
    exact ⟨hlo, by omega⟩
  obtain ⟨hin, hout⟩ := storedRun_writeRun s.obuf 0 hsigned
  refine ⟨fun n hn => ?_, fun n hn => hout n (.inr (by simpa using hn))⟩
  simpa [restoredObuf] using hin n (by simpa using hn)

/-- RECONSTRUCT of a block whose shifted samples all stay in 64 bits (spec/42_reconstruct.md R210, R222). -/
theorem exec_reconstruct_samples {s : State} {kind : Kind} {smp : Nat → Int} (hrun : Running .reconstruct s)
    (hv : s.sfValid = true) (hk : heldKind s = some kind)
    (hu : unshifted s kind = .ok ((List.range s.sfBlocksize.toNat).map smp))
    (hfit : ∀ n, n < s.sfBlocksize.toNat → Fits64 (smp n * 2 ^ s.sfWasted.toNat)) :
    ∃ obuf, OutputIs s.obuf obuf s.sfBlocksize.toNat (fun n => smp n * 2 ^ s.sfWasted.toNat)
      ∧ exec .cmdReconstruct s = .next (reconstructed obuf s) := by
  refine ⟨_, outputIs_restoredObuf s hfit, ?_⟩
  rw [exec_reconstruct_running hrun, runReconstruct_restored hv hk hu]
  simpa using hfit

/-! ## The residuals -/

/-- RESBUF's elements are taken as far as they are written (spec/10_state.md R59, R64). -/
theorem le_length_residualsHeld {s : State} {n j : Nat} (hwf : s.resbuf.wf) (hj : j ≤ n)
    (hread : ∀ i, i < j → ∃ v, s.resbuf.read i = some v) : j ≤ (residualsHeld s n).length := by
  rw [residualsHeld, List.length_map]
  by_contra hlt
  obtain ⟨v, hv⟩ := hread _ (Nat.lt_of_not_le hlt)
  have hnone := read_after_slice hwf (i := 0) (n := n) (by omega)
  rw [Nat.zero_add, hv] at hnone
  cases hnone

theorem getElem_residualsHeld {s : State} {n j : Nat} {v : Long} (hwf : s.resbuf.wf)
    (hj : j < (residualsHeld s n).length) (hread : s.resbuf.read j = some v) :
    (residualsHeld s n)[j] = v.toInt := by
  have hslice := read_of_slice hwf (i := 0) (n := n) (j := j) (by simpa [residualsHeld] using hj)
  rw [Nat.zero_add, hread] at hslice
  simp only [residualsHeld, List.getElem_map]
  rw [← Option.some.inj hslice]

/-- The unshifted samples of a VERBATIM subframe (spec/42_reconstruct.md R212). -/
theorem unshifted_verbatim {s : State} {smp : Nat → Int} (hwf : s.resbuf.wf)
    (hread : ∀ n, n < s.sfBlocksize.toNat → ∃ v, s.resbuf.read n = some v ∧ v.toInt = smp n) :
    unshifted s .verbatim = .ok ((List.range s.sfBlocksize.toNat).map smp) := by
  have hlen := le_antisymm (length_residualsHeld_le s s.sfBlocksize.toNat)
    (le_length_residualsHeld hwf le_rfl fun i hi => (hread i hi).imp fun _ => And.left)
  rw [unshifted, if_neg (by omega)]
  congr 1
  refine List.ext_getElem (by simpa using hlen) fun n hn _ => ?_
  obtain ⟨v, hv, hsmp⟩ := hread n (hlen ▸ hn)
  rw [getElem_residualsHeld hwf hn hv, List.getElem_map, List.getElem_range, hsmp]

theorem samplesBelow_reads {s : State} {smp : Nat → Int} {m : Nat} (hb : SamplesBelow s smp m) :
    ∀ i, i < m - s.sfOrder.toNat → ∃ r, s.resbuf.read i = some r := by
  intro i hi
  obtain ⟨⟨_, r, -, -, hread, -⟩, -⟩ := hb.2 (s.sfOrder.toNat + i) (by omega) (by omega)
  exact ⟨r, by rwa [Nat.add_sub_cancel_left] at hread⟩

/-! ## The predictor -/

/-- The samples below n, the newest first: the history the predictor has at sample n (spec/42_reconstruct.md R220). -/
def newestFirst (smp : Nat → Int) : Nat → List Int
  | 0 => []
  | n + 1 => smp n :: newestFirst smp n

theorem reverse_newestFirst (smp : Nat → Int) (n : Nat) : (newestFirst smp n).reverse = (List.range n).map smp := by
  induction n with
  | zero => rfl
  | succ n ih => simp [newestFirst, ih, List.range_succ]

/-- Coefficient i multiplies the sample i + 1 places back (spec/42_reconstruct.md R220). -/
theorem predict_newestFirst (smp : Nat → Int) {coefs : List Int} {n : Nat} (h : coefs.length ≤ n) :
    predict coefs (newestFirst smp n) = ∑ i ∈ Finset.range coefs.length, coefs.getD i 0 * smp (n - 1 - i) := by
  induction coefs generalizing n with
  | nil => rfl
  | cons c cs ih =>
    obtain ⟨n, rfl⟩ : ∃ m, n = m + 1 := ⟨n - 1, by simp only [List.length_cons] at h; omega⟩
    have hpredict : predict (c :: cs) (newestFirst smp (n + 1)) = c * smp n + predict cs (newestFirst smp n) := by
      simp [predict, newestFirst]
    rw [hpredict, ih (by simpa using h), List.length_cons, Finset.sum_range_succ', add_comm]
    simp [Nat.sub_sub, Nat.add_comm]

theorem length_fixedCoefficients {k : Nat} (hk : k ≤ 4) : (fixedCoefficients k).length = k := by
  interval_cases k <;> rfl

/-- The fixed coefficient sets give the fixed predictors (spec/42_reconstruct.md R213 to R218). -/
theorem predict_fixedCoefficients (smp : Nat → Int) {k n : Nat} (hk : k ≤ 4) (hn : k ≤ n) :
    predict (fixedCoefficients k) (newestFirst smp n) = fixedPrediction k smp n := by
  rw [predict_newestFirst smp (by rwa [length_fixedCoefficients hk]), length_fixedCoefficients hk]
  interval_cases k <;> simp [fixedCoefficients, fixedPrediction, Finset.sum_range_succ, Nat.sub_sub] <;> ring

theorem getElem_fileTake {w : Nat} (f : Vector (BitVec w) 32) {i k : Nat} (hi : i < (fileTake f k).length) :
    (fileTake f k)[i] = (f.getD i 0).toInt := by
  have hi32 : i < 32 := by
    simp only [fileTake, List.length_map, List.length_take, Vector.length_toList] at hi; omega
  simp [fileTake, Vector.getD, hi32]

/-- The coefficients of a predicted subframe, the most recent sample's first (spec/42_reconstruct.md R213, R219). -/
def predictorCoefs (s : State) : List Int :=
  if s.sfKind = 3 then fixedCoefficients s.sfOrder.toNat else fileTake s.coef s.sfOrder.toNat

/-- The unshifted samples of a predicted subframe, FIXED or LPC (spec/42_reconstruct.md R214 to R219). -/
def predictedSamples (s : State) : Except SampleStop (List Int) :=
  predicted (predictorCoefs s) (shiftOf s) (fileTake s.warm s.sfOrder.toNat)
    (residualsHeld s (s.sfBlocksize.toNat - s.sfOrder.toNat)) (s.sfBlocksize.toNat - s.sfOrder.toNat)

/-- Past samples that are the predictor's, it goes on with the history of them and the residuals left. -/
theorem predictAll_drop {coefs rs : List Int} {shift k j : Nat} {smp : Nat → Int} (hj : j ≤ rs.length)
    (hnext : ∀ i (hi : i < j), nextSample coefs shift (newestFirst smp (k + i)) rs[i] = some (smp (k + i))) :
    predictAll coefs shift (newestFirst smp k) rs = predictAll coefs shift (newestFirst smp (k + j)) (rs.drop j) := by
  induction j with
  | zero => rfl
  | succ j ih =>
    rw [ih (by omega) fun i hi => hnext i (by omega), List.drop_eq_getElem_cons (by omega)]
    simp only [predictAll, hnext j (by omega)]
    rfl

section predictedRun
variable {s : State} {smp : Nat → Int} {m n : Nat} {v : Int} (h : PredictedRun s)
include h

/-- A predicted subframe is reconstructed by its predictor, FIXED or LPC. -/
theorem unshifted_of_predictedRun :
    ∃ kind, heldKind s = some kind ∧ unshifted s kind = predictedSamples s := by
  obtain ⟨-, -, -, hblock, hfits, ⟨hkind, horder⟩ | ⟨hkind, -, horder⟩⟩ := h
  · exact ⟨.fixed, heldKind_of_bounds hkind hblock (fun _ => ⟨horder, hfits⟩) nofun,
      by simp [unshifted, predictedSamples, predictorCoefs, shiftOf, hkind]⟩
  · exact ⟨.lpc, heldKind_of_bounds hkind hblock nofun (fun _ => ⟨horder, hfits⟩),
      by simp [unshifted, predictedSamples, predictorCoefs, shiftOf, hkind]⟩

theorem predict_predictorCoefs (hn : s.sfOrder.toNat ≤ n) :
    predict (predictorCoefs s) (newestFirst smp n) = accOf s smp n := by
  obtain ⟨-, -, -, -, -, ⟨hkind, horder⟩ | ⟨hkind, -, horder⟩⟩ := h
  · rw [predictorCoefs, accOf, if_pos hkind, if_pos hkind, predict_fixedCoefficients smp horder hn]
  · have hlen := length_fileTake s.coef horder
    have hlpc : s.sfKind ≠ 3 := by rw [hkind]; decide
    rw [predictorCoefs, accOf, if_neg hlpc, if_neg hlpc, predict_newestFirst smp (by rwa [hlen]), hlen]
    refine Finset.sum_congr rfl fun i hi => ?_
    have hi' : i < (fileTake s.coef s.sfOrder.toNat).length := by rwa [hlen, ← Finset.mem_range]
    rw [List.getD_eq_getElem _ _ hi', getElem_fileTake]

/-- The next sample is the exact one, where `acc` and it stay in 64 bits (spec/42_reconstruct.md R219, R221). -/
theorem nextSample_of_sampleIs (hn : s.sfOrder.toNat ≤ n) (hs : SampleIs s smp n v) :
    ∃ r, s.resbuf.read (n - s.sfOrder.toNat) = some r
      ∧ nextSample (predictorCoefs s) (shiftOf s) (newestFirst smp n) r.toInt
        = if fits64 (accOf s smp n) && fits64 v then some v else none := by
  obtain ⟨q, r, hlo, hhi, hread, rfl⟩ := hs
  have hpos : (0 : Int) < 2 ^ shiftOf s := by positivity
  have hq : accOf s smp n / 2 ^ shiftOf s = q :=
    le_antisymm (Int.lt_add_one_iff.1 ((Int.ediv_lt_iff_lt_mul hpos).2 hhi)) ((Int.le_ediv_iff_mul_le hpos).2 hlo)
  exact ⟨r, hread, by rw [nextSample, predict_predictorCoefs h hn, hq]⟩

theorem reverse_fileTake_warm (hb : SamplesBelow s smp m) :
    (fileTake s.warm s.sfOrder.toNat).reverse = newestFirst smp s.sfOrder.toNat := by
  obtain ⟨-, -, -, -, -, horder⟩ := h
  have hlen := length_fileTake s.warm (k := s.sfOrder.toNat) (by omega)
  rw [← List.reverse_reverse (newestFirst smp _), reverse_newestFirst]
  congr 1
  refine List.ext_getElem (by simpa using hlen) fun i hi _ => ?_
  rw [getElem_fileTake, List.getElem_map, List.getElem_range, hb.1 i (hlen ▸ hi)]

/-- After the samples below m, the predictor goes on with the residuals from sample m's on. -/
theorem predictAll_samplesBelow {N : Nat} (hb : SamplesBelow s smp m) (hm : s.sfOrder.toNat ≤ m)
    (hlen : m - s.sfOrder.toNat ≤ (residualsHeld s N).length) :
    predictAll (predictorCoefs s) (shiftOf s) (fileTake s.warm s.sfOrder.toNat).reverse (residualsHeld s N)
      = predictAll (predictorCoefs s) (shiftOf s) (newestFirst smp m)
        ((residualsHeld s N).drop (m - s.sfOrder.toNat)) := by
  obtain ⟨-, -, hwf, -⟩ := id h
  have hnext : ∀ i (hi : i < m - s.sfOrder.toNat),
      nextSample (predictorCoefs s) (shiftOf s) (newestFirst smp (s.sfOrder.toNat + i)) (residualsHeld s N)[i]
        = some (smp (s.sfOrder.toNat + i)) := by
    intro i hi
    obtain ⟨hs, hacc, hsmp⟩ := hb.2 (s.sfOrder.toNat + i) (by omega) (by omega)
    obtain ⟨r, hread, hr⟩ := nextSample_of_sampleIs h (by omega) hs
    rw [Nat.add_sub_cancel_left] at hread
    rw [getElem_residualsHeld hwf (by omega) hread, hr, (fits64_iff _).2 hacc, (fits64_iff _).2 hsmp]
    rfl
  rw [reverse_fileTake_warm h hb, predictAll_drop hlen hnext, Nat.add_sub_cancel' hm]

/-- A block whose every sample is the predictor's has them as its unshifted samples (spec/42_reconstruct.md R214 to
R219). -/
theorem predictedSamples_of_samplesBelow (hb : SamplesBelow s smp s.sfBlocksize.toNat) :
    predictedSamples s = .ok ((List.range s.sfBlocksize.toNat).map smp) := by
  obtain ⟨-, -, hwf, -, hfits, -⟩ := id h
  have hlen := le_length_residualsHeld hwf le_rfl (samplesBelow_reads hb)
  have hnil := List.drop_eq_nil_of_le (length_residualsHeld_le s (s.sfBlocksize.toNat - s.sfOrder.toNat))
  rw [predictedSamples, predicted, predictAll_samplesBelow h hb hfits hlen, hnil]
  simp only [predictAll, hlen, if_true, reverse_newestFirst]

/-- The first sample that is out of range, or whose `acc` is, stops the predictor (spec/42_reconstruct.md R221). -/
theorem predictedSamples_overflow (hb : SamplesBelow s smp m) (hm : s.sfOrder.toNat ≤ m)
    (hblock : m < s.sfBlocksize.toNat) (hs : SampleIs s smp m v)
    (hover : ¬ (Fits64 (accOf s smp m) ∧ Fits64 v)) : predictedSamples s = .error .overflow := by
  obtain ⟨-, -, hwf, -⟩ := id h
  obtain ⟨r, hread, hr⟩ := nextSample_of_sampleIs h hm hs
  have hlen : m - s.sfOrder.toNat + 1 ≤ (residualsHeld s (s.sfBlocksize.toNat - s.sfOrder.toNat)).length := by
    refine le_length_residualsHeld hwf (by omega) fun i hi => ?_
    rcases Nat.lt_or_eq_of_le (Nat.le_of_lt_succ hi) with hi | rfl
    · exact samplesBelow_reads hb i hi
    · exact ⟨r, hread⟩
  rw [← fits64_iff, ← fits64_iff, ← Bool.and_eq_true] at hover
  rw [if_neg hover] at hr
  rw [predictedSamples, predicted, predictAll_samplesBelow h hb hm (by omega), List.drop_eq_getElem_cons hlen,
    getElem_residualsHeld hwf hlen hread]
  simp only [predictAll, hr]

end predictedRun

end Sys2Proof.Machine

namespace Sys2Proof.Proofs

open Sys2Proof.Machine Sys2Proof.Claims

/-- Settles O45: SF_VALID is RECONSTRUCT's first check. -/
theorem reconstructNeedsASubframe : Obligations.ReconstructNeedsASubframe := by
  intro s hrun hv
  rw [exec_reconstruct_running hrun]
  simp [runReconstruct, hv]

/-- Settles O46: the unshifted samples are B copies of SF_CONST. -/
theorem constantSubframeIsReconstructed : Obligations.ConstantSubframeIsReconstructed := by
  intro s hrun hv hkind hblock hfit
  have hk : heldKind s = some .constant := heldKind_of_bounds hkind hblock nofun nofun
  exact exec_reconstruct_samples (smp := fun _ => s.sfConst.toInt) hrun hv hk (by simp [unshifted, List.map_const'])
    fun _ _ => hfit

/-- Settles O47: the unshifted samples are the elements of RESBUF. -/
theorem verbatimSubframeIsReconstructed : Obligations.VerbatimSubframeIsReconstructed := by
  intro s smp hrun hv hkind hblock hwf hread hfit
  have hk : heldKind s = some .verbatim := heldKind_of_bounds hkind hblock nofun nofun
  exact exec_reconstruct_samples hrun hv hk (unshifted_verbatim hwf hread) hfit

/-- Settles O48: the predictor's samples are the unshifted ones. -/
theorem predictedSubframeIsReconstructed : Obligations.PredictedSubframeIsReconstructed := by
  intro s smp h hb hfit
  obtain ⟨kind, hk, hu⟩ := unshifted_of_predictedRun h
  rw [predictedSamples_of_samplesBelow h hb] at hu
  obtain ⟨hrun, hv, -⟩ := h
  exact exec_reconstruct_samples hrun hv hk hu hfit

/-- Settles O49: the predictor stops at the first value out of range, and the wasted-bits restore at any. -/
theorem predictorOverflowFaults : Obligations.PredictorOverflowFaults := by
  intro s smp m h hb _
  obtain ⟨kind, hk, hu⟩ := unshifted_of_predictedRun h
  obtain ⟨hrun, hv, -⟩ := id h
  rw [exec_reconstruct_running hrun]
  refine ⟨fun ⟨v, hm, hlt, hs, hover⟩ => ?_, fun ⟨n, hm, hn, hover⟩ => ?_⟩
  · rw [predictedSamples_overflow h hb hm hlt hs hover] at hu
    exact runReconstruct_predictorOverflow hv hk hu
  · subst hm
    rw [predictedSamples_of_samplesBelow h hb] at hu
    exact runReconstruct_restoreOverflow hv hk hu (List.mem_map_of_mem (List.mem_range.2 hn)) hover

/-- Settles O50: the unshifted samples do not depend on OBUF or STATE, so the second run writes the same ones again. -/
theorem reconstructCanBeRepeated : Obligations.ReconstructCanBeRepeated := by
  intro s t hrun h hdone
  rw [exec_reconstruct_running hrun] at h
  obtain ⟨kind, samples, hv, hk, hu, hlen, hfit, rfl⟩ := runReconstruct_of_done h hdone
  refine ⟨rfl, fun n hn => read_writeRun_outside _ _ _ n (.inr (by simpa [hlen] using hn)), ?_⟩
  rw [exec_reconstruct_running ⟨rfl, rfl⟩]
  exact ⟨_, runReconstruct_restored
    (s := { reconstructed (restoredObuf s samples) s with blockState := .busy, pending := some .reconstruct })
    hv hk hu hfit, rfl, read_writeRun_again s.obuf 0 _⟩

end Sys2Proof.Proofs
end

section
/-! PROOF. The CRC-16: the bitwise rule in integers (O54), the residue (O55) and the table form (O56) by the linearity
of its shifts, and VERIFY_CRC16 (O52, O53). -/

namespace Sys2Proof.Machine

open Sys2Proof.Claims

/-! ## The bitwise rule in integers -/

/-- One turn of Crc16Byte's loop, in integers (spec/43_crc16.md R241). -/
def natCrcShift (c : Nat) : Nat := if 2 ^ 15 ≤ c then (2 * c % 2 ^ 16) ^^^ 0x8005 else 2 * c % 2 ^ 16

theorem toNat_crcShift (c : BitVec 16) : (crcShift c).toNat = natCrcShift c.toNat := by
  have hdouble : (c <<< 1).toNat = 2 * c.toNat % 2 ^ 16 := by
    rw [BitVec.toNat_shiftLeft, Nat.shiftLeft_eq, Nat.mul_comm, Nat.pow_one]
  simp only [crcShift, natCrcShift, BitVec.msb_eq_decide, decide_eq_true_eq]
  split_ifs
  · rw [BitVec.toNat_xor, hdouble]; rfl
  · exact hdouble

theorem toNat_crcShifts (n : Nat) (c : BitVec 16) : (crcShifts n c).toNat = natCrcShift^[n] c.toNat := by
  induction n generalizing c with
  | zero => rfl
  | succ n ih => rw [crcShifts, ih, toNat_crcShift, Function.iterate_succ_apply]

/-- The byte in at the top of the CRC. -/
theorem toNat_xor_byteAtTop (c : BitVec 16) (b : Byte) :
    (c ^^^ (b.setWidth 16 <<< 8)).toNat = c.toNat ^^^ (b.toNat * 2 ^ 8) := by
  have hbyte : (b.setWidth 16 <<< 8).toNat = b.toNat * 2 ^ 8 := by
    have := b.isLt
    simp only [BitVec.toNat_shiftLeft, BitVec.toNat_setWidth, Nat.shiftLeft_eq]
    omega
  rw [BitVec.toNat_xor, hbyte]

theorem crc16_append (bytes more : List Byte) : crc16 (bytes ++ more) = more.foldl crcByte (crc16 bytes) :=
  List.foldl_append

/-! ## The shifts are linear, and only 0 goes to 0 -/

theorem crcShift_xor (a b : BitVec 16) : crcShift (a ^^^ b) = crcShift a ^^^ crcShift b := by
  have hcancel : ∀ x y p : BitVec 16, x ^^^ y = (x ^^^ p) ^^^ (y ^^^ p) := fun x y p => by
    rw [BitVec.xor_comm y p, BitVec.xor_assoc, ← BitVec.xor_assoc p p y, BitVec.xor_self, BitVec.zero_xor]
  simp only [crcShift, BitVec.msb_xor, BitVec.shiftLeft_xor_distrib]
  cases a.msb <;> cases b.msb
  · rfl
  · exact BitVec.xor_assoc ..
  · simp only [Bool.xor_false, if_true, Bool.false_eq_true, if_false]; ac_rfl
  · exact hcancel ..

theorem crcShifts_xor (n : Nat) (a b : BitVec 16) : crcShifts n (a ^^^ b) = crcShifts n a ^^^ crcShifts n b := by
  induction n generalizing a b with
  | zero => rfl
  | succ n ih => rw [crcShifts, crcShift_xor, ih, crcShifts, crcShifts]

/-- The constant 0x8005 is odd and a doubling is even, so a 1 that leaves at the top shows in bit 0. -/
theorem eq_zero_of_crcShift_eq_zero {a : BitVec 16} (h : crcShift a = 0) : a = 0 := by
  cases hmsb : a.msb with
  | true =>
    have hbit := congrArg (·.getLsbD 0) h
    simp [crcShift, hmsb] at hbit
  | false =>
    have htop : 2 * a.toNat < 2 ^ 16 := BitVec.msb_eq_false_iff_two_mul_lt.1 hmsb
    have hnat : natCrcShift a.toNat = 0 := by rw [← toNat_crcShift, h]; rfl
    rw [natCrcShift, if_neg (by omega)] at hnat
    exact BitVec.eq_of_toNat_eq (show a.toNat = 0 by omega)

theorem eq_zero_of_crcShifts_eq_zero (n : Nat) {a : BitVec 16} (h : crcShifts n a = 0) : a = 0 := by
  induction n generalizing a with
  | zero => exact h
  | succ n ih => exact eq_zero_of_crcShift_eq_zero (ih h)

theorem crcShifts_inj {n : Nat} {a b : BitVec 16} : crcShifts n a = crcShifts n b ↔ a = b := by
  refine ⟨fun h => ?_, congrArg _⟩
  have hxor : crcShifts n (a ^^^ b) = 0 := by rw [crcShifts_xor, h]; exact BitVec.xor_self
  exact BitVec.xor_eq_zero_iff.1 (eq_zero_of_crcShifts_eq_zero n hxor)

/-- Shifts that push no 1 out at the top only move the bits. -/
theorem crcShifts_eq_shiftLeft (n : Nat) {a : BitVec 16} (h : a.toNat * 2 ^ n < 2 ^ 16) : crcShifts n a = a <<< n := by
  induction n generalizing a with
  | zero => exact (BitVec.shiftLeft_zero a).symm
  | succ n ih =>
    rw [Nat.pow_succ', ← Nat.mul_assoc] at h
    have htop : a.toNat * 2 < 2 ^ 16 := (Nat.le_mul_of_pos_right _ n.two_pow_pos).trans_lt h
    have hshift : crcShift a = a <<< 1 := by
      simp [crcShift, BitVec.msb_eq_false_iff_two_mul_lt.2 (Nat.mul_comm _ _ ▸ htop)]
    have hnat : (a <<< 1).toNat = a.toNat * 2 := by
      rw [BitVec.toNat_shiftLeft, Nat.shiftLeft_eq, Nat.pow_one, Nat.mod_eq_of_lt htop]
    rw [crcShifts, hshift, ih (hnat ▸ h), ← BitVec.shiftLeft_add, Nat.add_comm]

theorem crcShifts_byte (b : Byte) : crcShifts 8 (b.setWidth 16) = b.setWidth 16 <<< 8 :=
  crcShifts_eq_shiftLeft 8 (by have := b.isLt; rw [BitVec.toNat_setWidth]; omega)

/-! ## Crc16Byte on the two bytes of a CRC -/

theorem append_eq_xor (hi lo : Byte) : hi ++ lo = lo.setWidth 16 ^^^ (hi.setWidth 16 <<< 8) := by
  ext i hlt
  rw [BitVec.getElem_append]
  by_cases hi8 : i < 8
  · simp [hi8]
  · simp [hi8, Nat.le_of_not_lt hi8, BitVec.getLsbD_eq_getElem (show i - 8 < 8 by omega)]

/-- The CRC of two more bytes is 0 exactly for the bytes of the CRC: the first leaves the second at the top, which the
second clears. -/
theorem crcByte_crcByte_eq_zero_iff (c : BitVec 16) (hi lo : Byte) : crcByte (crcByte c hi) lo = 0 ↔ c = hi ++ lo := by
  have hzero : crcShifts 8 0 = 0 := rfl
  calc crcByte (crcByte c hi) lo = 0
      ↔ crcByte c hi ^^^ (lo.setWidth 16 <<< 8) = 0 := by rw [crcByte, ← hzero, crcShifts_inj]; rfl
    _ ↔ crcByte c hi = crcShifts 8 (lo.setWidth 16) := by rw [crcShifts_byte]; exact BitVec.xor_eq_zero_iff
    _ ↔ c ^^^ (hi.setWidth 16 <<< 8) = lo.setWidth 16 := crcShifts_inj
    _ ↔ c = hi ++ lo := by
      rw [append_eq_xor, ← BitVec.xor_left_inj (hi.setWidth 16 <<< 8), BitVec.xor_assoc, BitVec.xor_self,
        BitVec.xor_zero]

/-- The high byte of the CRC and the new byte go through the loop together, and the low byte only moves up. -/
theorem crcByte_eq_table (c : BitVec 16) (b : Byte) :
    crcByte c b = (c <<< 8) ^^^ crcByte 0 (c.extractLsb' 8 8 ^^^ b) := by
  have hbytes : c ^^^ (b.setWidth 16 <<< 8)
      = (c.setWidth 8).setWidth 16 ^^^ ((c.extractLsb' 8 8 ^^^ b).setWidth 16 <<< 8) := by
    ext i hlt
    by_cases hi8 : i < 8
    · simp [hi8, BitVec.getLsbD_eq_getElem hlt]
    · simp [hi8, show i - 8 < 8 by omega, show 8 + (i - 8) = i by omega, BitVec.getLsbD_eq_getElem hlt]
  have hlow : (c.setWidth 8).setWidth 16 <<< 8 = c <<< 8 := by
    refine BitVec.eq_of_toNat_eq ?_
    simp only [BitVec.toNat_shiftLeft, BitVec.toNat_setWidth, Nat.shiftLeft_eq]
    omega
  rw [crcByte, hbytes, crcShifts_xor, crcShifts_byte, hlow, crcByte]
  exact congrArg _ (congrArg _ BitVec.zero_xor.symm)

/-! ## VERIFY_CRC16 -/

theorem exec_verify_running {s : State} (h : Running .verify s) : exec .cmdVerifyCrc16 s = runVerify s :=
  if_pos h

theorem crcOkFlag_eq (c x : BitVec 16) : crcOkFlag c x = decide (c = x) := rfl

/-- A slice over written elements, listed by a function of the index. -/
theorem slice_eq_map {α : Type} {m : Memory α} (h : m.wf) {i n : Nat} {f : Nat → α}
    (hread : ∀ j, i ≤ j → j < i + n → m.read j = some (f j)) :
    m.slice i n = (List.range n).map (fun j => f (i + j)) := by
  have := slice_eq h (i := i) (vs := (List.range n).map (fun j => f (i + j))) fun j hj => by
    rw [List.length_map, List.length_range] at hj
    simpa using hread (i + j) (by omega) (by omega)
  simpa using this

end Sys2Proof.Machine

namespace Sys2Proof.Proofs

open Sys2Proof.Machine Sys2Proof.Claims

/-- Settles O52: the span and the two bytes after it are slices over written bytes. -/
theorem verifyComparesTheCrc : Obligations.VerifyComparesTheCrc := by
  intro s bytes hrun hwf hlen hspan hfield hread
  have hall := slice_eq_map (n := s.crcEnd.toNat - s.crcStart.toNat + 2) hwf fun j hj hlt => hread j hj (by omega)
  have hcalc := slice_eq_map (n := s.crcEnd.toNat - s.crcStart.toNat) hwf fun j hj hlt => hread j hj (by omega)
  have hexpect : s.ibuf.slice s.crcEnd.toNat 2 = [bytes s.crcEnd.toNat, bytes (s.crcEnd.toNat + 1)] :=
    slice_eq_map (n := 2) hwf fun j hj hlt => hread j (by omega) (by omega)
  refine ⟨_, BitVec.ofNat 16 (bigEndian (s.ibuf.slice s.crcEnd.toNat 2)), rfl, ?_, ?_⟩
  · have h0 := (bytes s.crcEnd.toNat).isLt
    have h1 := (bytes (s.crcEnd.toNat + 1)).isLt
    rw [hexpect, BitVec.toNat_ofNat]
    simp only [bigEndian, List.length_cons, List.length_nil]
    omega
  · rw [exec_verify_running hrun, runVerify, if_neg (by omega), verifySpan, if_neg (by omega), if_neg (by omega),
      if_neg (by simp [hall]), hcalc, crcOkFlag_eq, finish]

/-- Settles O53: the checks are VERIFY_CRC16's first branches, in order. -/
theorem verifyChecksItsRegisters : Obligations.VerifyChecksItsRegisters := by
  intro s hrun
  rw [exec_verify_running hrun, runVerify, verifySpan]
  refine ⟨fun hlen => if_pos hlen, fun hspan => ?_, fun hlen hspan hfield => ?_⟩
  · rw [if_pos hspan, ite_self]
  · rw [if_neg (by omega), if_neg (by omega), if_pos hfield]

/-- Settles O54: each turn of the loop is its integer form, and a span's CRC is a fold over its bytes. -/
theorem crcIsTheBitwiseRule : Obligations.CrcIsTheBitwiseRule := by
  refine ⟨fun crc b => ?_, rfl, fun bytes b => crc16_append bytes [b]⟩
  calc (crcByte crc b).toNat
      = natCrcShift^[8] (crc.toNat ^^^ (b.toNat * 2 ^ 8)) := by rw [crcByte, toNat_crcShifts, toNat_xor_byteAtTop]
    _ = (List.range 8).foldl (fun c _ => natCrcShift c) (crc.toNat ^^^ (b.toNat * 2 ^ 8)) :=
      (List.foldl_const natCrcShift _ (List.range 8)).symm

/-- Settles O55: the two bytes are taken after the span's CRC. -/
theorem crcResidueIsZero : Obligations.CrcResidueIsZero := by
  intro bytes hi lo
  rw [crc16_append]
  exact crcByte_crcByte_eq_zero_iff _ hi lo

/-- Settles O56: the table form is Crc16Byte, byte by byte. -/
theorem crcTableEqualsBitwiseCrc : Obligations.CrcTableEqualsBitwiseCrc := by
  intro bytes
  exact congrArg (bytes.foldl · 0) (funext₂ crcByte_eq_table)

end Sys2Proof.Proofs
end


section
/-! PROOF. One engine step of PARSE_SUBFRAME is the run of its element turns (O13), and every engine step ends its command
(O14). -/

namespace Sys2Proof.Machine

open Sys2Proof.Claims

/-! ## A piece of PARSE_SUBFRAME does not look at the turns -/

/-- The state with other turns to come. -/
def setTurns (ts : List Turn) (s : State) : State := { s with turns := ts }

/-- An answer with other turns to come. -/
def setResultTurns (ts : List Turn) : Result → Result
  | .next t => .next (setTurns ts t)
  | .fault r => .fault r
  | .refused r => .refused r

section turns
variable (ts : List Turn)

@[simp] theorem setTurns_parse (s : State) : (setTurns ts s).parse = s.parse := rfl
@[simp] theorem streamBits_setTurns (s : State) : streamBits (setTurns ts s) = streamBits s := rfl
@[simp] theorem streamEnd_setTurns (s : State) : streamEnd (setTurns ts s) = streamEnd s := rfl
@[simp] theorem advance_setTurns (n : Nat) (s : State) : advance (setTurns ts s) n = setTurns ts (advance s n) := rfl

theorem streamExhausted_setTurns (s : State) :
    streamExhausted (setTurns ts s) = setResultTurns ts (streamExhausted s) := by
  simp only [streamExhausted, streamEnd_setTurns]
  cases streamEnd s <;> rfl

theorem elementStopped_setTurns (stop : Stop) (s : State) :
    elementStopped stop (setTurns ts s) = setResultTurns ts (elementStopped stop s) := by
  cases stop with
  | short => exact streamExhausted_setTurns ts s
  | raise e => rfl

/-- An element whose effect keeps the turns. -/
theorem runElementWith_setTurns {α : Type} (s : State) (read : List Bool → Reading α) {effect : α → State → State}
    (h : ∀ v t, effect v (setTurns ts t) = setTurns ts (effect v t)) :
    runElementWith (setTurns ts s) read effect = setResultTurns ts (runElementWith s read effect) := by
  simp only [runElementWith, streamBits_setTurns, advance_setTurns]
  cases read (streamBits s) with
  | ok r => exact congrArg Host.Outcome.next (h _ _)
  | error stop => exact elementStopped_setTurns ts stop s

theorem closePartition_setTurns (f : Subframe) (r : Residual) (vs : List Int) (t : State) :
    closePartition f r vs (setTurns ts t) = setTurns ts (closePartition f r vs t) := by
  simp only [closePartition]
  split_ifs <;> rfl

/-- A choice of answers that does not turn on the turns. -/
theorem ite_setTurns {c : Prop} [Decidable c] {a b a' b' : Result} (ha : a = setResultTurns ts a')
    (hb : b = setResultTurns ts b') : (if c then a else b) = setResultTurns ts (if c then a' else b') := by
  split_ifs
  · exact ha
  · exact hb

theorem fixedForm_setTurns (order : Nat) (w : Bool) (s : State) :
    fixedForm order w (setTurns ts s) = setResultTurns ts (fixedForm order w s) :=
  ite_setTurns ts (runElementWith_setTurns ts s _ fun _ _ => rfl) rfl

theorem residualForm_setTurns (method : BitVec 1) (porder : BitVec 4) (s : State) :
    residualForm method porder (setTurns ts s) = setResultTurns ts (residualForm method porder s) := by
  simp only [residualForm, setTurns_parse]
  split
  · split_ifs <;> rfl
  · rfl

theorem partitionForm_setTurns (method : BitVec 1) (field : List Bool → Reading Int) (s : State) :
    partitionForm method field (setTurns ts s) = setResultTurns ts (partitionForm method field s) := by
  simp only [partitionForm, setTurns_parse]
  split
  · split_ifs
    · exact runElementWith_setTurns ts s _ (closePartition_setTurns ts _ _)
    · rfl
  · rfl

theorem execElement_setTurns (i : Instr) (s : State) :
    execElement i (setTurns ts s) = setResultTurns ts (execElement i s) := by
  cases i with
  | sfConstant w => exact ite_setTurns ts (runElementWith_setTurns ts s _ fun _ _ => rfl) rfl
  | sfVerbatim w => exact ite_setTurns ts (runElementWith_setTurns ts s _ fun _ _ => rfl) rfl
  | sfFixed0 w | sfFixed1 w | sfFixed2 w | sfFixed3 w | sfFixed4 w => exact fixedForm_setTurns ts _ w s
  | sfLpc o w => exact ite_setTurns ts (runElementWith_setTurns ts s _ fun _ _ => rfl) rfl
  | resRice4 q | resRice5 q => exact residualForm_setTurns ts _ q s
  | partEsc4 _ | partRice4 _ | partEsc5 _ | partRice5 _ => exact partitionForm_setTurns ts _ _ s
  | cmdNop | cmdParseSubframe | cmdReconstruct | cmdVerifyCrc16 | cmdSoftReset => rfl

theorem elementRejected_setTurns (e : DecodeError) (s : State) :
    elementRejected e (setTurns ts s) = setResultTurns ts (elementRejected e s) := by
  cases e with
  | truncated => exact streamExhausted_setTurns ts s
  | flagMissing form => exact ite_setTurns ts rfl (streamExhausted_setTurns ts s)
  | subframePadding | invalidCode | invalidCommand => rfl

theorem fetchElement_setTurns (p : ParseRun) (s : State) :
    fetchElement p (setTurns ts s) = setResultTurns ts (fetchElement p s) := by
  simp only [fetchElement, streamBits_setTurns, advance_setTurns]
  cases decode (slotAt p.phase) (streamBits s) with
  | ok r => exact execElement_setTurns ts _ _
  | error e => exact elementRejected_setTurns ts e s

/-- A piece of PARSE_SUBFRAME goes the same way whatever turns are to come, and keeps them. -/
theorem parsePiece_setTurns (s : State) : parsePiece (setTurns ts s) = setResultTurns ts (parsePiece s) := by
  simp only [parsePiece, setTurns_parse]
  cases s.parse with
  | none => exact ite_setTurns ts rfl rfl
  | some p => exact fetchElement_setTurns ts p s

end turns

/-! ## Element turns -/

/-- PARSE_SUBFRAME runs on where a piece leaves the block BUSY. -/
theorem running_of_parsePiece {s t : State} (hr : Running .parse s) (h : parsePiece s = .next t)
    (hb : t.blockState = .busy) : Running .parse t := by
  rcases parsePiece_progress hr.1 with ⟨u, e, hu | hu | ⟨-, hu, -⟩⟩ | e <;> rw [h] at e <;> cases e
  · rw [hb] at hu; cases hu
  · rw [hb] at hu; cases hu
  · exact ⟨hb, hu.trans hr.2⟩

/-- The state with n element turns to come, and no other. -/
def elementTurns (n : Nat) (s : State) : State := setTurns (List.replicate n .element) s

/-- The first of several element turns is one piece of PARSE_SUBFRAME. -/
theorem step_elementTurns {s : State} (hr : Running .parse s) (n : Nat) :
    step (elementTurns (n + 1) s) = setResultTurns (List.replicate n .element) (parsePiece s) :=
  (step_parsePiece (s := elementTurns (n + 1) s) hr rfl).trans (parsePiece_setTurns _ s)

theorem run_one (M : Host.Core) (s : M.State) : M.run 1 s = M.step s := by
  simp only [Host.Core.run]
  cases M.step s <;> rfl

theorem run_succ_of_next {M : Host.Core} {s t : M.State} (h : M.step s = .next t) (n : Nat) :
    M.run (n + 1) s = M.run n t := by simp only [Host.Core.run, h]

/-- A piece that does not leave the block BUSY is the last. -/
theorem runPieces_stops {s : State} (h : ∀ t, parsePiece s = .next t → t.blockState ≠ .busy) (m : Nat) :
    runPieces (m + 1) s = parsePiece s := by
  cases hpiece : parsePiece s with
  | next t => exact runPieces_last hpiece (h t hpiece)
  | fault r => simp only [runPieces, hpiece]
  | refused r => simp only [runPieces, hpiece]

/-- The run of the pieces, where its bound suffices, is the run of as many element turns. -/
theorem exists_run_elementTurns {m : Nat} {s : State} (hr : Running .parse s)
    (hm : runPieces m s ≠ .fault .engineOverrun) :
    ∃ n, Host.Core.run core n (elementTurns n s) = setResultTurns [] (runPieces m s) := by
  induction m generalizing s with
  | zero => exact absurd rfl hm
  | succ m ih =>
    by_cases hmore : ∃ t, parsePiece s = .next t ∧ t.blockState = .busy
    · obtain ⟨t, hpiece, hb⟩ := hmore
      rw [runPieces_next hpiece hb] at hm ⊢
      obtain ⟨n, hn⟩ := ih (running_of_parsePiece hr hpiece hb) hm
      have hstep : step (elementTurns (n + 1) s) = .next (elementTurns n t) := by
        rw [step_elementTurns hr, hpiece]; rfl
      exact ⟨n + 1, (run_succ_of_next (M := core) hstep n).trans hn⟩
    · rw [runPieces_stops fun t ht hb => hmore ⟨t, ht, hb⟩]
      exact ⟨1, (run_one core _).trans (step_elementTurns hr 0)⟩

/-! ## The engine's step -/

/-- PARSE_SUBFRAME never runs past its bound (spec/44_host_commands.md R270). -/
theorem runParse_ne_engineOverrun {s : State} (hb : s.blockState = .busy) : runParse s ≠ .fault .engineOverrun := by
  rcases runParse_ends hb with ⟨t, e, -⟩ | e <;> rw [e] <;> nofun

/-- PARSE_SUBFRAME uses no turn. -/
theorem setTurns_runParse {s : State} (hb : s.blockState = .busy) :
    setResultTurns s.turns (runParse s) = runParse s := by
  cases h : runParse s with
  | next t =>
    have hkept := runParse_hostPart hb h
    simp only [hostPart, Prod.mk.injEq] at hkept
    obtain ⟨-, -, -, -, -, -, -, hturns, -⟩ := hkept
    rw [← hturns]; rfl
  | fault r => rfl
  | refused r => rfl

theorem exec_parse_running {s : State} (h : Running .parse s) : exec .cmdParseSubframe s = runParse s := if_pos h

/-- The command PENDING names (spec/44_host_commands.md R269). -/
def commandOf : Op → Instr
  | .parse => .cmdParseSubframe
  | .reconstruct => .cmdReconstruct
  | .verify => .cmdVerifyCrc16

/-- With no turn left the engine executes the command PENDING names. -/
theorem step_pending {s : State} {op : Op} (hr : Running op s) (ht : s.turns = []) :
    step s = exec (commandOf op) s := by
  rw [step_engine hr.1 ht, engineMove, hr.2]
  cases op <;> rfl

/-- Every way RECONSTRUCT of a legal state ends: a held subframe is no malformed one, and its residuals are there. -/
theorem runReconstruct_ends {s : State} (h : Inv s) :
    ∃ t, runReconstruct s = .next t ∧ (t.blockState = .done ∨ t.blockState = .fault) := by
  have hnext : ∃ t, runReconstruct s = .next t := by
    cases hv : s.sfValid with
    | false => exact ⟨_, by rw [runReconstruct, hv]; rfl⟩
    | true =>
      obtain ⟨kind, hheld⟩ := h.held hv
      exact runReconstruct_of_held hheld h.resbufForm.1
  obtain ⟨t, ht⟩ := hnext
  refine ⟨t, ht, ?_⟩
  rcases runReconstruct_cases s with ⟨-, e⟩ | ⟨-, -, e⟩ | ⟨k, -, -, -, e⟩ | ⟨-, e⟩ | ⟨k, out, -, -, -, -, -, e⟩ <;>
    rw [ht] at e <;> cases e
  · exact .inr rfl
  · exact .inr rfl
  · exact .inl rfl

theorem runVerify_ends (s : State) :
    (∃ t, runVerify s = .next t ∧ (t.blockState = .done ∨ t.blockState = .fault))
      ∨ runVerify s = .fault (.unwrittenRead .ibuf) := by
  rcases runVerify_cases s with ⟨e, -, hv⟩ | hv | ⟨c, x, hv⟩
  · exact .inl ⟨_, hv, .inr rfl⟩
  · exact .inr hv
  · exact .inl ⟨_, hv, .inl rfl⟩

end Sys2Proof.Machine

namespace Sys2Proof.Proofs

open Sys2Proof.Machine

/-- Settles O13: a piece of PARSE_SUBFRAME does not look at the turns, so the pieces of the one step are the steps of as
many element turns; the bound on the pieces is never reached. -/
theorem wholeParseIsTheRunOfItsElements : Obligations.WholeParseIsTheRunOfItsElements := by
  intro s hr ht
  have hstep : step s = runParse s := (step_pending hr ht).trans (exec_parse_running hr)
  have hturns := setTurns_runParse hr.1
  rw [ht] at hturns
  obtain ⟨n, hrun⟩ := exists_run_elementTurns hr (runParse_ne_engineOverrun hr.1)
  have hsame : Host.Core.run core n (elementTurns n s) = step s := (hrun.trans hturns).trans hstep.symm
  exact ⟨fun t h => ⟨n, hsame.trans h⟩, fun r h => ⟨n, hsame.trans h⟩⟩

/-- Settles O14: each command's run ends, and in a legal BUSY state one of them is pending. -/
theorem engineStepEndsTheCommand : Obligations.EngineStepEndsTheCommand := by
  intro s h hb ht
  rw [step_engine hb ht]
  rcases engineMove_cases hb with ⟨-, e⟩ | ⟨-, e⟩ | ⟨-, e⟩ | ⟨hp, -⟩
  · rw [e]; exact runParse_ends hb
  · rw [e]; exact .inl (runReconstruct_ends h)
  · rw [e]; exact runVerify_ends s
  · have hsome := h.pending.1 hb
    rw [hp] at hsome
    cases hsome

end Sys2Proof.Proofs
end


section
/-! PROOF. What a step executes (O12), and the command words the host writes to CMD (O15 to O19). -/

namespace Sys2Proof.Machine

open Sys2Proof.Claims

/-! ## The engine -/

/-- An element turn executes the stream element at the cursor, past its header. -/
theorem step_decodedElement {s : State} {p : ParseRun} {ts : List Turn} {i : Instr} {rest : List Bool}
    (hr : Running .parse s) (hp : s.parse = some p) (ht : s.turns = .element :: ts)
    (h : decode (slotAt p.phase) (streamBits s) = .ok (i, rest)) :
    step s = exec i (advance { s with turns := ts } ((streamBits s).length - rest.length)) := by
  have hbits : streamBits { s with turns := ts } = streamBits s := rfl
  rw [step_fetchElement hr hp ht]
  simp only [fetchElement, hbits, h]
  exact execElement_eq_exec (decode_slot h ▸ slotAt_ne_command _) _

theorem step_idle {s : State} (hb : s.blockState ≠ .busy) (hh : s.host = []) : step s = .next s := by
  simp only [step, if_neg hb, moveFree, hh]

/-! ## A word written to CMD -/

theorem step_writeCmd {s : State} {v : Word} {as : List HostAction} (hb : s.blockState ≠ .busy)
    (hh : s.host = .writeReg 0 v :: as) : step s = issueCommand v { s with host := as } :=
  step_host_free hb hh

theorem issueCommand_decoded {v : Word} {i : Instr} {rest : List Bool}
    (h : decode .command (natBits 32 v.toNat) = .ok (i, rest)) (s : State) : issueCommand v s = exec i s := by
  simp only [issueCommand, h]

theorem issueCommand_command {v : Word} {i : Instr} (h : commandOfWord v.toNat = some i) (s : State) :
    issueCommand v s = exec i s :=
  issueCommand_decoded (rest := []) (by rw [decode_command, h]) s

theorem issueCommand_reserved {v : Word} (h : ReservedWord v) (s : State) :
    issueCommand v s = .next (if s.blockState = .fault then s else faultEntry .invalidCommand s) := by
  have hnone : commandOfWord v.toNat = none := by
    simp only [ReservedWord, List.mem_cons, List.not_mem_nil, or_false, not_or] at h
    obtain ⟨h0, h1, h2, h3, h15⟩ := h
    simp only [commandOfWord, h0, h1, h2, h3, h15, if_false]
  simp only [issueCommand, decode_command, hnone]

/-- Every word is reserved or a command's (spec/30_encoding.md R131, R132). -/
theorem word_cases (v : Word) :
    v = 0 ∨ (∃ op, commandOfWord v.toNat = some (commandOf op)) ∨ v = 0x0000000F ∨ ReservedWord v := by
  by_cases h0 : v.toNat = 0
  · exact .inl (BitVec.eq_of_toNat_eq h0)
  by_cases h1 : v.toNat = 1
  · exact .inr (.inl ⟨.parse, by rw [h1]; rfl⟩)
  by_cases h2 : v.toNat = 2
  · exact .inr (.inl ⟨.reconstruct, by rw [h2]; rfl⟩)
  by_cases h3 : v.toNat = 3
  · exact .inr (.inl ⟨.verify, by rw [h3]; rfl⟩)
  by_cases h15 : v.toNat = 15
  · exact .inr (.inr (.inl (BitVec.eq_of_toNat_eq h15)))
  · exact .inr (.inr (.inr (by simp [ReservedWord, h0, h1, h2, h3, h15])))

/-- The reserved words by R132's two fields: bits [31:4] nonzero, or OP 4 to 14. -/
theorem reservedWord_of_fields {v : Word}
    (h : v.extractLsb' 4 28 ≠ 0 ∨ 4 ≤ (v.extractLsb' 0 4).toNat ∧ (v.extractLsb' 0 4).toNat ≤ 14) :
    ReservedWord v := by
  have hhigh : (v.extractLsb' 4 28).toNat = v.toNat / 16 % 2 ^ 28 := by
    rw [BitVec.extractLsb'_toNat, Nat.shiftRight_eq_div_pow]
  have hlow : (v.extractLsb' 0 4).toNat = v.toNat % 2 ^ 4 := by rw [BitVec.extractLsb'_toNat, Nat.shiftRight_zero]
  rw [Ne, ← BitVec.toNat_inj, hhigh, hlow, show (0 : BitVec 28).toNat = 0 from rfl] at h
  simp only [ReservedWord, List.mem_cons, List.not_mem_nil, or_false]
  omega

section notBusy
variable {s : State} (hb : s.blockState ≠ .busy)
include hb

theorem exec_nop : exec .cmdNop s = .next s := if_neg hb

theorem exec_softReset : exec .cmdSoftReset s = .next (softReset s) := if_neg hb

theorem exec_commandOf (op : Op) : exec (commandOf op) s = .next (acceptCommand op s) := by
  have hrun : ¬ (s.blockState = .busy ∧ s.pending = some op) := fun h => hb h.1
  cases op <;> exact (if_neg hrun).trans (if_neg hb)

end notBusy

theorem acceptCommand_of_fault {s : State} (hf : s.blockState = .fault) (op : Op) : acceptCommand op s = s := if_pos hf

theorem acceptCommand_of_ne_fault {s : State} (hf : s.blockState ≠ .fault) (op : Op) :
    acceptCommand op s = { s with pending := some op, blockState := .busy } := if_neg hf

/-- In FAULT every word but SOFT_RESET's has no effect (spec/60_exceptions.md R308). -/
theorem issueCommand_inFault {s : State} (hf : s.blockState = .fault) {v : Word} (hv : v ≠ 0x0000000F) :
    issueCommand v s = .next s := by
  have hb : s.blockState ≠ .busy := by rw [hf]; nofun
  rcases word_cases v with rfl | ⟨op, hop⟩ | h15 | hres
  · rw [issueCommand_command (i := .cmdNop) rfl, exec_nop hb]
  · rw [issueCommand_command hop, exec_commandOf hb, acceptCommand_of_fault hf]
  · exact absurd h15 hv
  · rw [issueCommand_reserved hres, if_pos hf]

/-- A CMD write of a command's word executes the command. -/
theorem step_writeCommand {s : State} {v : Word} {as : List HostAction} {i : Instr} (hb : s.blockState ≠ .busy)
    (hh : s.host = .writeReg 0 v :: as) (hv : commandOfWord v.toNat = some i) :
    step s = exec i { s with host := as } :=
  (step_writeCmd hb hh).trans (issueCommand_command hv _)

theorem step_nop {s : State} {as : List HostAction} (hb : s.blockState ≠ .busy)
    (hh : s.host = .writeReg 0 0 :: as) : step s = .next { s with host := as } :=
  (step_writeCommand hb hh rfl).trans (exec_nop hb)

theorem step_softReset {s : State} {as : List HostAction} (hb : s.blockState ≠ .busy)
    (hh : s.host = .writeReg 0 0x0000000F :: as) : step s = .next (softReset { s with host := as }) :=
  (step_writeCommand hb hh rfl).trans (exec_softReset hb)

/-- A CMD write of an engine command outside FAULT accepts it. -/
theorem step_accepts {s : State} {v : Word} {as : List HostAction} {op : Op} (hb : s.blockState ≠ .busy)
    (hf : s.blockState ≠ .fault) (hh : s.host = .writeReg 0 v :: as)
    (hv : commandOfWord v.toNat = some (commandOf op)) :
    step s = .next { s with host := as, pending := some op, blockState := .busy } := by
  rw [step_writeCommand hb hh hv, exec_commandOf (s := { s with host := as }) hb,
    acceptCommand_of_ne_fault (s := { s with host := as }) hf]

/-- A CMD write of a reserved word outside FAULT is an error. -/
theorem step_rejects {s : State} {v : Word} {as : List HostAction} (hb : s.blockState ≠ .busy)
    (hf : s.blockState ≠ .fault) (hh : s.host = .writeReg 0 v :: as) (hv : ReservedWord v) :
    step s = .next (faultEntry .invalidCommand { s with host := as }) := by
  rw [step_writeCmd hb hh, issueCommand_reserved hv]
  exact congrArg Host.Outcome.next (if_neg hf)

theorem idle_or_done {s : State} (h : s.blockState = .idle ∨ s.blockState = .done) :
    s.blockState ≠ .busy ∧ s.blockState ≠ .fault := by
  rcases h with h | h <;> rw [h] <;> exact ⟨nofun, nofun⟩

end Sys2Proof.Machine

namespace Sys2Proof.Proofs

open Sys2Proof.Machine

/-- Settles O12: a CMD word and a stream element are decoded and executed, and the engine executes what PENDING names. -/
theorem stepExecutesTheDecodedInstruction : Obligations.StepExecutesTheDecodedInstruction := by
  refine ⟨fun s v as i rest hb hh h => ?_, fun s p ts i rest hr hp ht h => step_decodedElement hr hp ht h,
    fun s ht => ⟨fun hr => step_pending hr ht, fun hr => step_pending hr ht, fun hr => step_pending hr ht⟩,
    fun s hb hh => step_idle hb hh⟩
  rw [step_writeCmd hb hh, issueCommand_decoded h]

/-- Settles O15: outside BUSY and FAULT the execution of an engine command is its acceptance. -/
theorem engineCommandsAreAccepted : Obligations.EngineCommandsAreAccepted := by
  intro s h
  obtain ⟨hb, hf⟩ := idle_or_done h
  have haccept (op : Op) : exec (commandOf op) s = .next { s with pending := some op, blockState := .busy } := by
    rw [exec_commandOf hb, acceptCommand_of_ne_fault hf]
  exact ⟨haccept .parse, haccept .reconstruct, haccept .verify⟩

/-- Settles O16: by the kind of word; R132's fields name the reserved ones. -/
theorem commandAcceptance : Obligations.CommandAcceptance := by
  intro s v as hb hh
  refine ⟨fun hf hv => ?_, ?_, fun hf => ⟨fun hv => step_rejects hb hf hh (reservedWord_of_fields hv), ?_, ?_, ?_, ?_⟩⟩
  · rw [step_writeCmd hb hh, issueCommand_inFault (s := { s with host := as }) hf hv]
  · rintro rfl; exact step_softReset hb hh
  · rintro rfl; exact step_nop hb hh
  · rintro rfl; exact step_accepts (op := .parse) hb hf hh rfl
  · rintro rfl; exact step_accepts (op := .reconstruct) hb hf hh rfl
  · rintro rfl; exact step_accepts (op := .verify) hb hf hh rfl

/-- Settles O17: NOP's word is decoded to it, and its effect is the state itself. -/
theorem nopChangesNothing : Obligations.NopChangesNothing :=
  fun _ hb => ⟨exec_nop hb, fun _ hh => step_nop hb hh⟩

/-- Settles O18: SOFT_RESET's word is decoded to it, and `softReset` writes the five elements alone. -/
theorem softResetClearsStatusAndKeepsTheRest : Obligations.SoftResetClearsStatusAndKeepsTheRest :=
  fun _ hb => ⟨exec_softReset hb, fun _ hh => step_softReset hb hh⟩

/-- Settles O19: a reserved word is fault entry with InvalidCommandError's code. -/
theorem reservedCommandFaults : Obligations.ReservedCommandFaults := by
  intro s v as h hv hh
  obtain ⟨hb, hf⟩ := idle_or_done h
  exact step_rejects hb hf hh hv

end Sys2Proof.Proofs
end


section
/-! PROOF. The host's port: actions while BUSY (O21, O23), refused ones (O22), WriteIBUF (O27) and ReadBuf (O28). -/

namespace Sys2Proof.Machine

open Sys2Proof.Claims

/-! ## While BUSY -/

section busy
variable {s : State} {as : List HostAction} {ts : List Turn} (hb : s.blockState = .busy) (ht : s.turns = .host :: ts)
include hb ht

theorem step_write_busy {a : HostAction} (hh : s.host = a :: as) (ha : IsWrite a) :
    step s = .next { s with turns := ts, host := as, refused := true } := by
  rw [step_host_busy hb ht hh]
  rcases ha with ⟨r, v, rfl⟩ | ⟨i, b, rfl⟩ <;> rfl

theorem step_readReg_busy {r : Nat} (hh : s.host = .readReg r :: as) :
    step s = .next { s with
      turns := ts, host := as, readData := some (busyRegister s r), draws := s.draws + 1 } :=
  step_host_busy hb ht hh

theorem step_readBuf_busy {x : BufName} {i : Nat} (hh : s.host = .readBuf x i :: as) :
    step s = .next { s with
      turns := ts, host := as, readData := some (busyElement s x), draws := s.draws + 1 } :=
  step_host_busy hb ht hh

end busy

/-- A word whose two low bits are cleared and then set to 1. -/
theorem extractLsb'_stateBusy (w : Word) : (w &&& 0xFFFFFFFC#32 ||| 1#32).extractLsb' 0 2 = 1 := by
  rw [BitVec.extractLsb'_or, BitVec.extractLsb'_and]
  have hmask : (0xFFFFFFFC#32).extractLsb' 0 2 = 0#2 := by decide
  rw [hmask, BitVec.and_zero, BitVec.zero_or]
  decide

/-- While BUSY, STATUS reads with STATE = BUSY (spec/44_host_commands.md R272). -/
theorem busyRegister_status (s : State) : ∃ w : Word, w.extractLsb' 0 2 = 1 ∧ busyRegister s 1 = .word w :=
  ⟨_, extractLsb'_stateBusy _, rfl⟩

/-- Every register but SF_CONST reads 32 bits wide (spec/10_state.md R32). -/
theorem busyRegister_word (s : State) {r : Nat} (hr : r ≠ 21) : ∃ w : Word, busyRegister s r = .word w := by
  unfold busyRegister
  split
  · exact ⟨_, rfl⟩
  · exact absurd rfl hr
  · exact ⟨_, rfl⟩

/-- The elements of WARM, RESBUF and OBUF are 64 bits wide (spec/20_memory.md R91). -/
theorem busyElement_long (s : State) {x : BufName} (hi : x ≠ .ibuf) (hc : x ≠ .coef) :
    ∃ v : Long, busyElement s x = .long v := by
  cases x with
  | ibuf => exact absurd rfl hi
  | coef => exact absurd rfl hc
  | warm | resbuf | obuf => exact ⟨_, rfl⟩

/-! ## While not BUSY -/

section notBusy
variable {s : State} {as : List HostAction} {i : Nat} (hb : s.blockState ≠ .busy)
include hb

theorem step_writeIbuf {b : Byte} (hh : s.host = .writeIbuf i b :: as) (hi : i < Config.ibufBytes) :
    step s = .next { s with host := as, ibuf := s.ibuf.write i b } :=
  (step_host_free hb hh).trans (if_pos hi)

theorem step_writeIbuf_refused {b : Byte} (hh : s.host = .writeIbuf i b :: as) (hi : Config.ibufBytes ≤ i) :
    step s = .next { s with host := as, refused := true } :=
  (step_host_free hb hh).trans (if_neg (Nat.not_lt.2 hi))

theorem step_readBuf_written {x : BufName} {v : ReadValue} (hh : s.host = .readBuf x i :: as) (hi : i < bufDepth x)
    (hv : readElement s x i = some v) : step s = .next { s with host := as, readData := some v } := by
  have hread : readElement { s with host := as } x i = some v := hv
  rw [step_host_free hb hh, hostMoveFree, readBuffer, if_pos hi, hread]

theorem step_readBuf_unwritten {x : BufName} (hh : s.host = .readBuf x i :: as) (hi : i < bufDepth x)
    (hv : readElement s x i = none) : step s = .fault (.unwrittenRead x) := by
  have hread : readElement { s with host := as } x i = none := hv
  rw [step_host_free hb hh, hostMoveFree, readBuffer, if_pos hi, hread]

theorem step_readBuf_refused {x : BufName} (hh : s.host = .readBuf x i :: as) (hi : bufDepth x ≤ i) :
    step s = .next { s with host := as, refused := true } :=
  (step_host_free hb hh).trans (if_neg (Nat.not_lt.2 hi))

end notBusy

/-- The depths of the five spaces (spec/20_memory.md R80). -/
theorem bufDepth_le {x : BufName} {i : Nat}
    (h : x = .ibuf ∧ Config.ibufBytes ≤ i ∨ (x = .resbuf ∨ x = .obuf) ∧ 65536 ≤ i ∨ (x = .warm ∨ x = .coef) ∧ 32 ≤ i) :
    bufDepth x ≤ i := by
  rcases h with ⟨rfl, hi⟩ | ⟨rfl | rfl, hi⟩ | ⟨rfl | rfl, hi⟩ <;> exact hi

section elements
variable (s : State) {i : Nat}

theorem readElement_ibuf {v : Byte} (h : s.ibuf.read i = some v) : readElement s .ibuf i = some (.byte v) := by
  rw [readElement, h, Option.map_some]

theorem readElement_resbuf {v : Long} (h : s.resbuf.read i = some v) : readElement s .resbuf i = some (.long v) := by
  rw [readElement, h, Option.map_some]

theorem readElement_obuf {v : Long} (h : s.obuf.read i = some v) : readElement s .obuf i = some (.long v) := by
  rw [readElement, h, Option.map_some]

theorem readElement_warm (h : i < 32) : readElement s .warm i = some (.long s.warm[i]) := by
  simp [readElement, Vector.getD, h]

theorem readElement_coef (h : i < 32) : readElement s .coef i = some (.word s.coef[i]) := by
  simp [readElement, Vector.getD, h]

end elements

end Sys2Proof.Machine

namespace Sys2Proof.Proofs

open Sys2Proof.Machine

/-- Settles O21: while BUSY every write is refused. -/
theorem hostWritesWhileBusyAreRefused : Obligations.HostWritesWhileBusyAreRefused :=
  fun _ _ _ _ hb ht hh ha => ⟨_, step_write_busy hb ht hh ha, rfl⟩

/-- Settles O22: a refused action is `refuse`, which writes REFUSED alone. -/
theorem refusedActionsDoNothingElse : Obligations.RefusedActionsDoNothingElse := by
  intro s a as hh
  refine ⟨fun ts hb ht ha => step_write_busy hb ht hh ha, fun hb => ⟨?_, ?_⟩⟩
  · rintro i b rfl hi; exact step_writeIbuf_refused hb hh hi
  · rintro x i rfl hi; exact step_readBuf_refused hb hh (bufDepth_le hi)

/-- Settles O23: a read while BUSY answers a free value of its element's width. -/
theorem hostReadsWhileBusyChangeNothing : Obligations.HostReadsWhileBusyChangeNothing := by
  intro s ts as hb ht
  refine ⟨fun hh => ?_, fun hh => ⟨_, step_readReg_busy hb ht hh⟩, fun r hr hh => ?_,
    fun i hh => ⟨_, step_readBuf_busy hb ht hh⟩, fun i hh => ⟨_, step_readBuf_busy hb ht hh⟩, fun x i hi hc hh => ?_⟩
  · obtain ⟨w, hbusy, hw⟩ := busyRegister_status s
    exact ⟨w, hbusy, by rw [step_readReg_busy hb ht hh, hw]⟩
  · obtain ⟨w, hw⟩ := busyRegister_word s hr
    exact ⟨w, by rw [step_readReg_busy hb ht hh, hw]⟩
  · obtain ⟨v, hv⟩ := busyElement_long s hi hc
    exact ⟨v, by rw [step_readBuf_busy hb ht hh, hv]⟩

/-- Settles O27: the write of one element of IBUF is read back there and nowhere else. -/
theorem hostIbufWrites : Obligations.HostIbufWrites := by
  intro s i b as hb hh
  refine ⟨fun hi => ⟨_, step_writeIbuf hb hh hi, ?_, fun j hj => ?_⟩,
    fun hi => ⟨_, step_writeIbuf_refused hb hh hi, rfl⟩⟩
  · rw [read_write, if_pos rfl]
  · rw [read_write, if_neg hj.symm]

/-- Settles O28: the index is judged against the space's depth, then the element is read or unwritten. -/
theorem hostBufferReads : Obligations.HostBufferReads := by
  intro s x i as hb hh
  refine ⟨?_, ?_, ?_, ?_, ?_, ?_, ?_, ?_, fun h => ⟨_, step_readBuf_refused hb hh (bufDepth_le h), rfl⟩⟩
  · rintro rfl hi v hv; exact step_readBuf_written hb hh hi (readElement_ibuf s hv)
  · rintro rfl hi v hv; exact step_readBuf_written hb hh hi (readElement_resbuf s hv)
  · rintro rfl hi v hv; exact step_readBuf_written hb hh hi (readElement_obuf s hv)
  · rintro rfl hi; exact step_readBuf_written hb hh hi (readElement_warm s hi)
  · rintro rfl hi; exact step_readBuf_written hb hh hi (readElement_coef s hi)
  · rintro rfl hi hv; exact step_readBuf_unwritten hb hh hi (by rw [readElement, hv, Option.map_none])
  · rintro rfl hi hv; exact step_readBuf_unwritten hb hh hi (by rw [readElement, hv, Option.map_none])
  · rintro rfl hi hv; exact step_readBuf_unwritten hb hh hi (by rw [readElement, hv, Option.map_none])

end Sys2Proof.Proofs
end

section
/-! PROOF. Faults: what fault entry writes and keeps (O30), and the ways out of FAULT (O20). -/

namespace Sys2Proof.Machine

/-! ## The free cursor -/

theorem bitAddress_lt (curByte : Word) (curBit : BitVec 3) : bitAddress curByte curBit < 2 ^ 35 := by
  have hbyte := curByte.isLt
  have hbit := curBit.isLt
  unfold bitAddress
  omega

theorem entryAddress_lt (s : State) : entryAddress s < 2 ^ 35 := by
  unfold entryAddress
  split <;> exact bitAddress_lt _ _

/-- The cursor's registers hold every bit address they can name. -/
theorem bitAddress_setCursor (s : State) {a : Nat} (ha : a < 2 ^ 35) :
    bitAddress (setCursor s a).curByte (setCursor s a).curBit = a := by
  simp only [bitAddress, setCursor_curByte, setCursor_curBit, BitVec.toNat_ofNat]
  omega

theorem entryAddress_le_freeCursor (s : State) : entryAddress s ≤ freeCursor s := Nat.le_add_right _ _

theorem freeCursor_le (s : State) : freeCursor s ≤ max (entryAddress s) (8 * s.ibufLen.toNat) := by
  have hmod := Nat.mod_lt (Config.free s.draws .cursor).toNat
    (Nat.add_one_pos (8 * s.ibufLen.toNat - entryAddress s))
  unfold freeCursor
  omega

/-- After a PARSE_SUBFRAME fault the cursor is at the free address (spec/60_exceptions.md R306). -/
theorem bitAddress_parseFault (e : ErrorCode) (s : State) :
    bitAddress (parseFault e s).curByte (parseFault e s).curBit = freeCursor s := by
  refine bitAddress_setCursor s ?_
  have hentry := entryAddress_lt s
  have hlen := s.ibufLen.isLt
  have hle := freeCursor_le s
  omega

/-! ## The free elements of a buffer -/

section freeElements
variable (m : Memory Long) (d : Nat) (slot : Nat → FreeSlot) {n i : Nat}

theorem isSome_read_writeFreeRun (hi : i < n) : ((m.writeRun 0 (freeRun d slot n)).read i).isSome := by
  have hread := read_writeRun_inside m 0 (freeRun d slot n) i (by rwa [length_freeRun])
  rw [Nat.zero_add] at hread
  rw [hread, Option.isSome_some]

theorem read_writeFreeRun_outside (hi : n ≤ i) : (m.writeRun 0 (freeRun d slot n)).read i = m.read i :=
  read_writeRun_outside m 0 _ i (.inr (by rwa [length_freeRun, Nat.zero_add]))

end freeElements

/-! ## FAULT and the host -/

theorem step_reset_free {s : State} {as : List HostAction} (hb : s.blockState ≠ .busy)
    (hh : s.host = .reset :: as) : step s = .next (hardReset { s with host := as }) :=
  step_host_free hb hh

theorem writeReg_blockState (s : State) (r : Nat) (v : Word) : (writeReg s r v).blockState = s.blockState := by
  unfold writeReg; split <;> rfl

/-- Of the states a step answers from FAULT, only those of reset and SOFT_RESET have another STATE or ERRCODE: a command
is accepted and a reserved word faults outside FAULT, and the engine runs in BUSY. -/
theorem stepEnd_inFault {s t : State} (hf : s.blockState = .fault) (h : StepEnd s t) :
    (t.blockState = .fault ∧ t.errcode = s.errcode)
      ∨ ∃ as, s.host = .reset :: as ∨ s.host = .writeReg 0 0x0000000F :: as := by
  cases h with
  | quiet e => rw [e]; exact .inl ⟨hf, rfl⟩
  | reset as ts hh e => exact .inr ⟨as, .inl hh⟩
  | register r v as hb hh e =>
    have hflags := writeReg_flags { s with host := as } r v
    simp only [Prod.mk.injEq] at hflags
    obtain ⟨-, -, -, herr⟩ := hflags
    subst e
    exact .inl ⟨(writeReg_blockState _ r v).trans hf, herr⟩
  | stored i b as hi hb e => subst e; exact .inl ⟨hf, rfl⟩
  | accepted op as hb hne e => exact absurd hf hne
  | rejected as hne e => exact absurd hf hne
  | softReset as hb hh e => exact .inr ⟨as, .inr hh⟩
  | parse ts hr hreach => exact absurd hf (not_fault_of_busy hr.1)
  | reconstruct ts hr hrun => exact absurd hf (not_fault_of_busy hr.1)
  | verify ts hr hrun => exact absurd hf (not_fault_of_busy hr.1)

end Sys2Proof.Machine

namespace Sys2Proof.Proofs

open Sys2Proof.Machine

/-- Settles O30: fault entry over each command's free values; the cursor is at the free address, and the run of free
elements is written from index 0 up to the block size. -/
theorem faultEntryKeepsWhatTheCommandDoesNotWrite : Obligations.FaultEntryKeepsWhatTheCommandDoesNotWrite := by
  refine ⟨fun e s => ?_, fun e s => ?_, fun e s => ⟨_, _, rfl⟩, ?_⟩
  · have hcursor := bitAddress_parseFault e s
    refine ⟨_, rfl, rfl, rfl, rfl, rfl, rfl, rfl, rfl, (entryAddress_le_freeCursor s).trans_eq hcursor.symm,
      hcursor.trans_le (freeCursor_le s), fun i hi => isSome_read_writeFreeRun _ _ _ hi,
      fun i hi => read_writeFreeRun_outside _ _ _ hi, ?_⟩
    and_intros <;> rfl
  · exact ⟨_, rfl, fun i hi => isSome_read_writeFreeRun _ _ _ hi, fun i hi => read_writeFreeRun_outside _ _ _ hi⟩
  · and_intros <;> rfl

/-- Settles O20: each host action in FAULT by its step, and the last clause by the cases of a step's end. -/
theorem faultIsSticky : Obligations.FaultIsSticky := by
  intro s as hf
  have hb : s.blockState ≠ .busy := by rw [hf]; nofun
  refine ⟨fun v hv hh => ?_, fun hh => ⟨_, step_softReset hb hh, rfl, rfl⟩,
    fun hh => ⟨_, step_reset_free hb hh, rfl, rfl⟩, fun r v hr hh => step_writeReg hb hr hh,
    fun i b hi hh => step_writeIbuf hb hh hi, fun t ht => stepEnd_inFault hf (step_end ht)⟩
  rw [step_writeCmd hb hh, issueCommand_inFault (s := { s with host := as }) hf hv]

end Sys2Proof.Proofs
end

section
/-! PROOF. Reset: what it clears and keeps in any state (O29), and that the state after it is legal (O57). -/

namespace Sys2Proof.Machine

/-- Reset is taken in every state, BUSY included, and takes the host's turn there (spec/70_reset_and_hazards.md R342). -/
theorem step_reset {s : State} {as : List HostAction} {ts : List Turn} (hh : s.host = .reset :: as)
    (ht : s.blockState = .busy ∧ s.turns = .host :: ts ∨ s.blockState ≠ .busy ∧ s.turns = ts) :
    step s = .next (hardReset { s with host := as, turns := ts }) := by
  rcases ht with ⟨hb, ht⟩ | ⟨hb, rfl⟩
  · exact step_host_busy hb ht hh
  · exact step_reset_free hb hh

theorem statusWord_hardReset (s : State) : statusWord (hardReset s) = 0 := by
  change statusWord State.reset = 0
  decide

/-- After reset every register reads 0 (spec/70_reset_and_hazards.md R340); SF_CONST alone reads 64 bits wide. -/
theorem readReg_hardReset (s : State) {r : Nat} (hr : r ≠ 21) : readReg (hardReset s) r = .word 0 := by
  unfold readReg
  split
  case h_1 => rw [statusWord_hardReset]
  case h_21 => exact absurd rfl hr
  all_goals rfl

/-- After reset every element of the two files is 0. -/
theorem getElem_files_hardReset (s : State) (i : Fin 32) :
    (hardReset s).warm[i.val] = 0 ∧ (hardReset s).coef[i.val] = 0 :=
  ⟨Vector.getElem_replicate i.isLt, Vector.getElem_replicate i.isLt⟩

end Sys2Proof.Machine

namespace Sys2Proof.Proofs

open Sys2Proof.Machine

/-- Settles O29: the step is `hardReset`, whose registers and files read 0 and whose buffers hold nothing. -/
theorem resetClearsTheBlock : Obligations.ResetClearsTheBlock := by
  intro s as ts hh ht
  refine ⟨_, step_reset hh ht, rfl, rfl, rfl, rfl, rfl, fun r hr => readReg_hardReset _ hr, rfl,
    getElem_files_hardReset _, fun i => ⟨rfl, rfl, rfl⟩, ?_⟩
  and_intros <;> rfl

/-- Settles O57: the state after reset is the one a host's reset of it answers. -/
theorem resetStateIsLegal : Obligations.ResetStateIsLegal := inv_hardReset State.reset

end Sys2Proof.Proofs
end
